-- ==== Sys2Proof/Word.lean ====
section
/-! DEFINITION. The word type and the two small record shapes every layer shares.

One word is one real of `W` bits (spec 00_scope R8, R15).  `W` is 32 or 64 and is a property of the
instance, so a word is held here in 64 bits; a word of a SINGLE instance uses bits 31..0 and its bits
63..32 are zero (log entry 2). -/

namespace Sys2Proof

/-- One `W`-bit word (R15), held in 64 bits. -/
abbrev Word := BitVec 64

/-- The precision of every real of an instance (R8). -/
inductive Prec where
  | single   -- IEEE 754 binary32, `W = 32`, tag 0
  | double   -- IEEE 754 binary64, `W = 64`, tag 1
  deriving DecidableEq, Repr

/-- The five coefficients of one section, in the order of R23; `a0 = 1` is not stored. -/
structure Coeffs (α : Type) where
  b0 : α
  b1 : α
  b2 : α
  a1 : α
  a2 : α
  deriving DecidableEq, Repr

/-- The two state registers of one section (R26); the source also calls them `state1`, `state2`. -/
structure Delay (α : Type) where
  w1 : α
  w2 : α
  deriving DecidableEq, Repr

end Sys2Proof
end

