-- ==== Sys2Proof/Syntax.lean ====
section
/-! DEFINITION. The commands (spec 00_scope R3, 30_encoding R70), the status names (60_exceptions R190)
and the reasons a command word is illegal (30_encoding R72). -/

namespace Sys2Proof

/-- The buffer an `RDBUF` reads (R66): bit 23 of the command word. -/
inductive Bank where
  | x   -- XBUF, `BANK = 0`
  | y   -- YBUF, `BANK = 1`
  deriving DecidableEq, Repr

/-- The six run-time commands, one constructor per row of the opcode map (R70).  Integer operands are
the unsigned integers R69 assembles; the real operand of `PROC` and `WRBUF` travels on `cmd_data` and
is no part of the command word (R68). -/
inductive Instr where
  | rst                            -- R120
  | proc                           -- R121
  | ffilt (n : Nat)                -- R145
  | wrbuf (i : Nat)                -- R175
  | rdbuf (bank : Bank) (i : Nat)  -- R179
  | rdflt (a : Nat)                -- R182
  deriving DecidableEq, Repr

/-- The outcome names of R190, the design-time ones among them. -/
inductive Status where
  | ok
  | invalidOrder            -- design time only
  | invalidFrequency        -- design time only
  | invalidParameter        -- design time only; alias `InvalidBandwidth` (R193)
  | insufficientSamples
  | tooManySections         -- design time only
  | lengthExceedsCapacity
  | badAddress
  | illegalCommand
  deriving DecidableEq, Repr

/-- Why a command word matches no row of the opcode map (R72).  The block answers `IllegalCommand`
whichever it is. -/
inductive IllegalWord where
  | reservedField   -- `RSV != 0`
  | opcode          -- `OP = 0x0` or `0x7 .. 0xF`
  | argument        -- `RST` or `PROC` with `ARG != 0`
  | bankBit         -- `WRBUF` with `ARG[23] = 1`
  deriving DecidableEq, Repr

end Sys2Proof
end

