-- ==== Sys2Proof/WellFormed.lean ====
section
/-! DEFINITION. Which commands a command word can carry: the ranges of spec 30_encoding R69, column
"range the word can carry".  (Which ROM images are well-formed, R24, is in Machine/Rom.lean.) -/

namespace Sys2Proof

/-- Every operand fits its field of the command word (R69). -/
def Instr.wellFormed : Instr → Bool
  | .rst => true
  | .proc => true
  | .ffilt n => decide (n < 2 ^ 24)
  | .wrbuf i => decide (i < 2 ^ 23)
  | .rdbuf _ i => decide (i < 2 ^ 23)
  | .rdflt a => decide (a < 2 ^ 24)

end Sys2Proof
end

