-- ==== Sys2Proof/Decode.lean ====
section
/-! DEFINITION. Decoding a command word (spec 30_encoding R65 to R74) and, after it, encoding a command
from the same map. -/

namespace Sys2Proof

/-- `v[hi:lo]` of R14: the unsigned integer formed by bits `hi` down to `lo`. -/
def bits (v : BitVec 32) (hi lo : Nat) : Nat := v.toNat / 2 ^ lo % 2 ^ (hi - lo + 1)

/-- One row of the opcode map (R70): a word is the row's when `(cmd_word AND mask) = pattern`. -/
structure OpcodeRow where
  mnemonic : String
  pattern  : BitVec 32
  mask     : BitVec 32
  deriving DecidableEq, Repr

/-- The complete map of R70. -/
def opcodeRows : List OpcodeRow :=
  [ ⟨"RST",   0x10000000#32, 0xFFFFFFFF#32⟩,
    ⟨"PROC",  0x20000000#32, 0xFFFFFFFF#32⟩,
    ⟨"FFILT", 0x30000000#32, 0xFF000000#32⟩,
    ⟨"WRBUF", 0x40000000#32, 0xFF800000#32⟩,
    ⟨"RDBUF", 0x50000000#32, 0xFF000000#32⟩,
    ⟨"RDFLT", 0x60000000#32, 0xFF000000#32⟩ ]

/-- The word matches the row (R70). -/
def OpcodeRow.accepts (r : OpcodeRow) (w : BitVec 32) : Bool := w &&& r.mask == r.pattern

/-- The bank named by bit 23 of the word (R66). -/
def bankOf (b : Nat) : Bank := if b = 0 then .x else .y

/-- Decode a command word by the fields of format `C` (R66): total, independent of every state, and
rejecting by name (R72, R74).  Range checks on `N`, `i` and `a` are the commands' own (R74). -/
def decode (w : BitVec 32) : Except IllegalWord Instr :=
  if bits w 27 24 ≠ 0 then .error .reservedField
  else match bits w 31 28 with
    | 1 => if bits w 23 0 = 0 then .ok .rst else .error .argument
    | 2 => if bits w 23 0 = 0 then .ok .proc else .error .argument
    | 3 => .ok (.ffilt (bits w 23 0))
    | 4 => if bits w 23 23 = 0 then .ok (.wrbuf (bits w 22 0)) else .error .bankBit
    | 5 => .ok (.rdbuf (bankOf (bits w 23 23)) (bits w 22 0))
    | 6 => .ok (.rdflt (bits w 23 0))
    | _ => .error .opcode

/-- Bit 23 of an `RDBUF` word for a bank (R66). -/
def bankBit : Bank → Nat
  | .x => 0
  | .y => 1

/-- The command word of a well-formed command (R70, and the assembler column of R75).  An operand too large
for its field carries into the bits above it (log entry 33). -/
def encode : Instr → BitVec 32
  | .rst => 0x10000000#32
  | .proc => 0x20000000#32
  | .ffilt n => BitVec.ofNat 32 (0x30000000 + n)
  | .wrbuf i => BitVec.ofNat 32 (0x40000000 + i)
  | .rdbuf b i => BitVec.ofNat 32 (0x50000000 + bankBit b * 2 ^ 23 + i)
  | .rdflt a => BitVec.ofNat 32 (0x60000000 + a)

/-- What the decoder reads from a command whose bits, numbered as the opcode table numbers them, are
`w`; bits at and above `nbits` are zero. -/
def decodeTableWord (nbits w : Nat) : Option Instr :=
  match decode (BitVec.ofNat 32 (w % 2 ^ nbits)) with
  | .ok i => some i
  | .error _ => none

end Sys2Proof
end

