-- ==== Sys2Proof/Machine/Flags.lean ====
section
/-! DEFINITION. The block has no flag and no condition code (spec 10_state R31): a command reports itself
in the status of its response and nowhere else (60_exceptions R197).  Here are the status numbers (R190). -/

namespace Sys2Proof.Machine

/-- The number of a status (R190); 9 to 15 are reserved and never produced. -/
def statusCode : Status → BitVec 4
  | .ok => 0
  | .invalidOrder => 1
  | .invalidFrequency => 2
  | .invalidParameter => 3
  | .insufficientSamples => 4
  | .tooManySections => 5
  | .lengthExceedsCapacity => 6
  | .badAddress => 7
  | .illegalCommand => 8

/-- The statuses R190 marks as seen on `rsp_status`. -/
def seenOnPort : Status → Bool
  | .ok => true
  | .insufficientSamples => true
  | .lengthExceedsCapacity => true
  | .badAddress => true
  | .illegalCommand => true
  | .invalidOrder => false
  | .invalidFrequency => false
  | .invalidParameter => false
  | .tooManySections => false

end Sys2Proof.Machine
end

