-- ==== Sys2Proof/Config.lean ====
section
/-! DEFINITION. What an instance fixes (spec 00_scope R8 to R13) and the free values.

The parameters and the ROM image are plain data that State carries and no step changes, so that every
statement over all states is a statement over all configurations (log entry 1).  The constants below
without a body are the free values: nothing in Lean can evaluate them or prove a value of them. -/

namespace Sys2Proof

/-- The three functions of `NUMERICS` (R13). -/
inductive RealOp where
  | mul
  | add
  | sub
  deriving DecidableEq, Repr

/-- `NUMERICS` as an argument of the instance (R13, U11; log entry 21): the IEEE operations R124
describes, or one of the datapaths the spec says nothing more of. -/
inductive Datapath where
  | ieee
  | other (k : Nat)
  deriving DecidableEq, Repr

/-- The integer, precision and arithmetic parameters of an instance. -/
structure Params where
  prec     : Prec       -- `PREC` (R8)
  maxsec   : Nat        -- `MAXSEC` (R9)
  nmax     : Nat        -- `NMAX` (R10)
  padk     : Nat        -- `PADK` (R11)
  datapath : Datapath   -- `NUMERICS` (R13)
  deriving DecidableEq, Repr

/-- `IMAGE` (R12): the precision tag and the ordered sections of the Filter.  `ROM.NSEC` is the number
of sections. -/
structure Image where
  prec     : Prec
  sections : List (Coeffs Word)
  deriving DecidableEq, Repr

namespace Config

/-- The default parameters of 00_scope R9 to R11 and R13, with `PREC = DOUBLE` (no default in the spec:
log entry 3). -/
def defaultParams : Params :=
  { prec := .double, maxsec := 8, nmax := 1024, padk := 6, datapath := .ieee }

/-- The image of the state after reset: `DESIGN_HP 2, 40, 500` as 95_test_vectors V-DB words it (log
entry 3: the spec gives no default image). -/
def defaultImage : Image :=
  { prec := .double
    sections := [{ b0 := 0x3FE6648D1B80D085#64, b1 := 0xBFF6648D1B80D085#64,
                   b2 := 0x3FE6648D1B80D085#64, a1 := 0xBFF4EAA3B4D7550A#64,
                   a2 := 0x3FDF79DA08A93000#64 }] }

/-- FREE VALUE: the bits from which the NaN of a draw is made (R126, U2; log entry 5). -/
opaque freeNaN : Nat → BitVec 64

/-- FREE VALUE: the word an operation of datapath `other k` returns, three total functions on words for
each `k` (U11; log entry 21). -/
opaque otherResult : Nat → RealOp → Prec → BitVec 64 → BitVec 64 → BitVec 64

/-- FREE VALUE: what a read of an unspecified buffer word returns (R52, U4; log entry 6). -/
opaque freeWord : Nat → BitVec 64

/-- FREE VALUE: whether an abandoned `WRBUF` has written its word (R217, U6; log entry 7). -/
opaque freeBit : Nat → Bool

/-- FREE VALUE: the counters `LEN` and `IDX` after a hardware reset (R38; log entry 8). -/
opaque freeCounter : Nat → BitVec 25

/-- FREE VALUE: the contents of the hidden buffer TBUF after a hardware reset (R38; log entry 8). -/
opaque freeWords : Nat → List (BitVec 64)

end Config
end Sys2Proof
end

