-- ==== Sys2Proof/Machine/Real.lean ====
section
/-! DEFINITION. The reals of the block as bit patterns and their arithmetic: IEEE 754 binary32 and
binary64, round to nearest with ties to even, no fused operation, no flags (spec 00_scope R8, R13, R15,
41_cascade R124 to R127).

Every finite real of a format is a whole number of UNITS, one unit being the smallest positive
subnormal, `2^-149` or `2^-1074`.  So a finite real is a sign and a natural number of units, sums are
exact in whole units, and a product is a whole number of units divided by a power of two. -/

namespace Sys2Proof.Machine

/-- `W`, the bits of one real (R8). -/
def wordWidth : Prec → Nat
  | .single => 32
  | .double => 64

/-- The number of fraction bits (R15). -/
def fracBits : Prec → Nat
  | .single => 23
  | .double => 52

/-- The number of exponent bits (R15). -/
def expBits : Prec → Nat
  | .single => 8
  | .double => 11

/-- One unit is `2 ^ -unitBits`: the smallest positive subnormal of the format. -/
def unitBits : Prec → Nat
  | .single => 149
  | .double => 1074

/-- The magnitude bits of an infinity: all exponent bits set, fraction zero. -/
def infBits (p : Prec) : Nat := (2 ^ expBits p - 1) * 2 ^ fracBits p

/-- The value of a bit of the sign position, `W-1` (R15). -/
def signBit (p : Prec) : Nat := 2 ^ (wordWidth p - 1)

/-- The `W` bits a port or a register of the instance has room for. -/
def clip (p : Prec) (w : Word) : Word := BitVec.ofNat 64 (w.toNat % 2 ^ wordWidth p)

/-- The word has no bit at or above `W`. -/
def fits (p : Prec) (w : Word) : Bool := decide (w.toNat < 2 ^ wordWidth p)

/-- What a word stands for (R15): a NaN, an infinity, or a signed whole number of units. -/
inductive Datum where
  | nan
  | inf (neg : Bool)
  | fin (neg : Bool) (units : Nat)
  deriving DecidableEq, Repr

/-- The sign bit of a word. -/
def isNeg (p : Prec) (w : Word) : Bool := decide (w.toNat / signBit p % 2 = 1)

/-- The bits of a word below the sign. -/
def magBits (p : Prec) (w : Word) : Nat := w.toNat % signBit p

/-- The units of a finite magnitude: a subnormal is its fraction, a normal number has the hidden bit and
is scaled by its exponent field less one (R15). -/
def unitsOf (p : Prec) (mag : Nat) : Nat :=
  let e := mag / 2 ^ fracBits p
  let f := mag % 2 ^ fracBits p
  if e = 0 then f else (2 ^ fracBits p + f) * 2 ^ (e - 1)

/-- `real(b)` of R15. -/
def datum (p : Prec) (w : Word) : Datum :=
  if infBits p < magBits p w then .nan
  else if magBits p w = infBits p then .inf (isNeg p w)
  else .fin (isNeg p w) (unitsOf p (magBits p w))

/-- The word is a NaN. -/
def isNaN (p : Prec) (w : Word) : Bool := decide (infBits p < magBits p w)

/-- The word is neither a NaN nor an infinity. -/
def isFinite (p : Prec) (w : Word) : Bool := decide (magBits p w < infBits p)

/-- The word with a given sign and magnitude bits. -/
def pack (p : Prec) (neg : Bool) (mag : Nat) : Word :=
  BitVec.ofNat 64 (mag + if neg then signBit p else 0)

/-- The word of an infinity. -/
def infWord (p : Prec) (neg : Bool) : Word := pack p neg (infBits p)

/-- A NaN made of 64 arbitrary bits: every NaN of the format comes from some of them, and nothing else
does (R126: which NaN is returned is unspecified). -/
def nanOf (p : Prec) (raw : Word) : Word :=
  pack p (raw.toNat / 2 ^ 63 % 2 = 1)
    (infBits p + if raw.toNat % 2 ^ fracBits p = 0 then 1 else raw.toNat % 2 ^ fracBits p)

/-- The NaN of one draw (U2). -/
def drawnNaN (p : Prec) (draw : Nat) : Word := nanOf p (Config.freeNaN draw)

/-- `num / 2^sh` rounded to a natural number, ties to even. -/
def roundDiv (num sh : Nat) : Nat :=
  let q := num / 2 ^ sh
  let r := num % 2 ^ sh
  if 2 * r > 2 ^ sh ∨ (2 * r = 2 ^ sh ∧ q % 2 = 1) then q + 1 else q

/-- The exact non-negative value `num / 2^sh` units rounded to the format, to nearest and ties to even:
its magnitude bits.  `e` is the exponent of the result's last place, so a result that fits below the
hidden bit is a subnormal (gradual underflow), a carry out of the significand moves to the next exponent
by itself, and a magnitude past the largest finite one is an infinity (R124, R125). -/
def roundMag (p : Prec) (num sh : Nat) : Nat :=
  let e := Nat.log2 num - (sh + fracBits p)
  min (e * 2 ^ fracBits p + roundDiv num (sh + e)) (infBits p)

/-- `roundMag` with a sign. -/
def roundUnits (p : Prec) (neg : Bool) (num sh : Nat) : Word := pack p neg (roundMag p num sh)

/-- The exact sum of two finite reals, rounded; a zero sum of opposite signs is `+0.0` (R127). -/
def addFinite (p : Prec) (s : Bool) (x : Nat) (t : Bool) (y : Nat) : Word :=
  if s = t then roundUnits p s (x + y) 0
  else if y < x then roundUnits p s (x - y) 0
  else if x < y then roundUnits p t (y - x) 0
  else pack p false 0

/-- IEEE 754 addition (R124, R126, R127); `draw` numbers the NaN it may return. -/
def ieeeAdd (p : Prec) (draw : Nat) (a b : Word) : Word :=
  match datum p a, datum p b with
  | .nan, _ => drawnNaN p draw
  | _, .nan => drawnNaN p draw
  | .inf s, .inf t => if s = t then infWord p s else drawnNaN p draw
  | .inf s, .fin _ _ => infWord p s
  | .fin _ _, .inf t => infWord p t
  | .fin s x, .fin t y => addFinite p s x t y

/-- The word with its sign bit turned over. -/
def negate (p : Prec) (w : Word) : Word := pack p (!isNeg p w) (magBits p w)

/-- IEEE 754 subtraction (R124): `a - b` is `a + (-b)`. -/
def ieeeSub (p : Prec) (draw : Nat) (a b : Word) : Word := ieeeAdd p draw a (negate p b)

/-- IEEE 754 multiplication (R124 to R127): the product of `x` and `y` units is `x * y / 2^unitBits`
units. -/
def ieeeMul (p : Prec) (draw : Nat) (a b : Word) : Word :=
  match datum p a, datum p b with
  | .nan, _ => drawnNaN p draw
  | _, .nan => drawnNaN p draw
  | .inf s, .inf t => infWord p (s != t)
  | .inf s, .fin t y => if y = 0 then drawnNaN p draw else infWord p (s != t)
  | .fin s x, .inf t => if x = 0 then drawnNaN p draw else infWord p (s != t)
  | .fin s x, .fin t y => roundUnits p (s != t) (x * y) (unitBits p)

/-- The shape of the configuration record `NUMERICS` of R13: three total functions on words.  The `Nat`
numbers the draw of the NaN an operation may return (U2). -/
structure Numerics where
  fmul : Prec → Nat → Word → Word → Word
  fadd : Prec → Nat → Word → Word → Word
  fsub : Prec → Nat → Word → Word → Word

/-- The default numerics: unfused IEEE operations (R13, R124, D2). -/
def numerics : Numerics := { fmul := ieeeMul, fadd := ieeeAdd, fsub := ieeeSub }

/-- The numerics of a datapath other than the default: nothing is known of its words but their width
(U11; log entry 21).  Being functions of their operands, its operations draw no NaN. -/
def otherNumerics (k : Nat) : Numerics :=
  { fmul := fun p _ a b => clip p (Config.otherResult k .mul p a b)
    fadd := fun p _ a b => clip p (Config.otherResult k .add p a b)
    fsub := fun p _ a b => clip p (Config.otherResult k .sub p a b) }

/-- `NUMERICS` of an instance (R13). -/
def numericsOf : Datapath → Numerics
  | .ieee => numerics
  | .other k => otherNumerics k

/-- A finite real as a rational number; `none` for infinities and NaNs. -/
def toRat (p : Prec) (w : Word) : Option ℚ :=
  match datum p w with
  | .fin neg u => some ((if neg then -(u : ℚ) else (u : ℚ)) / 2 ^ unitBits p)
  | _ => none

end Sys2Proof.Machine
end

