-- ==== Sys2Proof/Machine/State.lean ====
section
/-! DEFINITION. The state of one block instance as plain data (spec 10_state R20 to R39), the reasons a
step could stop, and the state right after hardware reset. -/

namespace Sys2Proof.Machine

/-- The controller's sequencing state `PHASE` (R29). -/
inductive Phase where
  | idle
  | check
  | clear1
  | fwd
  | clear2
  | bwd
  | done
  deriving DecidableEq, Repr

/-- A sample buffer: the words it holds, by index, indices strictly rising.  An index that is not
listed holds an unspecified word (R52); no word stands for "unlisted", so every written word is listed. -/
abbrev Memory := List (Nat × Word)

/-- A waiting response (R67): `rsp_valid` is high exactly when one is there. -/
structure Response where
  status : Status
  data   : Word
  deriving DecidableEq, Repr

/-- What the host drives on the block's inputs at one rising edge of `clk` (R35). -/
structure PortIn where
  rst      : Bool
  cmdValid : Bool
  cmdWord  : BitVec 32
  cmdData  : BitVec 64
  rspReady : Bool
  deriving DecidableEq, Repr

/-- What a hardware reset that arrives before the response of the last accepted command is taken leaves
open (R217). -/
inductive Exposed where
  | nothing                               -- no such command, or one that touches no buffer
  | xword (i : Nat) (old : Option Word)   -- `WRBUF i`; `old` is what `XBUF[i]` held before it
  | ywords (n : Nat)                      -- `FFILT n`: `YBUF[0 .. n-1]`
  deriving DecidableEq, Repr

/-- The whole state.  `par` and `rom` are the instance's configuration and are never written. -/
structure State where
  par     : Params               -- PREC, MAXSEC, NMAX, PADK, NUMERICS (R8 to R11, R13)
  rom     : Image                -- ROM.PREC, ROM.NSEC and the coefficients (R21 to R23)
  file    : List (Delay Word)    -- the state file: `w1[k]`, `w2[k]` (R26)
  phase   : Phase                -- PHASE (R29)
  len     : Nat                  -- LEN (R30)
  idx     : Nat                  -- IDX (R30)
  xbuf    : Memory               -- XBUF (R32)
  ybuf    : Memory               -- YBUF (R33)
  tbuf    : List Word            -- TBUF, the hidden work buffer (R34)
  cmdWord : BitVec 32            -- the latched command word (R36)
  cmdData : Word                 -- the latched data word (R36)
  rsp     : Option Response      -- the response channel (R35, R67)
  exposed : Exposed              -- what the last accepted command left for a reset to open (R217)
  inputs  : List PortIn          -- the inputs at the coming clock edges, soonest first (R35)
  draws   : Nat                  -- the MODEL's own: how many free values have been drawn (log entry 4)
  deriving DecidableEq, Repr

/-- Reasons a run stops with a fault.  No meaning and no `step` raises one (every accepted command is
answered: R197, R231); they are raised by `stepStrict` (Sys2Proof/Safety.lean) alone, the step that
rejects a host program as R52 describes. -/
inductive Fault where
  /-- `RDBUF bank, i` reads a word never written since power-up (R52, U4).  Safe: `step` goes on with a
  free value there. -/
  | unwrittenRead (bank : Bank) (i : Nat)
  /-- `FFILT` reads `XBUF[i]`, never written since power-up (R52, R224).  Safe: `step` goes on with a
  free value there. -/
  | unwrittenInput (i : Nat)
  deriving DecidableEq, Repr

/-- Reasons something has no meaning. -/
inductive Refusal where
  /-- Raised by `exec` for an instruction without a meaning; every instruction here has one. -/
  | notModelled (mnemonic : String)
  /-- Raised by `instantiate`: the parameters are outside R9, R10.  Safe. -/
  | illFormedParameters
  /-- Raised by `instantiate`: the ROM image is not well-formed (R24, U1, R228).  Safe. -/
  | illFormedImage
  deriving DecidableEq, Repr

/-- The state right after the first hardware reset of an instance (R38, R215, R216).  The state file is
`+0.0`, `PHASE` is `IDLE`, no response waits and no buffer word has been written.  `LEN`, `IDX`, TBUF and
the latched command have no stated value: zero (log entry 9). -/
def State.afterReset (par : Params) (rom : Image) : State :=
  { par := par
    rom := rom
    file := List.replicate rom.sections.length { w1 := 0#64, w2 := 0#64 }
    phase := .idle
    len := 0
    idx := 0
    xbuf := []
    ybuf := []
    tbuf := []
    cmdWord := 0#32
    cmdData := 0#64
    rsp := none
    exposed := .nothing
    inputs := []
    draws := 0 }

/-- The machine right after reset, with the default parameters and image (log entry 3). -/
def State.reset : State := State.afterReset Config.defaultParams Config.defaultImage

end Sys2Proof.Machine
end

