-- ==== Sys2Proof/Machine/Ops.lean ====
section
/-! DEFINITION. The named operations over the buffers, the state file and the ports, which every meaning
is written with: reading and writing a buffer word, clearing the state file, answering, raising an error,
and the events of the ports (spec 00_scope R16, 10_state R35, R38, 60_exceptions R197, R203, R204,
70_reset_and_hazards R215 to R217). -/

namespace Sys2Proof.Machine

/-! ### Parameters read through the state -/

/-- The instance's `PREC`. -/
def State.prec (s : State) : Prec := s.par.prec

/-- `ROM.NSEC` (R22): how many sections the image holds. -/
def State.nsec (s : State) : Nat := s.rom.sections.length

/-! ### Buffers (R32, R33, R45, R50) -/

/-- The word a buffer holds at an index; `none` where the word is unspecified (R52). -/
def memRead : Memory → Nat → Option Word
  | [], _ => none
  | (j, v) :: r, i => if i = j then some v else memRead r i

/-- Store one whole word at an index (R50), keeping the indices strictly rising. -/
def memWrite : Memory → Nat → Word → Memory
  | [], i, v => [(i, v)]
  | (j, u) :: r, i, v =>
    if i < j then (i, v) :: (j, u) :: r
    else if i = j then (i, v) :: r
    else (j, u) :: memWrite r i v

/-- Store consecutive words from an index upwards. -/
def memWriteAll : Memory → Nat → List Word → Memory
  | m, _, [] => m
  | m, j, v :: vs => memWriteAll (memWrite m j v) (j + 1) vs

/-- Make the word at an index unspecified. -/
def memErase (m : Memory) (i : Nat) : Memory := m.filter (fun c => c.1 != i)

/-- Make every word below an index unspecified. -/
def memEraseBelow (m : Memory) (n : Nat) : Memory := m.filter (fun c => decide (n ≤ c.1))

/-- Put back what an index held. -/
def memRestore (m : Memory) (i : Nat) : Option Word → Memory
  | some v => memWrite m i v
  | none => memErase m i

/-- Indices rise strictly from `lo` on and stay below `hi`. -/
def risingFrom (lo hi : Nat) : Memory → Bool
  | [] => true
  | (i, _) :: r => decide (lo ≤ i) && decide (i < hi) && risingFrom (i + 1) hi r

/-- The canonical form of a buffer of `size` words. -/
def Memory.wf (size : Nat) (m : Memory) : Bool := risingFrom 0 size m

/-- The buffer of a bank (R66). -/
def State.buffer (s : State) : Bank → Memory
  | .x => s.xbuf
  | .y => s.ybuf

/-- `MemRead(XBUF+i, 1)` and `MemRead(YBUF+i, 1)` of R16.  An unspecified word reads as a free value, a
new one at every read (R52, U4; log entry 6). -/
def readWord (b : Bank) (i : Nat) (s : State) : Word × State :=
  match memRead (s.buffer b) i with
  | some v => (v, s)
  | none => (clip s.prec (Config.freeWord s.draws), { s with draws := s.draws + 1 })

/-! ### The state file (R26, R27) -/

/-- `w1[k]`. -/
def State.w1 (s : State) (k : Nat) : Word := (s.file.getD k { w1 := 0#64, w2 := 0#64 }).w1

/-- `w2[k]`. -/
def State.w2 (s : State) (k : Nat) : Word := (s.file.getD k { w1 := 0#64, w2 := 0#64 }).w2

/-- A cleared state file: `+0.0`, all bits zero, in every register (R120, D4). -/
def zeroFile (n : Nat) : List (Delay Word) := List.replicate n { w1 := 0#64, w2 := 0#64 }

/-- `clear_state()` of R16 and R120. -/
def clearState (s : State) : State := { s with file := zeroFile s.nsec }

/-! ### Ending a command (R16, R67, R197, R203) -/

/-- `respond(data)`: the command ends with status `OK`. -/
def respond (data : Word) (s : State) : State :=
  { s with rsp := some { status := .ok, data := data }, phase := .idle }

/-- `raise <Status>`: the block's one kind of exception entry.  The status travels in the response with
`rsp_data = 0`; nothing is saved, masked or latched, no mode changes, and `PHASE` is `IDLE` (R197, R203).
There is no return from it: the next command is accepted as after a success (R204). -/
def raise (status : Status) (s : State) : State :=
  { s with rsp := some { status := status, data := 0#64 }, phase := .idle }

/-! ### The ports (R35) -/

/-- Inputs at a clock edge at which the host does nothing. -/
def quiet : PortIn :=
  { rst := false, cmdValid := false, cmdWord := 0#32, cmdData := 0#64, rspReady := false }

/-- The inputs sampled at the coming edge. -/
def nextInput (s : State) : PortIn := s.inputs.headD quiet

/-- The edge has passed. -/
def consumeInput (s : State) : State := { s with inputs := s.inputs.tail }

/-- `cmd_ready` (R35): high exactly when `PHASE = IDLE` and no response is waiting. -/
def cmdReady (s : State) : Bool := decide (s.phase = .idle) && s.rsp.isNone

/-- Accept the command on the port: latch its word and its data word (R35, R36). -/
def accept (pin : PortIn) (s : State) : State :=
  { s with cmdWord := pin.cmdWord, cmdData := clip s.prec pin.cmdData, exposed := .nothing }

/-- The command in the latch (R74). -/
def fetch (s : State) : Except IllegalWord Instr := decode s.cmdWord

/-- The host takes the waiting response (`rsp_valid` and `rsp_ready` both high). -/
def takeResponse (s : State) : State := { s with rsp := none, exposed := .nothing }

/-- What the block drives (R35): `cmd_ready`, and `rsp_status` and `rsp_data` while `rsp_valid` is high. -/
structure PortOut where
  cmdReady : Bool
  rsp      : Option (BitVec 4 × Word)
  deriving DecidableEq, Repr

/-- The outputs in a state. -/
def portOut (s : State) : PortOut :=
  { cmdReady := cmdReady s, rsp := s.rsp.map (fun r => (statusCode r.status, r.data)) }

/-! ### Hardware reset (R38, R215 to R217) -/

/-- What a reset leaves open now (R217; log entry 11).  While `PHASE` is not `IDLE` the outstanding
command is an `FFILT` of `LEN` samples, whatever else the state holds. -/
def openNow (s : State) : Exposed := if s.phase = .idle then s.exposed else .ywords s.len

/-- What is left of the buffers when the outstanding command is abandoned (R217): `XBUF[i]` of a `WRBUF`
holds its old or its new word, `YBUF[0 .. n-1]` of an `FFILT` hold unspecified words. -/
def abandon (s : State) : State :=
  match openNow s with
  | .nothing => s
  | .xword i old => if Config.freeBit s.draws then s else { s with xbuf := memRestore s.xbuf i old }
  | .ywords n => { s with ybuf := memEraseBelow s.ybuf n }

/-- `rst` sampled high: the "after hardware reset" column of R38.  The buffers and the ROM keep their
words, but for what R217 leaves open. -/
def hardwareReset (s : State) : State :=
  { abandon s with
    file := zeroFile s.nsec
    phase := .idle
    len := (Config.freeCounter (s.draws + 1)).toNat
    idx := (Config.freeCounter (s.draws + 2)).toNat
    tbuf := (Config.freeWords (s.draws + 3)).map (clip s.prec)
    rsp := none
    exposed := .nothing
    draws := s.draws + 4 }

end Sys2Proof.Machine
end

