-- ==== Sys2Proof/Machine/Operands.lean ====
section
/-! DEFINITION. Operands: the padding length and the reflected address of `FFILT` (spec 42_filtfilt R147,
R148, R157) and the words of the FLT space (20_memory R46, 43_access R182 to R184).  The integer fields
of the command word are assembled by the decoder (R69). -/

namespace Sys2Proof.Machine

/-- `P = PADK * NSEC` (R147). -/
def padLen (s : State) : Nat := s.par.padk * s.nsec

/-- `L = N + 2P`, the length of the extended sequence (R148). -/
def extLen (s : State) (n : Nat) : Nat := n + 2 * padLen s

/-- The XBUF index of extended position `i` for buffer length `n` and padding `p` (R157).  For `n >= p + 1`
and `i < n + 2p` no subtraction goes below zero. -/
def xaddr (n p i : Nat) : Nat :=
  if i < p then p - i
  else if i < p + n then i - p
  else 2 * n - 2 + p - i

/-- The real operand of `PROC` and `WRBUF`: the latched data word, bit for bit (R68). -/
def realOperand (s : State) : Word := s.cmdData

/-- The number of the precision tag (R21). -/
def precTag : Prec → Nat
  | .single => 0
  | .double => 1

/-- An unsigned integer as a word of the port, zero-extended (R184). -/
def intWord (s : State) (n : Nat) : Word := clip s.prec (BitVec.ofNat 64 n)

/-- The word of section `k` at field `f` of its eight (R46); `none` for the reserved one. -/
def sectionWord (s : State) (k : Nat) (c : Coeffs Word) (f : Nat) : Option Word :=
  match f with
  | 0 => some c.b0
  | 1 => some c.b1
  | 2 => some c.b2
  | 3 => some c.a1
  | 4 => some c.a2
  | 5 => some (s.w1 k)
  | 6 => some (s.w2 k)
  | _ => none

/-- The word of the FLT space at an address (R46, R182); `none` where the address is not valid (R183). -/
def fltWord (s : State) (a : Nat) : Option Word :=
  if a = 0 then some (intWord s (precTag s.rom.prec))
  else if a = 1 then some (intWord s s.nsec)
  else if a < 8 then none
  else match s.rom.sections[a / 8 - 1]? with
    | none => none
    | some c => sectionWord s (a / 8 - 1) c (a % 8)

end Sys2Proof.Machine
end

