-- ==== Sys2Proof/Machine/Access.lean ====
section
/-! DEFINITION. The access commands `WRBUF`, `RDBUF` and `RDFLT` (spec 43_access R175 to R185). -/

namespace Sys2Proof.Machine

/-- `WRBUF i, v` (R175, R176). -/
def execWrbuf (i : Nat) (s : State) : Host.Outcome State Fault Refusal :=
  if s.par.nmax ≤ i then .next (raise .badAddress s)
  else .next (respond 0#64
    { s with xbuf := memWrite s.xbuf i (realOperand s), exposed := .xword i (memRead s.xbuf i) })

/-- `RDBUF bank, i` (R179, R180). -/
def execRdbuf (bank : Bank) (i : Nat) (s : State) : Host.Outcome State Fault Refusal :=
  if s.par.nmax ≤ i then .next (raise .badAddress s)
  else
    let r := readWord bank i s
    .next (respond r.1 r.2)

/-- `RDFLT a` (R182, R183). -/
def execRdflt (a : Nat) (s : State) : Host.Outcome State Fault Refusal :=
  match fltWord s a with
  | some v => .next (respond v s)
  | none => .next (raise .badAddress s)

end Sys2Proof.Machine
end

