-- ==== Sys2Proof/Machine/Cascade.lean ====
section
/-! DEFINITION. The biquad cascade and the commands `RST` and `PROC` (spec 41_cascade R120 to R128). -/

namespace Sys2Proof.Machine

/-- Three operations on some kind of number, each told which operation of the computation it is.  The
block's own are the rounded ones of `NUMERICS`; the exact ones of R123 are another case. -/
structure Arith (α : Type) where
  mul : Nat → α → α → α
  add : Nat → α → α → α
  sub : Nat → α → α → α

/-- One section, one sample: the nine operations of R122 in its order, numbered from `d`.  The new `w1`
is made from the old `w2`. -/
def biquad {α : Type} (ar : Arith α) (d : Nat) (c : Coeffs α) (w : Delay α) (v : α) : α × Delay α :=
  let t0 := ar.mul d c.b0 v
  let y := ar.add (d + 1) t0 w.w1
  let t1 := ar.mul (d + 2) c.b1 v
  let t2 := ar.mul (d + 3) c.a1 y
  let t3 := ar.sub (d + 4) t1 t2
  let n1 := ar.add (d + 5) t3 w.w2
  let t4 := ar.mul (d + 6) c.b2 v
  let t5 := ar.mul (d + 7) c.a2 y
  let n2 := ar.sub (d + 8) t4 t5
  (y, { w1 := n1, w2 := n2 })

/-- One sample through the sections in ascending order, each output the next input (R122). -/
def cascade {α : Type} (ar : Arith α) : List (Coeffs α) → List (Delay α) → Nat → α → α × List (Delay α)
  | c :: cs, w :: ws, d, v =>
    let r := biquad ar d c w v
    let rest := cascade ar cs ws (d + 9) r.1
    (rest.1, r.2 :: rest.2)
  | _, ws, _, v => (v, ws)

/-- The operations of the instance's `NUMERICS` in its `PREC` (R13, R124). -/
def machineArith (par : Params) : Arith Word :=
  let num := numericsOf par.datapath
  { mul := num.fmul par.prec, add := num.fadd par.prec, sub := num.fsub par.prec }

/-- `cascade_step(x)` of R122: the output real and the state with the state file updated.  The draws a
step may take are the same in number for every sample and every state (R128). -/
def cascadeStep (v : Word) (s : State) : Word × State :=
  let r := cascade (machineArith s.par) s.rom.sections s.file s.draws v
  (r.1, { s with file := r.2, draws := s.draws + 9 * s.nsec })

/-- `RST` (R120).  DESIGN CHOICE: `TBUF`, which R38 calls unspecified after it, keeps its words (log
entry 32). -/
def execRst (s : State) : Host.Outcome State Fault Refusal :=
  .next (respond 0#64 (clearState s))

/-- `PROC x` (R121). -/
def execProc (s : State) : Host.Outcome State Fault Refusal :=
  let r := cascadeStep (realOperand s) s
  .next (respond r.1 r.2)

end Sys2Proof.Machine
end

