-- ==== Sys2Proof/Machine/Filtfilt.lean ====
section
/-! DEFINITION. The zero-phase controller and the command `FFILT` (spec 42_filtfilt R145 to R157).

`execFfilt` is the walk of `PHASE` that R156 tabulates, run from `CHECK` to `IDLE` as one step of the
machine (R155: one atomic step from the host's side).  `filtfilt` is the function of R145 that the walk
computes. -/

namespace Sys2Proof.Machine

/-- One row of the table of R156: what the controller does in a phase, and the phase after. -/
def tick (s : State) : State :=
  match s.phase with
  | .idle => s
  | .check =>
    if s.par.nmax < s.len then raise .lengthExceedsCapacity s
    else if s.len ≤ padLen s then raise .insufficientSamples s
    else { s with phase := .clear1 }
  | .clear1 => { clearState s with idx := 0, tbuf := [], phase := .fwd }
  | .fwd =>
    -- f[IDX] <- cascade_step(e[IDX]); IDX rises from 0, so TBUF grows at its end
    let x := readWord .x (xaddr s.len (padLen s) s.idx) s
    let y := cascadeStep x.1 x.2
    if s.idx + 1 < extLen s s.len
    then { y.2 with tbuf := s.tbuf ++ [y.1], idx := s.idx + 1 }
    else { y.2 with tbuf := s.tbuf ++ [y.1], phase := .clear2 }
  | .clear2 => { clearState s with idx := extLen s s.len - 1, phase := .bwd }
  | .bwd =>
    -- g[IDX] <- cascade_step(f[IDX]), at the index of its input (R150)
    let y := cascadeStep (s.tbuf.getD s.idx 0#64) s
    if 0 < s.idx
    then { y.2 with tbuf := s.tbuf.set s.idx y.1, idx := s.idx - 1 }
    else { y.2 with tbuf := s.tbuf.set s.idx y.1, phase := .done }
  | .done =>
    respond 0#64
      { s with ybuf := memWriteAll s.ybuf 0 ((s.tbuf.drop (padLen s)).take s.len) }

/-- Rows of the table until `PHASE` is `IDLE`, at most `fuel` of them. -/
def walk : Nat → State → State
  | 0, s => s
  | fuel + 1, s => if s.phase = .idle then s else walk fuel (tick s)

/-- The rows a whole `FFILT` takes: `CHECK`, `CLEAR1`, `L` times `FWD`, `CLEAR2`, `L` times `BWD`,
`DONE` (R156). -/
def walkLength (s : State) (n : Nat) : Nat := 2 * extLen s n + 4

/-- `IDLE` with an `FFILT` accepted: `LEN <- N`, to `CHECK` (R156).  From here on a hardware reset leaves
`YBUF[0 .. N-1]` unspecified (R217).  DESIGN CHOICE: `LEN` keeps `N` also when the check then fails,
although R16's `raise` discards what the command has changed (log entry 34). -/
def startFfilt (n : Nat) (s : State) : State :=
  { s with len := n, phase := .check, exposed := .ywords n }

/-- `FFILT N` (R145, R156). -/
def execFfilt (n : Nat) (s : State) : Host.Outcome State Fault Refusal :=
  .next (walk (walkLength s n) (startFfilt n s))

/-! ### The function of R145 -/

/-- The forward pass over the XBUF indices given: each word through the cascade in turn (R149). -/
def forwardPass : List Nat → State → List Word × State
  | [], s => ([], s)
  | a :: as, s =>
    let x := readWord .x a s
    let y := cascadeStep x.1 x.2
    let rest := forwardPass as y.2
    (y.1 :: rest.1, rest.2)

/-- The words given through the cascade in turn (R150 runs it over the time-reversed sequence). -/
def cascadeAll : List Word → State → List Word × State
  | [], s => ([], s)
  | v :: vs, s =>
    let y := cascadeStep v s
    let rest := cascadeAll vs y.2
    (y.1 :: rest.1, rest.2)

/-- The XBUF indices of the extended sequence `e[0 .. L-1]` (R148). -/
def extension (s : State) (n : Nat) : List Nat :=
  (List.range (extLen s n)).map (xaddr n (padLen s))

/-- The pseudocode of R145 for a length that passes the checks: clear, forward over the extension,
clear, backward over the reversed result, reverse again, drop the extension, write YBUF, answer. -/
def filtfilt (n : Nat) (s : State) : State :=
  let f := forwardPass (extension s n) (clearState s)
  let g := cascadeAll f.1.reverse (clearState f.2)
  respond 0#64
    { g.2 with
      ybuf := memWriteAll s.ybuf 0 ((g.1.reverse.drop (padLen s)).take n)
      len := n
      idx := 0
      tbuf := g.1.reverse
      exposed := .ywords n }

end Sys2Proof.Machine
end

