-- ==== Sys2Proof/Machine/Dispatch.lean ====
section
/-! DEFINITION. One arm per command: its meaning. -/

namespace Sys2Proof.Machine

def exec (i : Instr) (s : State) : Host.Outcome State Fault Refusal :=
  match i with
  | .rst => Sys2Proof.Machine.execRst s
  | .proc => Sys2Proof.Machine.execProc s
  | .ffilt n => Sys2Proof.Machine.execFfilt n s
  | .wrbuf k => Sys2Proof.Machine.execWrbuf k s
  | .rdbuf bank k => Sys2Proof.Machine.execRdbuf bank k s
  | .rdflt a => Sys2Proof.Machine.execRdflt a s

end Sys2Proof.Machine
end

