-- ==== Sys2Proof/Machine/Step.lean ====
section
/-! DEFINITION. One step of the machine: one rising edge of `clk` (spec 10_state R35, R36,
70_reset_and_hazards R215). -/

namespace Sys2Proof.Machine

/-- One clock edge.  `rst` wins over everything (R215).  DESIGN CHOICE: also over a handshake at the same
edge, where R35 taken alone would have a presented command accepted and a waiting response taken; with
`rst` high the command counts as never accepted and the response as not taken (log entry 31).

While `PHASE` is not `IDLE` the controller does one row of R156.  A waiting response is held until the
host takes it, and no command is accepted meanwhile (R35).  Otherwise a presented command is accepted and
executed, and an illegal word is answered `IllegalCommand` (R72).  How many cycles a command takes is not
modelled (R231; log entry 13): the response waits right after the edge of acceptance. -/
def step (s : State) : Host.Outcome State Fault Refusal :=
  let pin := nextInput s
  let t := consumeInput s
  if pin.rst then .next (hardwareReset t)
  else if t.phase ≠ .idle then .next (tick t)
  else if t.rsp.isSome then .next (if pin.rspReady then takeResponse t else t)
  else if pin.cmdValid then
    match fetch (accept pin t) with
    | .ok i => exec i (accept pin t)
    | .error _ => .next (raise .illegalCommand (accept pin t))
  else .next t

/-- The state with a command on the port at the coming edge: `cmd_valid` high with the word `w`, `rst`
low, the data lines as they were, the controller idle and no response waiting, so that the next step
accepts exactly this command. -/
def State.withFetchWord (s : State) (nbits w : Nat) : State :=
  { s with
    phase := .idle
    rsp := none
    inputs :=
      { nextInput s with
        rst := false, cmdValid := true, cmdWord := BitVec.ofNat 32 (w % 2 ^ nbits) }
        :: s.inputs.tail }

end Sys2Proof.Machine
end

