-- ==== Sys2Proof/Machine/Host.lean ====
section
/-! DEFINITION. The host's side: the assembler lines and pseudo-commands of spec 30_encoding R75, R76,
and the port traffic of one synchronous call (10_state R35). -/

namespace Sys2Proof.Machine

/-- What an assembler line puts on the command port. -/
structure Command where
  word : BitVec 32
  data : Word
  deriving DecidableEq, Repr

/-- A real literal of R75: a word, an infinity, a NaN, or the number `num / 2^den`.  R75 admits a number
only where `PREC` represents it exactly; for others see `litWord`. -/
inductive RealLit where
  | word (w : Word)
  | posInf
  | negInf
  | nan
  | dyadic (neg : Bool) (num den : Nat)
  deriving DecidableEq, Repr

/-- The word of a literal.  Which NaN `nan` writes is the host's choice; the one taken here has only the
quiet bit of its fraction set (log entry 25).  DESIGN CHOICE: a literal that R75 does not admit has a word
all the same: a number not exactly representable in `PREC` the nearest one, ties to even, or an infinity
past the largest real, and a hexadecimal word of more than `W/4` digits its low `W` bits (log entry 35). -/
def litWord (p : Prec) : RealLit → Word
  | .word w => clip p w
  | .posInf => infWord p false
  | .negInf => infWord p true
  | .nan => pack p false (infBits p + 2 ^ (fracBits p - 1))
  | .dyadic neg num den => roundUnits p neg (num * 2 ^ unitBits p) den

/-- The address operand of `RDFLT`: a number or a symbolic address (R75). -/
inductive FltAddr where
  | num (a : Nat)
  | prec
  | nsec
  | b0 (k : Nat)
  | b1 (k : Nat)
  | b2 (k : Nat)
  | a1 (k : Nat)
  | a2 (k : Nat)
  | w1 (k : Nat)
  | w2 (k : Nat)
  deriving DecidableEq, Repr

/-- The number of an address (R46, R75). -/
def fltNumber : FltAddr → Nat
  | .num a => a
  | .prec => 0
  | .nsec => 1
  | .b0 k => 8 * (k + 1)
  | .b1 k => 8 * (k + 1) + 1
  | .b2 k => 8 * (k + 1) + 2
  | .a1 k => 8 * (k + 1) + 3
  | .a2 k => 8 * (k + 1) + 4
  | .w1 k => 8 * (k + 1) + 5
  | .w2 k => 8 * (k + 1) + 6

/-- One assembler line (R75) or pseudo-command (R76).  DESIGN CHOICE: a `.word` line, of which R75 gives
only the command word, carries the data word the host puts beside it (log entry 29). -/
inductive AsmLine where
  | rst
  | proc (x : RealLit)
  | ffilt (n : Nat)
  | wrbuf (i : Nat) (x : RealLit)
  | rdbuf (bank : Bank) (i : Nat)
  | rdflt (a : FltAddr)
  | rawWord (w : BitVec 32) (d : Word)
  | ldbuf (xs : List RealLit)
  | dump (bank : Bank) (n : Nat)
  | impulse (n : Nat)
  | rdstate (k : Nat)
  | rdcoef (k : Nat)
  | filtfilt (xs : List RealLit)
  deriving DecidableEq, Repr

/-- A command that takes no real operand.  DESIGN CHOICE: its data word, which R65 lets be any value and
for which R75 gives none, is 0 (log entry 29). -/
def plain (i : Instr) : Command := { word := encode i, data := 0#64 }

/-- `WRBUF` of consecutive samples from an index on (`LDBUF`, R76). -/
def loadCommands (p : Prec) : Nat → List RealLit → List Command
  | _, [] => []
  | i, x :: xs => { word := encode (.wrbuf i), data := litWord p x } :: loadCommands p (i + 1) xs

/-- `RDBUF` of the first `n` words of a bank (`DUMP`, R76). -/
def dumpCommands (bank : Bank) (n : Nat) : List Command :=
  (List.range n).map (fun i => plain (.rdbuf bank i))

/-- `PROC` of a literal (R75). -/
def procCommand (p : Prec) (x : RealLit) : Command := { word := encode .proc, data := litWord p x }

/-- `RDFLT` of an address (R75). -/
def readCommand (a : FltAddr) : Command := plain (.rdflt (fltNumber a))

/-- The commands a line stands for (R75, R76).  DESIGN CHOICE: `IMPULSE 0`, of which the expansion of R76
says nothing, is the one `PROC 1.0` of `IMPULSE 1` (log entry 30); and an operand that does not fit its
field, for which R75 writes `base | operand` without a bound, is added to the base all the same, so that it
carries into the bits above the field (log entry 33). -/
def assemble (p : Prec) : AsmLine → List Command
  | .rst => [plain .rst]
  | .proc x => [procCommand p x]
  | .ffilt n => [plain (.ffilt n)]
  | .wrbuf i x => [{ word := encode (.wrbuf i), data := litWord p x }]
  | .rdbuf bank i => [plain (.rdbuf bank i)]
  | .rdflt a => [readCommand a]
  | .rawWord w d => [{ word := w, data := clip p d }]
  | .ldbuf xs => loadCommands p 0 xs
  | .dump bank n => dumpCommands bank n
  | .impulse n =>
    procCommand p (.dyadic false 1 0) :: List.replicate (n - 1) (procCommand p (.dyadic false 0 0))
  | .rdstate k => [readCommand (.w1 k), readCommand (.w2 k)]
  | .rdcoef k => [readCommand (.b0 k), readCommand (.b1 k), readCommand (.b2 k), readCommand (.a1 k),
      readCommand (.a2 k)]
  | .filtfilt xs => loadCommands p 0 xs ++ plain (.ffilt xs.length) :: dumpCommands .y xs.length

/-- The port traffic of one synchronous call: an edge that presents the command and an edge that takes
its response (R35). -/
def callTraffic (c : Command) : List PortIn :=
  [{ quiet with cmdValid := true, cmdWord := c.word, cmdData := c.data },
   { quiet with rspReady := true }]

/-- The state with the traffic of a program of lines ahead of it. -/
def State.withProgram (s : State) (lines : List AsmLine) : State :=
  { s with inputs := (lines.flatMap (assemble s.prec)).flatMap callTraffic ++ s.inputs }

end Sys2Proof.Machine
end

