-- ==== Sys2Proof/Machine/Rom.lean ====
section
/-! DEFINITION. Which parameters and ROM images an instance may have (spec 00_scope R9 to R12, 10_state
R24), and instantiating the block (10_state R25, 70_reset_and_hazards R219, R228). -/

namespace Sys2Proof.Machine

/-- The ranges of R9 and R10: `1 <= MAXSEC` and `PADK * MAXSEC + 1 <= NMAX <= 2^23`. -/
def paramsOk (par : Params) : Bool :=
  decide (1 ≤ par.maxsec) && decide (par.padk * par.maxsec + 1 ≤ par.nmax)
    && decide (par.nmax ≤ 2 ^ 23)

/-- The units of a finite word with its sign. -/
def signedUnits (p : Prec) (w : Word) : Int :=
  if isNeg p w then -(unitsOf p (magBits p w) : Int) else (unitsOf p (magBits p w) : Int)

/-- Both roots of `z^2 + a1*z + a2` lie strictly inside the unit circle: `|a2| < 1` and
`|a1| < 1 + a2`, compared exactly in units (R24 (d)). -/
def polesInside (p : Prec) (a1 a2 : Word) : Bool :=
  decide (unitsOf p (magBits p a2) < 2 ^ unitBits p)
    && decide ((unitsOf p (magBits p a1) : Int) < 2 ^ unitBits p + signedUnits p a2)

/-- A coefficient is a finite real of the instance's format (R24 (c)). -/
def coefficientOk (p : Prec) (w : Word) : Bool := isFinite p w && fits p w

/-- One section of a well-formed image (R24 (c), (d)). -/
def sectionOk (p : Prec) (c : Coeffs Word) : Bool :=
  coefficientOk p c.b0 && coefficientOk p c.b1 && coefficientOk p c.b2 && coefficientOk p c.a1
    && coefficientOk p c.a2 && polesInside p c.a1 c.a2

/-- A well-formed image (R24 (a) to (d)). -/
def imageOk (par : Params) (img : Image) : Bool :=
  decide (img.prec = par.prec) && decide (1 ≤ img.sections.length)
    && decide (img.sections.length ≤ par.maxsec) && img.sections.all (sectionOk par.prec)

/-- Build an instance and reset it once (R219).  Parameters out of range and an ill-formed image are
refused here, before the machine exists; no step looks at the image again (R24, R228, U1). -/
def instantiate (par : Params) (img : Image) : Except Refusal State :=
  if paramsOk par = false then .error .illFormedParameters
  else if imageOk par img = false then .error .illFormedImage
  else .ok (State.afterReset par img)

end Sys2Proof.Machine
end

