-- ==== Sys2Proof/Machine/Design.lean ====
section
/-! DEFINITION. The four design operations that fill the ROM at elaboration time (spec 40_rom_design R85
to R113): validation, and one conforming computation of the coefficients.

The coefficients are defined by formulas over the reals up to a tolerance (R104, R105), not bit for bit.
`design` computes them in fixed-point arithmetic with far more digits than binary64 and rounds each one
once (R104: "or anything more accurate"), and keeps every section stable (R113) within the tolerance
(R105); Machine/DesignExact.lean holds the formulas and the tolerance.
The common factor `2*Fs` of every analog quantity is divided out: the bilinear map
`(2*Fs + s) / (2*Fs - s)` is `(1 + S) / (1 - S)` for `S = s / (2*Fs)` (log entry 14). -/

namespace Sys2Proof.Machine

/-- The FilterSpec (R86); frequencies and `Q` are binary64 words. -/
inductive FilterSpec where
  | lowpass (ord : Int) (fc fs : Word)
  | highpass (ord : Int) (fc fs : Word)
  | bandpass (ord : Int) (flow fhigh fs : Word)
  | notch (f0 q fs : Word)
  deriving DecidableEq, Repr

/-! ### Validation (R87, R88, R110) -/

/-- A finite real greater than zero. -/
def positive (w : Word) : Bool :=
  isFinite .double w && !isNeg .double w && decide (magBits .double w ≠ 0)

/-- The units of a binary64 word. -/
def dUnits (w : Word) : Nat := unitsOf .double (magBits .double w)

/-- `f < Fs/2`, exactly. -/
def belowNyquist (f fs : Word) : Bool := decide (2 * dUnits f < dUnits fs)

/-- Checks 1 and 2 of R87 and R88: `0 < ORD <= MAXORD = 2 * MAXSEC`. -/
def orderOk (maxsec : Nat) (ord : Int) : Bool :=
  decide (0 < ord) && decide (ord ≤ 2 * (maxsec : Int))

/-- The checks of R87 in order; `none` when all pass. -/
def checkSingle (maxsec : Nat) (ord : Int) (fc fs : Word) : Option Status :=
  if orderOk maxsec ord = false then some .invalidOrder
  else if positive fs = false then some .invalidFrequency
  else if (positive fc && belowNyquist fc fs) = false then some .invalidFrequency
  else none

/-- The checks of R88 in order; `none` when all pass. -/
def checkBand (maxsec : Nat) (ord : Int) (flow fhigh fs : Word) : Option Status :=
  if orderOk maxsec ord = false then some .invalidOrder
  else if positive fs = false then some .invalidFrequency
  else if (positive flow && positive fhigh && belowNyquist fhigh fs
      && decide (dUnits flow < dUnits fhigh)) = false then some .invalidFrequency
  else if (maxsec : Int) < ord then some .tooManySections
  else none

/-! ### Fixed-point arithmetic: the number `x` stands for `x / 2^F` -/

/-- Product. -/
def fxMul (F : Nat) (a b : Int) : Int := a * b / 2 ^ F

/-- Quotient. -/
def fxDiv (F : Nat) (a b : Int) : Int := a * 2 ^ F / b

/-- Newton's iteration for the integer square root, from above, until it stops falling. -/
def isqrtFrom : Nat → Nat → Nat → Nat
  | 0, _, x => x
  | fuel + 1, n, x =>
    let y := (x + n / x) / 2
    if y < x then isqrtFrom fuel n y else x

/-- The integer square root. -/
def isqrt (n : Nat) : Nat := isqrtFrom (Nat.log2 n + 8) n (2 ^ (Nat.log2 n / 2 + 1))

/-- Square root of a non-negative number. -/
def fxSqrt (F : Nat) (a : Int) : Int := (isqrt (a.toNat * 2 ^ F) : Int)

/-- The terms `pow / (2k+1)` of the arctangent of `1/n` with alternating signs; `pow` is `1/n^(2k+1)`. -/
def arctanTerms (n : Int) : Nat → Int → Int → Int
  | 0, _, _ => 0
  | fuel + 1, pow, odd => pow / odd - arctanTerms n fuel (pow / (n * n)) (odd + 2)

/-- `pi`, as `16 atan(1/5) - 4 atan(1/239)`. -/
def fxPi (F : Nat) : Int :=
  16 * arctanTerms 5 (F / 4 + 8) (2 ^ F / 5) 1 - 4 * arctanTerms 239 (F / 4 + 8) (2 ^ F / 239) 1

/-- The terms of the power series of sine or cosine: the next one is `-x^2 / (m(m+1))` times this one. -/
def trigTerms (F : Nat) (xx : Int) : Nat → Int → Int → Int
  | 0, _, _ => 0
  | fuel + 1, term, m => term + trigTerms F xx fuel (-(fxMul F term xx / (m * (m + 1)))) (m + 2)

/-- Sine. -/
def fxSin (F : Nat) (x : Int) : Int := trigTerms F (fxMul F x x) (F / 4 + 32) x 2

/-- Cosine. -/
def fxCos (F : Nat) (x : Int) : Int := trigTerms F (fxMul F x x) (F / 4 + 32) (2 ^ F) 1

/-- A complex number of fixed-point parts. -/
structure Cx where
  re : Int
  im : Int
  deriving DecidableEq, Repr

/-- Sum. -/
def cxAdd (a b : Cx) : Cx := { re := a.re + b.re, im := a.im + b.im }

/-- Difference. -/
def cxSub (a b : Cx) : Cx := { re := a.re - b.re, im := a.im - b.im }

/-- Product. -/
def cxMul (F : Nat) (a b : Cx) : Cx :=
  { re := fxMul F a.re b.re - fxMul F a.im b.im, im := fxMul F a.re b.im + fxMul F a.im b.re }

/-- The squared magnitude. -/
def cxNormSq (F : Nat) (a : Cx) : Int := fxMul F a.re a.re + fxMul F a.im a.im

/-- Quotient. -/
def cxDiv (F : Nat) (a b : Cx) : Cx :=
  let q := cxMul F a { re := b.re, im := -b.im }
  { re := fxDiv F q.re (cxNormSq F b), im := fxDiv F q.im (cxNormSq F b) }

/-- The real number `x`. -/
def cxReal (x : Int) : Cx := { re := x, im := 0 }

/-- The principal square root: real part not negative, imaginary part not negative when the real part is
zero (R94). -/
def cxSqrt (F : Nat) (a : Cx) : Cx :=
  let m := fxSqrt F (cxNormSq F a)
  let r := fxSqrt F ((m + a.re) / 2)
  let i := fxSqrt F ((m - a.re) / 2)
  { re := r, im := if a.im < 0 then -i else i }

/-! ### The steps of the Butterworth path (R90 to R103) -/

/-- Enough fraction bits for numbers that span `a` bits. -/
def workBits (a : Nat) : Nat := 512 + 16 * a

/-- How many bits `f` lies below `fs`. -/
def bitsBelow (f fs : Nat) : Nat := Nat.log2 fs - Nat.log2 f + 1

/-- `tan(pi * f / Fs)`, which is the pre-warped `Omega` over `2*Fs` (R91). -/
def warped (F : Nat) (f fs : Word) : Int :=
  let x := fxPi F * (dUnits f : Int) / (dUnits fs : Int)
  fxDiv F (fxSin F x) (fxCos F x)

/-- Prototype pole `p_k` (R90). -/
def prototypePole (F ord k : Nat) : Cx :=
  let theta := fxPi F * (2 * (k : Int) - 1) / (2 * (ord : Int))
  { re := -fxSin F theta, im := fxCos F theta }

/-- The bilinear transform of `S = s / (2*Fs)` (R95). -/
def bilinear (F : Nat) (s : Cx) : Cx := cxDiv F (cxAdd (cxReal (2 ^ F)) s) (cxSub (cxReal (2 ^ F)) s)

/-- A computed coefficient before its rounding: zero by construction (R104), or the number `num / 2^frac`,
of which a `num` of 0 stands for a coefficient that is 0 by cancellation (R105). -/
inductive Fx where
  | zero
  | dyadic (num : Int) (frac : Nat)
  deriving DecidableEq, Repr

/-- The number a computed coefficient is. -/
def fxValue : Fx → ℚ
  | .zero => 0
  | .dyadic num frac => num / 2 ^ frac

/-- A coefficient rounded once, to nearest even, to the instance's `PREC`; one that is zero by
construction is `+0.0` exactly (R104). -/
def storeFx (p : Prec) : Fx → Word
  | .zero => 0#64
  | .dyadic num frac => roundUnits p (decide (num < 0)) (num.natAbs * 2 ^ unitBits p) frac

/-- The low-pass section of a digital pole and its conjugate (R96, R97, R101). -/
def lowpassPair (F : Nat) (z : Cx) : Coeffs Fx :=
  let a1 := -2 * z.re
  let a2 := cxNormSq F z
  let g4 := 2 ^ F + a1 + a2
  { b0 := .dyadic g4 (F + 2), b1 := .dyadic (2 * g4) (F + 2), b2 := .dyadic g4 (F + 2),
    a1 := .dyadic a1 F, a2 := .dyadic a2 F }

/-- The high-pass section of a digital pole and its conjugate (R96, R97, R102). -/
def highpassPair (F : Nat) (z : Cx) : Coeffs Fx :=
  let a1 := -2 * z.re
  let a2 := cxNormSq F z
  let g4 := 2 ^ F - a1 + a2
  { b0 := .dyadic g4 (F + 2), b1 := .dyadic (-2 * g4) (F + 2), b2 := .dyadic g4 (F + 2),
    a1 := .dyadic a1 F, a2 := .dyadic a2 F }

/-- The real pole `(2*Fs - Omega) / (2*Fs + Omega)` of an odd order (R98). -/
def realPole (F : Nat) (t : Int) : Int := fxDiv F (2 ^ F - t) (2 ^ F + t)

/-- The first-order low-pass section; `b2` and `a2` are zero by construction (R98, R101). -/
def lowpassFirst (F : Nat) (zr : Int) : Coeffs Fx :=
  let g2 := 2 ^ F - zr
  { b0 := .dyadic g2 (F + 1), b1 := .dyadic g2 (F + 1), b2 := .zero,
    a1 := .dyadic (-zr) F, a2 := .zero }

/-- The first-order high-pass section; `b2` and `a2` are zero by construction (R98, R102). -/
def highpassFirst (F : Nat) (zr : Int) : Coeffs Fx :=
  let g2 := 2 ^ F + zr
  { b0 := .dyadic g2 (F + 1), b1 := .dyadic (-g2) (F + 1), b2 := .zero,
    a1 := .dyadic (-zr) F, a2 := .zero }

/-- The numbers a band-pass design needs beside its poles: the analog bandwidth and squared centre over
`2*Fs` and its square, and `zc` and `sin omega0` (R91, R103).  `cos` and `sin` of `2*atan(r)` are
`(1 - r^2) / (1 + r^2)` and `2r / (1 + r^2)`. -/
structure Band where
  width  : Int
  centre : Int
  zc     : Cx
  deriving DecidableEq, Repr

/-- The band of two warped edges. -/
def bandOf (F : Nat) (tl th : Int) : Band :=
  let c := fxMul F tl th
  { width := th - tl
    centre := c
    zc := { re := fxDiv F (2 ^ F - c) (2 ^ F + c), im := fxDiv F (2 * fxSqrt F c) (2 ^ F + c) } }

/-- The band-pass section of a denominator: numerator `(1, 0, -1)`, magnitude gain 1 at `zc` (R96,
R103); `b1` is zero by construction (R104). -/
def bandpassSection (F : Nat) (b : Band) (a1 a2 : Int) : Coeffs Fx :=
  let q := cxAdd (cxAdd (cxMul F b.zc b.zc) (cxMul F (cxReal a1) b.zc)) (cxReal a2)
  let g := fxDiv F (fxSqrt F (cxNormSq F q)) (2 * b.zc.im)
  { b0 := .dyadic g F, b1 := .zero, b2 := .dyadic (-g) F,
    a1 := .dyadic a1 F, a2 := .dyadic a2 F }

/-- The band-pass section of a digital pole and its conjugate (R97). -/
def bandpassPair (F : Nat) (b : Band) (s : Cx) : Coeffs Fx :=
  let z := bilinear F s
  bandpassSection F b (-2 * z.re) (cxNormSq F z)

/-- The two sections of prototype pole `k`, that of `s_k,a` first (R94, R97, R100). -/
def bandpassTwo (F : Nat) (b : Band) (pk : Cx) : List (Coeffs Fx) :=
  let u := cxMul F pk (cxReal (b.width / 2))
  let d := cxSqrt F (cxSub (cxMul F u u) (cxReal b.centre))
  [bandpassPair F b (cxAdd u d), bandpassPair F b (cxSub u d)]

/-- The one section of the real prototype pole of an odd order (R99): its two roots are a conjugate pair
or two real numbers. -/
def bandpassOdd (F : Nat) (b : Band) : Coeffs Fx :=
  let disc := fxMul F b.width b.width - 4 * b.centre
  if disc < 0 then bandpassPair F b { re := -b.width / 2, im := fxSqrt F (-disc) / 2 }
  else
    let z1 := (bilinear F (cxReal ((-b.width + fxSqrt F disc) / 2))).re
    let z2 := (bilinear F (cxReal ((-b.width - fxSqrt F disc) / 2))).re
    bandpassSection F b (-(z1 + z2)) (fxMul F z1 z2)

/-- The exact `a2` of that section is 0 by cancellation.  It is `(1 - B + C) / (1 + B + C)` for the width
`B` and the squared centre `C`, so this is `fhigh - flow = Fs/4` exactly (bandpassOdd_a2_eq_zero_iff). -/
def a2Cancels (flow fhigh fs : Word) : Bool := decide (4 * (dUnits fhigh - dUnits flow) = dUnits fs)

/-- The section with the `a2` that cancels as the exact number 0. -/
def cancelA2 (cancels : Bool) (c : Coeffs Fx) : Coeffs Fx :=
  if cancels then { c with a2 := .dyadic 0 0 } else c

/-! ### The operations (R106 to R111) -/

/-- The prototype indices `1 .. floor(ORD/2)` (R97, R100). -/
def pairIndices (ord : Nat) : List Nat := (List.range (ord / 2)).map (· + 1)

/-- The sections of `DESIGN_LP` in ROM order (R100, R106). -/
def lowpassSections (ord : Nat) (fc fs : Word) : List (Coeffs Fx) :=
  let F := workBits (bitsBelow (dUnits fc) (dUnits fs))
  let t := warped F fc fs
  (pairIndices ord).map (fun k =>
      lowpassPair F (bilinear F (cxMul F (cxReal t) (prototypePole F ord k))))
    ++ if ord % 2 = 1 then [lowpassFirst F (realPole F t)] else []

/-- The sections of `DESIGN_HP` in ROM order (R100, R107). -/
def highpassSections (ord : Nat) (fc fs : Word) : List (Coeffs Fx) :=
  let F := workBits (bitsBelow (dUnits fc) (dUnits fs))
  let t := warped F fc fs
  (pairIndices ord).map (fun k =>
      highpassPair F (bilinear F (cxDiv F (cxReal t) (prototypePole F ord k))))
    ++ if ord % 2 = 1 then [highpassFirst F (realPole F t)] else []

/-- The sections of `DESIGN_BP` in ROM order (R100, R108). -/
def bandpassSections (ord : Nat) (flow fhigh fs : Word) : List (Coeffs Fx) :=
  let F := workBits (bitsBelow (dUnits flow) (dUnits fs)
    + bitsBelow (dUnits fhigh - dUnits flow) (dUnits fs))
  let b := bandOf F (warped F flow fs) (warped F fhigh fs)
  (pairIndices ord).flatMap (fun k => bandpassTwo F b (prototypePole F ord k))
    ++ if ord % 2 = 1 then [cancelA2 (a2Cancels flow fhigh fs) (bandpassOdd F b)] else []

/-- Fraction bits for a notch, at least 2576 (log entry 25). -/
def notchBits (f0 fs : Word) : Nat := 2048 + workBits (bitsBelow (dUnits f0) (dUnits fs))

/-- The pole radius `r = 1 - pi*(f0/Q)/Fs` (R109). -/
def notchRadius (F : Nat) (f0 q fs : Word) : Int :=
  2 ^ F - fxPi F * ((dUnits f0 : Int) * 2 ^ unitBits .double) / ((dUnits q : Int) * (dUnits fs : Int))

/-- The checks of R110 in order; `none` when all pass. -/
def checkNotch (f0 q fs : Word) : Option Status :=
  if positive fs = false then some .invalidParameter
  else if (positive f0 && belowNyquist f0 fs) = false then some .invalidParameter
  else if positive q = false then some .invalidParameter
  else if notchRadius (notchBits f0 fs) f0 q fs ≤ 0 then some .invalidParameter
  else none

/-- The section of `DESIGN_NOTCH` (R109). -/
def notchSection (f0 q fs : Word) : Coeffs Fx :=
  let F := notchBits f0 fs
  let r := notchRadius F f0 q fs
  let c := fxCos F (2 * fxPi F * (dUnits f0 : Int) / (dUnits fs : Int))
  { b0 := .dyadic (2 ^ F + r) (F + 1), b1 := .dyadic (-fxMul F (2 ^ F + r) c) F,
    b2 := .dyadic (2 ^ F + r) (F + 1), a1 := .dyadic (-2 * fxMul F r c) F,
    a2 := .dyadic (fxMul F r r) F }

/-- The check that decides a design operation's error, if any (R87, R88, R110). -/
def designError (maxsec : Nat) : FilterSpec → Option Status
  | .lowpass ord fc fs => checkSingle maxsec ord fc fs
  | .highpass ord fc fs => checkSingle maxsec ord fc fs
  | .bandpass ord flow fhigh fs => checkBand maxsec ord flow fhigh fs
  | .notch f0 q fs => checkNotch f0 q fs

/-- The sections of a valid FilterSpec in ROM order, before the rounding of R104. -/
def computedSections : FilterSpec → List (Coeffs Fx)
  | .lowpass ord fc fs => lowpassSections ord.toNat fc fs
  | .highpass ord fc fs => highpassSections ord.toNat fc fs
  | .bandpass ord flow fhigh fs => bandpassSections ord.toNat flow fhigh fs
  | .notch f0 q fs => [notchSection f0 q fs]

/-! ### Storing a section with its poles strictly inside the unit circle (R24, R104, R105, R113 (a)) -/

/-- A section with each coefficient rounded to nearest (R104). -/
def nearestSection (p : Prec) (c : Coeffs Fx) : Coeffs Word :=
  { b0 := storeFx p c.b0, b1 := storeFx p c.b1, b2 := storeFx p c.b2, a1 := storeFx p c.a1,
    a2 := storeFx p c.a2 }

/-- The number with 180 fraction bits more.  One part in `10^9` of it is then exact enough to round an
edge of the tolerance: what is kept of the edge is less than `2^-(frac+180)` off, and a tie of binary32, a
multiple of `2^-150`, is farther than that from every multiple of `1/(10^9 * 2^frac)` other than itself. -/
def fxFine (num : Int) : Int := num * 2 ^ 180

/-- The number less one part in `10^9` of its magnitude: the edge of R105's tolerance next to zero. -/
def fxShrink : Fx → Fx
  | .zero => .zero
  | .dyadic num frac => .dyadic (fxFine num - (fxFine num).tdiv (10 ^ 9)) (frac + 180)

/-- The number and one part in `10^9` more, the other edge of R105's tolerance.  For a number that is 0 by
cancellation the tolerance is absolute, and the smallest positive real of the format lies within it. -/
def fxGrow (p : Prec) : Fx → Fx
  | .zero => .zero
  | .dyadic num frac =>
    if num = 0 then .dyadic 1 (unitBits p)
    else .dyadic (fxFine num + (fxFine num).tdiv (10 ^ 9)) (frac + 180)

/-- The sections to be tried first.  In `SINGLE` the tolerance of R105 is before the rounding, so near a
tie it admits two words for a coefficient, those its edges round to, and for an `a2` that cancels every
word near zero, of which a positive one serves stability.  Of `a1` the word next to zero serves it, of
another `a2` either may. -/
def roundings (p : Prec) (c : Coeffs Fx) : List (Coeffs Word) :=
  match p with
  | .double => [nearestSection .double c]
  | .single =>
    let less1 := { c with a1 := fxShrink c.a1 }
    [c, less1, { c with a2 := fxShrink c.a2 }, { c with a2 := fxGrow .single c.a2 },
      { less1 with a2 := fxShrink c.a2 },
      { less1 with a2 := fxGrow .single c.a2 }].map (nearestSection .single)

/-- The word, or the largest finite real of its sign where it is not finite. -/
def finiteWord (p : Prec) (w : Word) : Word := pack p (isNeg p w) (min (magBits p w) (infBits p - 1))

/-- The magnitude bits of the largest real of at most `n` units, for an `n` far below the largest. -/
def floorMag (p : Prec) (n : Nat) : Nat :=
  let e := Nat.log2 n - fracBits p
  e * 2 ^ fracBits p + n / 2 ^ e

/-- The word, or the largest real of its sign below `n` units where it is not below them. -/
def below (p : Prec) (n : Nat) (w : Word) : Word :=
  if unitsOf p (magBits p w) < n then w else pack p (isNeg p w) (floorMag p (n - 1))

/-- The units `a2` must stay below: 1, and `1 - |a1|` for a negative `a2` beside an `a1` below 1/2. -/
def a2Room (p : Prec) (a1 a2 : Word) : Nat :=
  let u1 := unitsOf p (magBits p a1)
  if isNeg p a2 && decide (2 * u1 < 2 ^ unitBits p) then 2 ^ unitBits p - u1 else 2 ^ unitBits p

/-- The section with its denominator moved by as little as puts both poles strictly inside the unit
circle, `|a2| < 1` and `|a1| < 1 + a2`.  The coefficient that gives way is the one for which the move is a
few units in the last place: beside a small `a1` the condition fails only for an `a2` near -1, whose words
lie further apart than those of `a1`, and `a2` moves; elsewhere `a1` does. -/
def insideCircle (p : Prec) (c : Coeffs Word) : Coeffs Word :=
  let a1 := finiteWord p c.a1
  let a2 := below p (a2Room p a1 c.a2) (finiteWord p c.a2)
  { b0 := finiteWord p c.b0, b1 := finiteWord p c.b1, b2 := finiteWord p c.b2,
    a1 := below p (2 ^ unitBits p + signedUnits p a2).toNat a1, a2 := a2 }

/-- The words stored for a section: each coefficient rounded to nearest, unless that puts a pole on or
outside the unit circle.  DESIGN CHOICE: then R113 (a) goes before the rounding of R104, and the section
is one within the tolerance of R105 (log entry 26). -/
def storeSection (p : Prec) (c : Coeffs Fx) : Coeffs Word :=
  ((roundings p c).find? (sectionOk p)).getD (insideCircle p (nearestSection p c))

/-- The sections of a valid FilterSpec (R104, R113). -/
def designSections (p : Prec) (spec : FilterSpec) : List (Coeffs Word) :=
  (computedSections spec).map (storeSection p)

/-- A design operation: a pure function from a FilterSpec to a Filter or an error (R85, R111, R112). -/
def design (par : Params) (spec : FilterSpec) : Except Status Image :=
  match designError par.maxsec spec with
  | some e => .error e
  | none => .ok { prec := par.prec, sections := designSections par.prec spec }

end Sys2Proof.Machine
end

