-- ==== Sys2Proof/Machine/DesignExact.lean ====
section
/-! DEFINITION. The design formulas over the real and complex numbers, as relations, and the tolerance
within which an image must meet them (spec 00_scope R18, 40_rom_design R90 to R105, R109); and the exact
arithmetic of the cascade (41_cascade R123).

Every image that meets `ImageConforms` is one a conforming designer may produce; `design` of
Machine/Design.lean is written to be one of them, which is not proved (log entry 14). -/

namespace Sys2Proof.Machine

/-- Exact arithmetic: no operation is rounded (R123). -/
def exactArith {α : Type} [Mul α] [Add α] [Sub α] : Arith α :=
  { mul := fun _ a b => a * b, add := fun _ a b => a + b, sub := fun _ a b => a - b }

/-- Prototype pole `p_k` (R90). -/
def IsPrototypePole (ord k : ℕ) (p : ℂ) : Prop :=
  p = ⟨-Real.sin (Real.pi * (2 * k - 1) / (2 * ord)), Real.cos (Real.pi * (2 * k - 1) / (2 * ord))⟩

/-- The pre-warped frequency (R91). -/
def IsPrewarped (f fs omega : ℝ) : Prop := omega = 2 * fs * Real.tan (Real.pi * f / fs)

/-- The bilinear transform (R95). -/
def IsBilinear (fs : ℝ) (s z : ℂ) : Prop := z = (2 * (fs : ℂ) + s) / (2 * (fs : ℂ) - s)

/-- The denominator of a digital pole and its conjugate (R97). -/
def HasPolePair (z : ℂ) (c : Coeffs ℝ) : Prop := c.a1 = -2 * z.re ∧ c.a2 = z.re ^ 2 + z.im ^ 2

/-- The numerator `g * (n0, n1, n2)` (R96). -/
def HasNumerator (g n0 n1 n2 : ℝ) (c : Coeffs ℝ) : Prop :=
  c.b0 = g * n0 ∧ c.b1 = g * n1 ∧ c.b2 = g * n2

/-- The low-pass section of prototype pole `k` (R92, R97, R101). -/
def IsLowpassPair (ord k : ℕ) (fc fs : ℝ) (c : Coeffs ℝ) : Prop :=
  ∃ (p z : ℂ) (omega : ℝ), IsPrototypePole ord k p ∧ IsPrewarped fc fs omega
    ∧ IsBilinear fs ((omega : ℂ) * p) z ∧ HasPolePair z c
    ∧ HasNumerator ((1 + c.a1 + c.a2) / 4) 1 2 1 c

/-- The high-pass section of prototype pole `k` (R93, R97, R102). -/
def IsHighpassPair (ord k : ℕ) (fc fs : ℝ) (c : Coeffs ℝ) : Prop :=
  ∃ (p z : ℂ) (omega : ℝ), IsPrototypePole ord k p ∧ IsPrewarped fc fs omega
    ∧ IsBilinear fs ((omega : ℂ) / p) z ∧ HasPolePair z c
    ∧ HasNumerator ((1 - c.a1 + c.a2) / 4) 1 (-2) 1 c

/-- The denominator of the one real pole of an odd order, low-pass and high-pass (R98). -/
def HasRealPole (fc fs : ℝ) (c : Coeffs ℝ) : Prop :=
  ∃ omega : ℝ, IsPrewarped fc fs omega ∧ c.a1 = -((2 * fs - omega) / (2 * fs + omega)) ∧ c.a2 = 0

/-- The first-order low-pass section (R98, R101). -/
def IsLowpassFirst (fc fs : ℝ) (c : Coeffs ℝ) : Prop :=
  HasRealPole fc fs c ∧ HasNumerator ((1 + c.a1) / 2) 1 1 0 c

/-- The first-order high-pass section (R98, R102). -/
def IsHighpassFirst (fc fs : ℝ) (c : Coeffs ℝ) : Prop :=
  HasRealPole fc fs c ∧ HasNumerator ((1 - c.a1) / 2) 1 (-1) 0 c

/-- The band's analog width and squared centre (R91). -/
def IsBand (flow fhigh fs width centre : ℝ) : Prop :=
  ∃ ol oh : ℝ, IsPrewarped flow fs ol ∧ IsPrewarped fhigh fs oh ∧ width = oh - ol ∧ centre = ol * oh

/-- The band-pass gain: magnitude 1 at the digital image of the analog centre (R103). -/
def IsBandGain (fs centre : ℝ) (c : Coeffs ℝ) (g : ℝ) : Prop :=
  ∃ (w : ℝ) (zc : ℂ), w = 2 * Real.arctan (Real.sqrt centre / (2 * fs))
    ∧ zc = ⟨Real.cos w, Real.sin w⟩
    ∧ g = ‖zc ^ 2 + (c.a1 : ℂ) * zc + (c.a2 : ℂ)‖ / ‖zc ^ 2 - 1‖

/-- The principal square root (R94). -/
def IsPrincipalSqrt (w d : ℂ) : Prop := d ^ 2 = w ∧ (0 < d.re ∨ (d.re = 0 ∧ 0 ≤ d.im))

/-- The band-pass section of an analog pole and its conjugate (R96, R97, R103). -/
def IsBandpassPair (fs centre : ℝ) (s : ℂ) (c : Coeffs ℝ) : Prop :=
  ∃ (z : ℂ) (g : ℝ), IsBilinear fs s z ∧ HasPolePair z c ∧ IsBandGain fs centre c g
    ∧ HasNumerator g 1 0 (-1) c

/-- The two band-pass sections of prototype pole `k`: that of `s_k,a = u + d`, then that of
`s_k,b = u - d` (R94, R100). -/
def IsBandpassTwo (ord k : ℕ) (flow fhigh fs : ℝ) (ca cb : Coeffs ℝ) : Prop :=
  ∃ (p u d : ℂ) (width centre : ℝ), IsPrototypePole ord k p ∧ IsBand flow fhigh fs width centre
    ∧ u = p * (width : ℂ) / 2 ∧ IsPrincipalSqrt (u ^ 2 - (centre : ℂ)) d
    ∧ IsBandpassPair fs centre (u + d) ca ∧ IsBandpassPair fs centre (u - d) cb

/-- The one band-pass section of the real prototype pole: from the two roots of
`s^2 + B*s + Omega0sq` (R99). -/
def IsBandpassOdd (flow fhigh fs : ℝ) (c : Coeffs ℝ) : Prop :=
  ∃ (s1 s2 z1 z2 : ℂ) (width centre g : ℝ), IsBand flow fhigh fs width centre
    ∧ s1 + s2 = -(width : ℂ) ∧ s1 * s2 = (centre : ℂ)
    ∧ IsBilinear fs s1 z1 ∧ IsBilinear fs s2 z2
    ∧ (c.a1 : ℂ) = -(z1 + z2) ∧ (c.a2 : ℂ) = z1 * z2
    ∧ IsBandGain fs centre c g ∧ HasNumerator g 1 0 (-1) c

/-- The notch section (R109). -/
def IsNotch (f0 q fs : ℝ) (c : Coeffs ℝ) : Prop :=
  ∃ r theta : ℝ, r = 1 - Real.pi * (f0 / q) / fs ∧ theta = 2 * Real.pi * f0 / fs
    ∧ c.b0 = (1 + r) / 2 ∧ c.b1 = -(1 + r) * Real.cos theta ∧ c.b2 = (1 + r) / 2
    ∧ c.a1 = -2 * r * Real.cos theta ∧ c.a2 = r ^ 2

/-- The sections of a low-pass or high-pass in ROM order, from what a pair and a first-order section are
(R89, R100). -/
def IsSingleOrder (ord : ℕ) (pair : ℕ → Coeffs ℝ → Prop) (first : Coeffs ℝ → Prop)
    (e : List (Coeffs ℝ)) : Prop :=
  e.length = (ord + 1) / 2
    ∧ (∀ k, 1 ≤ k → k ≤ ord / 2 → ∃ c, e[k - 1]? = some c ∧ pair k c)
    ∧ (ord % 2 = 1 → ∃ c, e[ord / 2]? = some c ∧ first c)

/-- The exact sections a FilterSpec defines, in ROM order (R100, R106 to R109). -/
def ExactDesign : FilterSpec → List (Coeffs ℝ) → Prop
  | .lowpass ord fc fs, e => ∃ f s : ℚ, toRat .double fc = some f ∧ toRat .double fs = some s
      ∧ IsSingleOrder ord.toNat (fun k => IsLowpassPair ord.toNat k f s) (IsLowpassFirst f s) e
  | .highpass ord fc fs, e => ∃ f s : ℚ, toRat .double fc = some f ∧ toRat .double fs = some s
      ∧ IsSingleOrder ord.toNat (fun k => IsHighpassPair ord.toNat k f s) (IsHighpassFirst f s) e
  | .bandpass ord flow fhigh fs, e => ∃ l h s : ℚ, toRat .double flow = some l
      ∧ toRat .double fhigh = some h ∧ toRat .double fs = some s
      ∧ e.length = ord.toNat
      ∧ (∀ k, 1 ≤ k → k ≤ ord.toNat / 2 → ∃ ca cb, e[2 * (k - 1)]? = some ca
          ∧ e[2 * (k - 1) + 1]? = some cb ∧ IsBandpassTwo ord.toNat k l h s ca cb)
      ∧ (ord.toNat % 2 = 1 → ∃ c, e[ord.toNat - 1]? = some c ∧ IsBandpassOdd l h s c)
  | .notch f0 q fs, e => ∃ f d s : ℚ, toRat .double f0 = some f ∧ toRat .double q = some d
      ∧ toRat .double fs = some s ∧ ∃ c, e = [c] ∧ IsNotch f d s c

/-- Within the relative tolerance of R105, or the absolute one where the exact value is zero by
cancellation. -/
def WithinTolerance (r exact : ℝ) : Prop :=
  |r - exact| ≤ 1e-9 * |exact| ∨ (exact = 0 ∧ |r| ≤ 1e-9)

/-- The word is a real of the format nearest to `r`, the even one of two (R104). -/
def IsNearest (p : Prec) (w : Word) (r : ℝ) : Prop :=
  ∃ q : ℚ, toRat p w = some q
    ∧ ∀ (w' : Word) (q' : ℚ), toRat p w' = some q' →
      |(q : ℝ) - r| ≤ |(q' : ℝ) - r|
        ∧ (|(q : ℝ) - r| = |(q' : ℝ) - r| → q ≠ q' → magBits p w % 2 = 0)

/-- A stored coefficient meets its exact value (R104, R105): in DOUBLE the stored value itself is within
the tolerance; in SINGLE the value it was rounded from, once and to nearest, is. -/
def CoefficientConforms (p : Prec) (w : Word) (exact : ℝ) : Prop :=
  match p with
  | .double => ∃ q : ℚ, toRat .double w = some q ∧ WithinTolerance q exact
  | .single => ∃ r : ℝ, WithinTolerance r exact ∧ IsNearest .single w r

/-- A stored section meets an exact one; structural zeros are `+0.0` exactly, so a zero stands for
them (R98, R104). -/
def SectionConforms (p : Prec) (c : Coeffs Word) (e : Coeffs ℝ) : Prop :=
  CoefficientConforms p c.b0 e.b0 ∧ CoefficientConforms p c.b1 e.b1 ∧ CoefficientConforms p c.b2 e.b2
    ∧ CoefficientConforms p c.a1 e.a1 ∧ CoefficientConforms p c.a2 e.a2

/-- The coefficients R104 stores as exactly `+0.0`: `b1` of every band-pass section, `b2` and `a2` of
the last section of an odd low-pass or high-pass. -/
def StructuralZeros : FilterSpec → List (Coeffs Word) → Prop
  | .lowpass ord _ _, l => ord % 2 = 1 → ∃ c, l.getLast? = some c ∧ c.b2 = 0#64 ∧ c.a2 = 0#64
  | .highpass ord _ _, l => ord % 2 = 1 → ∃ c, l.getLast? = some c ∧ c.b2 = 0#64 ∧ c.a2 = 0#64
  | .bandpass _ _ _ _, l => ∀ c ∈ l, c.b1 = 0#64
  | .notch _ _ _, _ => True

/-- The image is one that a conforming designer may produce for the FilterSpec: well-formed and within
the tolerance of the formulas (R104, R105, R111, R113). -/
def ImageConforms (par : Params) (spec : FilterSpec) (img : Image) : Prop :=
  designError par.maxsec spec = none ∧ imageOk par img = true
    ∧ StructuralZeros spec img.sections
    ∧ ∃ e, ExactDesign spec e ∧ List.Forall₂ (SectionConforms par.prec) img.sections e

end Sys2Proof.Machine
end

