-- ==== Sys2Proof/Safety.lean ====
section
/-! DEFINITION. What claims are stated in: the invariant of a well-formed instance, and the host programs
that read no unspecified word (spec 20_memory R52, 70_reset_and_hazards R219, R224). -/

namespace Sys2Proof.Machine

/-! ### The invariant -/

/-- Every word of a buffer fits the instance's width. -/
def memFits (p : Prec) (m : Memory) : Bool := m.all (fun c => fits p c.2)

/-- Every state register fits. -/
def fileFits (p : Prec) (f : List (Delay Word)) : Bool := f.all (fun w => fits p w.w1 && fits p w.w2)

/-- The configuration is well-formed (R9, R10, R24). -/
def configOk (s : State) : Bool := paramsOk s.par && imageOk s.par s.rom

/-- The state file has one pair per section (R26) and its words fit. -/
def fileOk (s : State) : Bool := decide (s.file.length = s.nsec) && fileFits s.prec s.file

/-- Both buffers are in canonical form and their words fit. -/
def buffersOk (s : State) : Bool :=
  Memory.wf s.par.nmax s.xbuf && memFits s.prec s.xbuf
    && Memory.wf s.par.nmax s.ybuf && memFits s.prec s.ybuf

/-- The hidden work buffer and the latched data word fit. -/
def latchesOk (s : State) : Bool := s.tbuf.all (fits s.prec) && fits s.prec s.cmdData

/-- A waiting response fits and carries a run-time status (R190). -/
def responseOk (s : State) : Bool :=
  match s.rsp with
  | none => true
  | some r => fits s.prec r.data && seenOnPort r.status

/-- What a reset would put back fits. -/
def exposedOk (s : State) : Bool :=
  match s.exposed with
  | .nothing => true
  | .xword i none => decide (i < s.par.nmax)
  | .xword i (some v) => decide (i < s.par.nmax) && fits s.prec v
  | .ywords _ => true

/-- `LEN` has passed the checks of R146. -/
def lengthPassed (s : State) : Bool := decide (padLen s < s.len) && decide (s.len ≤ s.par.nmax)

/-- The outstanding command is an `FFILT` of `LEN` samples and no response waits (R156, R217). -/
def ffiltOutstanding (s : State) : Bool := s.rsp.isNone && decide (s.exposed = .ywords s.len)

/-- The controller's counters agree with its phase (R156). -/
def phaseOk (s : State) : Bool :=
  match s.phase with
  | .idle => true
  | .check => ffiltOutstanding s
  | .clear1 => ffiltOutstanding s && lengthPassed s
  | .fwd => ffiltOutstanding s && lengthPassed s && decide (s.tbuf.length = s.idx)
      && decide (s.idx < extLen s s.len)
  | .clear2 => ffiltOutstanding s && lengthPassed s && decide (s.tbuf.length = extLen s s.len)
  | .bwd => ffiltOutstanding s && lengthPassed s && decide (s.tbuf.length = extLen s s.len)
      && decide (s.idx < extLen s s.len)
  | .done => ffiltOutstanding s && lengthPassed s && decide (s.tbuf.length = extLen s s.len)

/-- The invariant of a block instance. -/
def stateOk (s : State) : Bool :=
  configOk s && fileOk s && buffersOk s && latchesOk s && responseOk s && exposedOk s && phaseOk s

/-! ### Host programs that read no unspecified word -/

/-- The first of the XBUF indices `0 .. n-1` that holds no word. -/
def firstUnwritten (m : Memory) (n : Nat) : Option Nat :=
  (List.range n).find? (fun i => (memRead m i).isNone)

/-- What the command would read that was never written (R52, R224). -/
def unwrittenFault (i : Instr) (s : State) : Option Fault :=
  match i with
  | .rdbuf bank k =>
    if k < s.par.nmax ∧ (memRead (s.buffer bank) k).isNone then some (.unwrittenRead bank k) else none
  | .ffilt n =>
    if padLen s < n ∧ n ≤ s.par.nmax then (firstUnwritten s.xbuf n).map .unwrittenInput else none
  | .rst => none
  | .proc => none
  | .wrbuf _ => none
  | .rdflt _ => none

/-- The command the coming edge accepts, if it accepts one. -/
def acceptedNow (s : State) : Option Instr :=
  let pin := nextInput s
  if pin.rst = false ∧ s.phase = .idle ∧ s.rsp.isNone ∧ pin.cmdValid = true then
    match decode pin.cmdWord with
    | .ok i => some i
    | .error _ => none
  else none

/-- The step that rejects a host program which reads an unspecified word, the other treatment R52 and U4
describe: it faults where `step` would go on with a free value, and is `step` everywhere else. -/
def stepStrict (s : State) : Host.Outcome State Fault Refusal :=
  match (acceptedNow s).bind (fun i => unwrittenFault i s) with
  | some f => .fault f
  | none => step s

/-! ### The terms claims are stated in -/

/-- The configuration is the same. -/
def sameConfig (s t : State) : Prop := t.par = s.par ∧ t.rom = s.rom

/-- Every word of the bank reads as before. -/
def sameBuffer (b : Bank) (s t : State) : Prop :=
  ∀ i, memRead (t.buffer b) i = memRead (s.buffer b) i

/-- The controller's hidden registers are the same (R30).  Of `TBUF`, whose contents between commands and
after `RST` are unspecified (R34, R38), that is the model's choice (log entry 32). -/
def sameHidden (s t : State) : Prop := t.len = s.len ∧ t.idx = s.idx ∧ t.tbuf = s.tbuf

/-- The latched command and the inputs still to come are the same (R36). -/
def samePorts (s t : State) : Prop :=
  t.cmdWord = s.cmdWord ∧ t.cmdData = s.cmdData ∧ t.inputs = s.inputs

/-- The command has ended with this response (R67). -/
def answers (t : State) (status : Status) (data : Word) : Prop :=
  t.rsp = some { status := status, data := data } ∧ t.phase = .idle

/-- Nothing but the response has changed: no register, no buffer word, nothing hidden (R203). -/
def onlyAnswers (s t : State) (status : Status) (data : Word) : Prop :=
  answers t status data ∧ sameConfig s t ∧ t.file = s.file ∧ sameBuffer .x s t ∧ sameBuffer .y s t
    ∧ sameHidden s t ∧ samePorts s t

/-- Every state register is `+0.0`, all bits zero (R38, D4). -/
def cleared (t : State) : Prop :=
  t.file.length = t.nsec ∧ ∀ k, k < t.nsec → t.w1 k = 0#64 ∧ t.w2 k = 0#64

/-- A command is presented at the coming edge and the block can accept it (R35). -/
def presents (s : State) (pin : PortIn) (rest : List PortIn) : Prop :=
  s.phase = .idle ∧ s.rsp = none ∧ s.inputs = pin :: rest ∧ pin.rst = false ∧ pin.cmdValid = true

/-- `n` steps lead from one state to another. -/
def stepsTo : Nat → State → State → Prop
  | 0, s, t => t = s
  | n + 1, s, t => ∃ u, step s = .next u ∧ stepsTo n u t

/-- The inputs to come are edges at which the waiting response is held, then one with `rst` high, at which
the response counts as not taken whatever `rsp_ready` is (log entry 31). -/
def resetAfter (held : List PortIn) (s : State) : Prop :=
  ∃ pin rest, s.inputs = held ++ pin :: rest ∧ pin.rst = true
    ∧ ∀ q ∈ held, q.rst = false ∧ q.rspReady = false

/-- Two words are the same, or both are NaNs of an instance with the default `NUMERICS`, where the bits
of a NaN are unspecified (R126). -/
def sameReal (par : Params) (a b : Word) : Prop :=
  a = b ∨ (par.datapath = .ieee ∧ isNaN par.prec a = true ∧ isNaN par.prec b = true)

/-- Two buffers hold the same reals at every index. -/
def simMem (par : Params) (m m' : Memory) : Prop :=
  ∀ i, match memRead m i, memRead m' i with
    | none, none => True
    | some u, some v => sameReal par u v
    | _, _ => False

/-- Two responses say the same. -/
def simResponse (par : Params) : Option Response → Option Response → Prop
  | none, none => True
  | some r, some r' => r.status = r'.status ∧ sameReal par r.data r'.data
  | _, _ => False

/-- Two state files hold the same reals. -/
def simFile (par : Params) (f f' : List (Delay Word)) : Prop :=
  List.Forall₂ (fun u v => sameReal par u.w1 v.w1 ∧ sameReal par u.w2 v.w2) f f'

/-- Two states of one configuration hold the same reals in the state file, both buffers and the latched
data word.  Nothing is said of the hidden registers or of the model's draw counter. -/
def simState (s s' : State) : Prop :=
  sameConfig s s' ∧ simFile s.par s.file s'.file ∧ simMem s.par s.xbuf s'.xbuf
    ∧ simMem s.par s.ybuf s'.ybuf ∧ sameReal s.par s.cmdData s'.cmdData

/-- Two binary64 words are frequencies `0 < f < Fs/2` (R86). -/
def goodFrequency (f fs : Word) : Prop :=
  ∃ x y : ℚ, toRat .double f = some x ∧ toRat .double fs = some y ∧ 0 < x ∧ 0 < y ∧ x < y / 2

/-- The response words of `PROC` commands given these samples one after another. -/
def procWords : List Word → State → List Word
  | [], _ => []
  | x :: xs, s =>
    match exec .proc { s with cmdData := x } with
    | .next t => (t.rsp.map (·.data)).getD 0#64 :: procWords xs t
    | .fault _ => []
    | .refused _ => []

end Sys2Proof.Machine
end

