-- ==== Sys2Proof/Certificates/Slice0/Obligations.lean ====
section
/-! DEFINITION. The statements for the provers.  Each docstring names the rules of spec/ it formalises. -/

open Sys2Proof Sys2Proof.Machine

/-! ### Encoding -/

/-- Words written out from the opcode map (R70, R75; the legal words of 95_test_vectors V-E1) decode to
the commands they stand for. -/
def Obligations.WrittenOutWordsDecode : Prop :=
  decode 0x10000000#32 = .ok .rst ∧ decode 0x20000000#32 = .ok .proc
    ∧ decode 0x30000007#32 = .ok (.ffilt 7) ∧ decode 0x40000003#32 = .ok (.wrbuf 3)
    ∧ decode 0x50800000#32 = .ok (.rdbuf .y 0) ∧ decode 0x50000003#32 = .ok (.rdbuf .x 3)
    ∧ decode 0x6000000D#32 = .ok (.rdflt 13)

/-- Decoding the word of a well-formed command gives the command back, with every operand at every value
its field can carry (R66, R69, R70). -/
def Obligations.DecodeOfEncodeIsTheCommand : Prop :=
  ∀ i : Instr, i.wellFormed = true → decode (encode i) = .ok i

/-- A word that decodes is the encoding of the command it decodes to, whose operands are in range: each
legal word has one meaning and no bit of it is ignored (R69, R70, R74). -/
def Obligations.EncodeOfDecodeIsTheWord : Prop :=
  ∀ (w : BitVec 32) (i : Instr), decode w = .ok i → i.wellFormed = true ∧ encode i = w

/-- A word is a row's when `(cmd_word AND mask) = match`, with the fields the row names; a word of no row
is illegal (R66, R69, R70). -/
def Obligations.DecodeFollowsOpcodeMap : Prop :=
  ∀ w : BitVec 32,
    (decode w = .ok .rst ↔ w &&& 0xFFFFFFFF#32 = 0x10000000#32)
    ∧ (decode w = .ok .proc ↔ w &&& 0xFFFFFFFF#32 = 0x20000000#32)
    ∧ (∀ n, decode w = .ok (.ffilt n) ↔
        w &&& 0xFF000000#32 = 0x30000000#32 ∧ n = (w.extractLsb' 0 24).toNat)
    ∧ (∀ i, decode w = .ok (.wrbuf i) ↔
        w &&& 0xFF800000#32 = 0x40000000#32 ∧ i = (w.extractLsb' 0 23).toNat)
    ∧ (∀ b i, decode w = .ok (.rdbuf b i) ↔
        w &&& 0xFF000000#32 = 0x50000000#32 ∧ i = (w.extractLsb' 0 23).toNat
          ∧ b = if w.getLsbD 23 then Bank.y else Bank.x)
    ∧ (∀ a, decode w = .ok (.rdflt a) ↔
        w &&& 0xFF000000#32 = 0x60000000#32 ∧ a = (w.extractLsb' 0 24).toNat)
    ∧ ((∃ e, decode w = .error e) ↔
        w &&& 0xFFFFFFFF#32 ≠ 0x10000000#32 ∧ w &&& 0xFFFFFFFF#32 ≠ 0x20000000#32
          ∧ w &&& 0xFF000000#32 ≠ 0x30000000#32 ∧ w &&& 0xFF800000#32 ≠ 0x40000000#32
          ∧ w &&& 0xFF000000#32 ≠ 0x50000000#32 ∧ w &&& 0xFF000000#32 ≠ 0x60000000#32)

/-! ### The step and the ports -/

/-- The step accepts the presented command, latches it, and is `exec` of the decoded command: the step
adds the latching of the word and of the `W` data lines, the passing of the edge, and the model's own
bookkeeping `exposed := .nothing` (log entry 11) (R35, R36, R74).  That the edge of acceptance runs the
whole command, of an `FFILT` the whole walk of R156, is the model's choice (log entries 10 and 13). -/
def Obligations.StepRunsTheDecodedCommand : Prop :=
  ∀ (s : State) (pin : PortIn) (rest : List PortIn) (i : Instr),
    presents s pin rest → decode pin.cmdWord = .ok i →
      step s = exec i
        { s with
          inputs := rest, cmdWord := pin.cmdWord, cmdData := clip s.prec pin.cmdData,
          exposed := .nothing }

/-- Which words are illegal, and that such a word is accepted, changes no state and is answered with
status 8 and data 0 (R72). -/
def Obligations.IllegalWordsAreAnsweredIllegalCommand : Prop :=
  ∀ (s : State) (pin : PortIn) (rest : List PortIn), presents s pin rest →
    let op := (pin.cmdWord.extractLsb' 28 4).toNat
    let rsv := (pin.cmdWord.extractLsb' 24 4).toNat
    let arg := (pin.cmdWord.extractLsb' 0 24).toNat
    (op = 0 ∨ 7 ≤ op ∨ rsv ≠ 0 ∨ ((op = 1 ∨ op = 2) ∧ arg ≠ 0)
        ∨ (op = 4 ∧ pin.cmdWord.getLsbD 23 = true)
      ↔ ∃ e, decode pin.cmdWord = .error e)
    ∧ ((∃ e, decode pin.cmdWord = .error e) →
        ∃ t, step s = .next t ∧ answers t .illegalCommand 0#64
          ∧ statusCode .illegalCommand = 8#4
          ∧ sameConfig s t ∧ t.file = s.file ∧ sameBuffer .x s t ∧ sameBuffer .y s t
          ∧ sameHidden s t ∧ t.draws = s.draws)

/-- What the block drives: `cmd_ready` is high exactly when `PHASE` is `IDLE` and no response waits, and
`rsp_status` and `rsp_data` carry the code and the data of a waiting response.  Without `rst` a waiting
response is held, whatever is presented, until an edge at which `rsp_ready` is high; with nothing waiting
and nothing presented the edge changes nothing (R29, R35, R67). -/
def Obligations.PortHoldsResponseUntilTaken : Prop :=
  ∀ s : State,
    ((portOut s).cmdReady = true ↔ s.phase = .idle ∧ s.rsp = none)
    ∧ (∀ r, s.rsp = some r →
        portOut s = { cmdReady := false, rsp := some (statusCode r.status, r.data) })
    ∧ (s.rsp = none → (portOut s).rsp = none)
    ∧ ∀ (pin : PortIn) (rest : List PortIn),
      s.phase = .idle → s.inputs = pin :: rest → pin.rst = false →
      (∀ r, s.rsp = some r → pin.rspReady = false →
        cmdReady s = false ∧ step s = .next { s with inputs := rest })
      ∧ (∀ r, s.rsp = some r → pin.rspReady = true →
        cmdReady s = false
          ∧ step s = .next { s with inputs := rest, rsp := none, exposed := .nothing })
      ∧ (s.rsp = none → pin.cmdValid = false →
        cmdReady s = true ∧ step s = .next { s with inputs := rest })

/-- Every command ends: whatever the state and the operands, one response waits afterwards and the
controller is idle (R35, R155, R156, R231). -/
def Obligations.EveryCommandGetsOneResponse : Prop :=
  ∀ (i : Instr) (s : State), ∃ t r, exec i s = .next t ∧ t.rsp = some r ∧ t.phase = .idle

/-- Every edge leaves a next state: no step faults and none is refused.  That every accepted command is
answered is R197's and R231's; that a read of a word never written goes on too, with a free value, is the
model's choice between the two treatments of R52 and U4 (log entry 6), which `stepStrict` makes the other
way. -/
def Obligations.EveryStepGoesOn : Prop := ∀ s : State, ∃ t, step s = .next t

/-- The controller's rows one by one while `PHASE` is not `IDLE` (R156).  That a row takes one edge is the
model's choice (log entries 10 and 13), and so is TBUF as a list that starts empty at `CLEAR1` and grows at
its end (log entry 23), which is R156's `f[IDX]` where TBUF holds `IDX` words, as the invariant says,
and that `LEN` keeps its `N` when the check fails (log entry 34).  `e`, `y` and `g` are the word read, the
cascade step on it and the cascade step on `f[IDX]`. -/
def Obligations.ControllerFollowsItsTable : Prop :=
  ∀ s : State, (nextInput s).rst = false →
    let c := consumeInput s
    let e := readWord .x (xaddr s.len (padLen s) s.idx) c
    let y := cascadeStep e.1 e.2
    let g := cascadeStep (s.tbuf.getD s.idx 0#64) c
    let clr := { c with file := List.replicate s.nsec { w1 := 0#64, w2 := 0#64 } }
    (s.phase = .check → s.par.nmax < s.len → ∃ t, step s = .next t
        ∧ onlyAnswers c t .lengthExceedsCapacity 0#64)
    ∧ (s.phase = .check → s.len ≤ s.par.nmax → s.len ≤ padLen s → ∃ t, step s = .next t
        ∧ onlyAnswers c t .insufficientSamples 0#64)
    ∧ (s.phase = .check → s.len ≤ s.par.nmax → padLen s < s.len →
        step s = .next { c with phase := .clear1 })
    ∧ (s.phase = .clear1 → step s = .next { clr with idx := 0, tbuf := [], phase := .fwd })
    ∧ (s.phase = .fwd → s.idx + 1 < s.len + 2 * padLen s →
        step s = .next { y.2 with tbuf := s.tbuf ++ [y.1], idx := s.idx + 1 })
    ∧ (s.phase = .fwd → s.idx + 1 = s.len + 2 * padLen s →
        step s = .next { y.2 with tbuf := s.tbuf ++ [y.1], phase := .clear2 })
    ∧ (s.phase = .clear2 →
        step s = .next { clr with idx := s.len + 2 * padLen s - 1, phase := .bwd })
    ∧ (s.phase = .bwd → 0 < s.idx →
        step s = .next { g.2 with tbuf := s.tbuf.set s.idx g.1, idx := s.idx - 1 })
    ∧ (s.phase = .bwd → s.idx = 0 →
        step s = .next { g.2 with tbuf := s.tbuf.set 0 g.1, phase := .done })
    ∧ (s.phase = .done → s.tbuf.length = s.len + 2 * padLen s → ∃ t, step s = .next t
        ∧ answers t .ok 0#64
        ∧ (∀ j, j < s.len → memRead t.ybuf j = s.tbuf[j + padLen s]?)
        ∧ (∀ j, s.len ≤ j → memRead t.ybuf j = memRead s.ybuf j)
        ∧ sameConfig s t ∧ t.file = s.file ∧ sameBuffer .x s t)

/-- The walk of `PHASE` ends in `IDLE` with a response, from every state (R156). -/
def Obligations.WalkAlwaysTerminates : Prop :=
  ∀ s : State, s.phase ≠ .idle → ∃ n r, (walk n s).phase = .idle ∧ (walk n s).rsp = some r

/-! ### Reset -/

/-- Right after the first reset of any instance every state register is `+0.0`, `PHASE` is `IDLE`, no
response waits, a command can be accepted and every buffer word is unspecified (R38, R215, R216).
`State.reset` is such a state, of the instance log entry 3 names, whose `NUMERICS` is the default (R13). -/
def Obligations.ResetStateIsClearedAndIdle : Prop :=
  (∀ (par : Params) (rom : Image),
    let s := State.afterReset par rom
    s.par = par ∧ s.rom = rom ∧ cleared s ∧ s.phase = .idle ∧ s.rsp = none ∧ cmdReady s = true
      ∧ ∀ b i, memRead (s.buffer b) i = none)
  ∧ State.reset = State.afterReset Config.defaultParams Config.defaultImage
  ∧ numericsOf State.reset.par.datapath = numerics

/-- `rst` sampled high, in any phase, with or without a response waiting: the state file is cleared,
`PHASE` is `IDLE`, no response is given and a command can be accepted at the next edge; the ROM is
unchanged, and with no command outstanding so are the buffers (R38, R215, R216).  In the middle of an
`FFILT`, `YBUF[0 .. LEN-1]` hold unspecified words and every other buffer word is unchanged (R217).  That
a command presented at that very edge is not accepted, and so leaves the buffers alone, is the model's
choice (log entry 31). -/
def Obligations.HardwareResetClearsTheStateFile : Prop :=
  ∀ (s : State) (pin : PortIn) (rest : List PortIn), s.inputs = pin :: rest → pin.rst = true →
    ∃ t, step s = .next t ∧ cleared t ∧ t.phase = .idle ∧ t.rsp = none ∧ cmdReady t = true
      ∧ sameConfig s t ∧ t.inputs = rest
      ∧ (s.phase = .idle → s.exposed = .nothing → sameBuffer .x s t ∧ sameBuffer .y s t)
      ∧ (s.phase ≠ .idle → (∀ j, j < s.len → memRead t.ybuf j = none)
        ∧ (∀ j, s.len ≤ j → memRead t.ybuf j = memRead s.ybuf j) ∧ sameBuffer .x s t)

/-- A reset before the response of `WRBUF i` is taken, after any number of edges at which the response
was held: `XBUF[i]` holds its old or its new word and every other buffer word is unchanged (R217).  That
the response counts as not taken at the edge of the reset, whatever `rsp_ready` is there, is the model's
choice (log entry 31). -/
def Obligations.AbandonedWrbufLeavesOldOrNewWord : Prop :=
  ∀ (s : State) (i : Nat) (held : List PortIn), i < s.par.nmax → resetAfter held s →
      ∃ t u, exec (.wrbuf i) s = .next t ∧ stepsTo (held.length + 1) t u ∧ cleared u ∧ u.rsp = none
        ∧ (memRead u.xbuf i = memRead s.xbuf i ∨ memRead u.xbuf i = some s.cmdData)
        ∧ (∀ j, j ≠ i → memRead u.xbuf j = memRead s.xbuf j) ∧ sameBuffer .y s u

/-- A reset before the response of `FFILT n` is taken, after any number of edges at which the response was
held: `YBUF[0 .. n-1]` hold unspecified words, the rest of YBUF and all of XBUF are unchanged, the state
file is cleared (R217).  That R217 covers an `FFILT` that had failed its length check too, of which R154 and
R226 say that it left YBUF alone, is the model's reading (log entry 11), and that the response counts as
not taken at the edge of the reset, whatever `rsp_ready` is there, its choice (log entry 31). -/
def Obligations.AbandonedFfiltLeavesItsOutputUnspecified : Prop :=
  ∀ (s : State) (n : Nat) (held : List PortIn), resetAfter held s →
      ∃ t u, exec (.ffilt n) s = .next t ∧ stepsTo (held.length + 1) t u ∧ cleared u ∧ u.rsp = none
        ∧ (∀ j, j < n → memRead u.ybuf j = none)
        ∧ (∀ j, n ≤ j → memRead u.ybuf j = memRead s.ybuf j) ∧ sameBuffer .x s u

/-- A reset before the response of `RST`, `PROC`, `RDBUF` or `RDFLT` is taken, or of a `WRBUF` beyond
`NMAX`, which writes no word, leaves nothing behind beyond the cleared state file, after any number of
edges at which the response was held (R176, R217). -/
def Obligations.OtherAbandonedCommandsLeaveNothing : Prop :=
  ∀ (s : State) (i : Instr) (held : List PortIn),
    (i = .rst ∨ i = .proc ∨ (∃ b k, i = .rdbuf b k) ∨ (∃ a, i = .rdflt a)
      ∨ ∃ k, i = .wrbuf k ∧ s.par.nmax ≤ k) →
    s.exposed = .nothing → resetAfter held s →
      ∃ t u, exec i s = .next t ∧ stepsTo (held.length + 1) t u ∧ cleared u ∧ u.rsp = none
        ∧ sameBuffer .x s u ∧ sameBuffer .y s u

/-- Instantiation succeeds exactly for parameters in range and a well-formed image, and gives the state
after reset of that configuration, which meets the invariant (R10, R12, R24, R219) with the model's zeros
in the registers for which the spec states no reset value (log entry 9). -/
def Obligations.InstantiateRefusesIllFormedImages : Prop :=
  ∀ (par : Params) (img : Image),
    ((∃ s, instantiate par img = .ok s) ↔
      (1 ≤ par.maxsec ∧ par.padk * par.maxsec + 1 ≤ par.nmax ∧ par.nmax ≤ 2 ^ 23)
        ∧ img.prec = par.prec ∧ 1 ≤ img.sections.length ∧ img.sections.length ≤ par.maxsec
        ∧ ∀ c ∈ img.sections, sectionOk par.prec c = true)
    ∧ ∀ s, instantiate par img = .ok s → s = State.afterReset par img ∧ stateOk s = true

/-- What the check of one section means: its five words are finite reals of the format, and the roots of
`z^2 + a1*z + a2` have magnitude below 1, which is the same as `|a2| < 1` and `|a1| < 1 + a2`
(R24 (c), (d)). -/
def Obligations.SectionOkMeansFiniteAndStable : Prop :=
  ∀ (p : Prec) (c : Coeffs Word),
    let words := ∀ w ∈ [c.b0, c.b1, c.b2, c.a1, c.a2], fits p w = true ∧ ∃ q, toRat p w = some q
    (sectionOk p c = true ↔ words ∧ ∃ x y : ℚ, toRat p c.a1 = some x ∧ toRat p c.a2 = some y
      ∧ |y| < 1 ∧ |x| < 1 + y)
    ∧ (sectionOk p c = true ↔ words ∧ ∃ x y : ℚ, toRat p c.a1 = some x ∧ toRat p c.a2 = some y
      ∧ ∀ z : ℂ, z ^ 2 + (x : ℂ) * z + (y : ℂ) = 0 → ‖z‖ < 1)

/-! ### RST and PROC -/

/-- `RST` answers `OK, 0` and writes `+0.0` to every state register and nothing else (R120).  That `TBUF`,
which R38 calls unspecified after `RST`, keeps its words is the model's choice (log entry 32). -/
def Obligations.RstClearsOnlyTheStateFile : Prop :=
  ∀ s : State, ∃ t, exec .rst s = .next t ∧ answers t .ok 0#64 ∧ cleared t ∧ sameConfig s t
    ∧ sameBuffer .x s t ∧ sameBuffer .y s t ∧ sameHidden s t ∧ samePorts s t

/-- `PROC x` evaluates the nine operations of every section in order, those of the instance's `NUMERICS`,
each section's output the next one's input, the new `w1` from the old `w2`; it answers `OK` with the last
output, for every `x` and every state.  The second argument of an operation numbers the NaN it may return
(R13, R121, R122). -/
def Obligations.ProcEvaluatesEverySection : Prop :=
  ∀ s : State, s.file.length = s.nsec →
    ∃ (t : State) (v : Nat → Word), exec .proc s = .next t
      ∧ v 0 = s.cmdData ∧ answers t .ok (v s.nsec) ∧ t.file.length = s.nsec
      ∧ ∀ k c, s.rom.sections[k]? = some c →
        let d := s.draws + 9 * k
        let num := numericsOf s.par.datapath
        let mul := fun j => num.fmul s.prec (d + j)
        let add := fun j => num.fadd s.prec (d + j)
        let sub := fun j => num.fsub s.prec (d + j)
        v (k + 1) = add 1 (mul 0 c.b0 (v k)) (s.w1 k)
        ∧ t.w1 k = add 5 (sub 4 (mul 2 c.b1 (v k)) (mul 3 c.a1 (v (k + 1)))) (s.w2 k)
        ∧ t.w2 k = sub 8 (mul 6 c.b2 (v k)) (mul 7 c.a2 (v (k + 1)))

/-- `PROC` writes the state file and the response only (R121).  The model's own counter of draws, which
no rule of the spec speaks of, goes on by nine a section whatever the sample and the state: that is the
model's numbering (log entry 4).  That `TBUF`, whose contents between commands are unspecified (R34),
keeps its words is the model's choice (log entry 32). -/
def Obligations.ProcChangesOnlyTheStateFile : Prop :=
  ∀ s : State, ∃ t y, exec .proc s = .next t ∧ answers t .ok y ∧ t.file.length = s.file.length
    ∧ sameConfig s t ∧ sameBuffer .x s t ∧ sameBuffer .y s t ∧ sameHidden s t ∧ samePorts s t
    ∧ t.draws = s.draws + 9 * s.nsec

/-- A NaN in `w1[k]` makes the response and the registers of section `k` and of every later one NaN, and
a NaN in `w2[k]` makes the new `w1[k]` NaN, with the default `NUMERICS` (R126). -/
def Obligations.NaNStaysUntilCleared : Prop :=
  ∀ (s t : State) (k : Nat), s.par.datapath = .ieee → s.file.length = s.nsec → k < s.nsec →
    exec .proc s = .next t →
    (isNaN s.prec (s.w1 k) = true →
      (∃ y, answers t .ok y ∧ isNaN s.prec y = true)
        ∧ ∀ j, k ≤ j → j < s.nsec → isNaN s.prec (t.w1 j) = true ∧ isNaN s.prec (t.w2 j) = true)
    ∧ (isNaN s.prec (s.w2 k) = true → isNaN s.prec (t.w1 k) = true)

/-- In exact arithmetic a section gives
`y[n] = b0 x[n] + b1 x[n-1] + b2 x[n-2] - a1 y[n-1] - a2 y[n-2]` from every state (R123). -/
def Obligations.ExactSectionIsTheTransferFunction : Prop :=
  ∀ (c : Coeffs ℚ) (w : Delay ℚ) (x0 x1 x2 : ℚ) (d : Nat),
    let r0 := biquad exactArith d c w x0
    let r1 := biquad exactArith d c r0.2 x1
    let r2 := biquad exactArith d c r1.2 x2
    r2.1 = c.b0 * x2 + c.b1 * x1 + c.b2 * x0 - c.a1 * r1.1 - c.a2 * r0.1

/-! ### Real arithmetic -/

/-- The product of two finite reals is the finite real nearest to the exact product, the even one of
two, or the infinity of the product sign exactly when the exact product rounds past the largest finite
real; exact products are compared in units squared (R124, R125). -/
def Obligations.ProductIsRoundedToNearestEven : Prop :=
  ∀ (p : Prec) (d : Nat) (a b : Word), isFinite p a = true → isFinite p b = true →
    let exact := signedUnits p a * signedUnits p b
    let r := numerics.fmul p d a b
    (isFinite p r = true → ∀ c, isFinite p c = true →
      |signedUnits p r * 2 ^ unitBits p - exact| ≤ |signedUnits p c * 2 ^ unitBits p - exact|
        ∧ (|signedUnits p r * 2 ^ unitBits p - exact| = |signedUnits p c * 2 ^ unitBits p - exact| →
            signedUnits p r ≠ signedUnits p c → magBits p r % 2 = 0))
    ∧ (isFinite p r = false →
        r = infWord p (isNeg p a != isNeg p b))
    ∧ (isFinite p r = false ↔
        (2 ^ (fracBits p + 2) - 1) * 2 ^ (2 ^ expBits p - 3) * 2 ^ unitBits p ≤ 2 * |exact|)

/-- Sums and differences of finite reals are rounded the same way (R124, R125). -/
def Obligations.SumIsRoundedToNearestEven : Prop :=
  ∀ (p : Prec) (d : Nat) (a b : Word), isFinite p a = true → isFinite p b = true →
    ∀ exact r, ((exact = signedUnits p a + signedUnits p b ∧ r = numerics.fadd p d a b)
        ∨ (exact = signedUnits p a - signedUnits p b ∧ r = numerics.fsub p d a b)) →
      (isFinite p r = true → ∀ c, isFinite p c = true →
        |signedUnits p r - exact| ≤ |signedUnits p c - exact|
          ∧ (|signedUnits p r - exact| = |signedUnits p c - exact| →
              signedUnits p r ≠ signedUnits p c → magBits p r % 2 = 0))
      ∧ (isFinite p r = false → r = infWord p (decide (exact < 0)))
      ∧ (isFinite p r = false ↔
          (2 ^ (fracBits p + 2) - 1) * 2 ^ (2 ^ expBits p - 3) ≤ 2 * |exact|)

/-- Infinities and NaNs: `inf - inf`, `inf + (-inf)` and `0 * inf` are NaN; an operation with a NaN
operand returns a NaN; `finite * inf` is infinite with the product sign for a finite operand other than
zero; an infinity plus or less a finite real is that infinity, a finite real less an infinity is the
opposite one, and an infinity less its opposite is itself (R126). -/
def Obligations.SpecialValuesFollowIEEE : Prop :=
  ∀ (p : Prec) (d : Nat) (a b : Word) (s t : Bool),
    (isNaN p a = true ∨ isNaN p b = true →
      isNaN p (numerics.fmul p d a b) = true ∧ isNaN p (numerics.fadd p d a b) = true
        ∧ isNaN p (numerics.fsub p d a b) = true)
    ∧ isNaN p (numerics.fsub p d (infWord p s) (infWord p s)) = true
    ∧ isNaN p (numerics.fadd p d (infWord p s) (infWord p (!s))) = true
    ∧ numerics.fadd p d (infWord p s) (infWord p s) = infWord p s
    ∧ numerics.fmul p d (infWord p s) (infWord p t) = infWord p (s != t)
    ∧ (isFinite p a = true →
        (magBits p a = 0 → isNaN p (numerics.fmul p d a (infWord p s)) = true
          ∧ isNaN p (numerics.fmul p d (infWord p s) a) = true)
        ∧ (magBits p a ≠ 0 → numerics.fmul p d a (infWord p s) = infWord p (isNeg p a != s)
          ∧ numerics.fmul p d (infWord p s) a = infWord p (s != isNeg p a))
        ∧ numerics.fadd p d (infWord p s) a = infWord p s
        ∧ numerics.fadd p d a (infWord p s) = infWord p s
        ∧ numerics.fsub p d (infWord p s) a = infWord p s
        ∧ numerics.fsub p d a (infWord p s) = infWord p (!s))
    ∧ numerics.fsub p d (infWord p s) (infWord p (!s)) = infWord p s

/-- Signed zeros: `(+0) + (-0) = +0`, `x - x = +0` for finite `x`, `(-0) - (+0) = -0`; a sum of finite
reals that is exactly zero is `-0` where both are `-0` and `+0` in every other case, and a difference
`a - b` as the sum `a + (-b)`; the product of two finite reals has the exclusive-or of their signs, also
where it rounds to zero, and is zero where one of them is (R125, R127). -/
def Obligations.SignedZerosFollowIEEE : Prop :=
  ∀ (p : Prec) (d : Nat),
    numerics.fadd p d (pack p false 0) (pack p true 0) = pack p false 0
    ∧ (∀ x, isFinite p x = true → numerics.fsub p d x x = pack p false 0)
    ∧ numerics.fsub p d (pack p true 0) (pack p false 0) = pack p true 0
    ∧ (∀ a b, isFinite p a = true → isFinite p b = true → signedUnits p a + signedUnits p b = 0 →
        numerics.fadd p d a b = pack p (isNeg p a && isNeg p b) 0)
    ∧ (∀ a b, isFinite p a = true → isFinite p b = true → signedUnits p a - signedUnits p b = 0 →
        numerics.fsub p d a b = pack p (isNeg p a && !isNeg p b) 0)
    ∧ (∀ a b, isFinite p a = true → isFinite p b = true → (magBits p a = 0 ∨ magBits p b = 0) →
        numerics.fmul p d a b = pack p (isNeg p a != isNeg p b) 0)
    ∧ ∀ a b, isFinite p a = true → isFinite p b = true →
        isNeg p (numerics.fmul p d a b) = (isNeg p a != isNeg p b)

/-- Every operation of every `NUMERICS` returns a word of the instance's width (R13, R15, R124). -/
def Obligations.ResultsFitTheFormat : Prop :=
  ∀ (num : Numerics) (p : Prec) (d : Nat) (a b : Word), (∃ path, num = numericsOf path) →
    fits p (num.fmul p d a b) = true ∧ fits p (num.fadd p d a b) = true
      ∧ fits p (num.fsub p d a b) = true

/-! ### FFILT -/

/-- `FFILT N` with `N > NMAX` answers `LengthExceedsCapacity` (code 6), with `N <= P`
`InsufficientSamples` (code 4), and then the state file, XBUF and YBUF are unchanged (R146, R154). -/
def Obligations.FfiltRejectsBadLengths : Prop :=
  statusCode .lengthExceedsCapacity = 6#4 ∧ statusCode .insufficientSamples = 4#4
  ∧ ∀ (s : State) (n : Nat),
    (s.par.nmax < n → ∃ t, exec (.ffilt n) s = .next t
      ∧ answers t .lengthExceedsCapacity 0#64 ∧ sameConfig s t ∧ t.file = s.file
      ∧ sameBuffer .x s t ∧ sameBuffer .y s t ∧ samePorts s t)
    ∧ (n ≤ s.par.nmax → n ≤ s.par.padk * s.nsec → ∃ t, exec (.ffilt n) s = .next t
      ∧ answers t .insufficientSamples 0#64 ∧ sameConfig s t ∧ t.file = s.file
      ∧ sameBuffer .x s t ∧ sameBuffer .y s t ∧ samePorts s t)

/-- For a length that passes the checks, the walk of the controller computes the pseudocode of R145: clear,
forward over the extended sequence, clear, backward over the intermediate sequence, un-reverse, drop the
extension, write YBUF, answer `OK, 0`. -/
def Obligations.FfiltWalkComputesForwardThenBackward : Prop :=
  ∀ (s : State) (n : Nat), s.par.padk * s.nsec < n → n ≤ s.par.nmax →
    exec (.ffilt n) s = .next (filtfilt n s)

/-- What a successful `FFILT N` writes: with `f` the forward pass over the extended sequence from a cleared
state and `g` the backward pass over it, un-reversed, `YBUF[j] = g[j + P]` for `j < N`, and the state file is
what the last backward step left (R149 to R152). -/
def Obligations.FfiltWritesTheMiddleOfTheBackwardPass : Prop :=
  ∀ (s : State) (n : Nat), s.par.padk * s.nsec < n → n ≤ s.par.nmax →
    ∃ t, exec (.ffilt n) s = .next t ∧ answers t .ok 0#64
      ∧ let f := forwardPass ((List.range (n + 2 * (s.par.padk * s.nsec))).map
            (xaddr n (s.par.padk * s.nsec))) (clearState s)
        let g := cascadeAll f.1.reverse (clearState f.2)
        (∀ j, j < n → memRead t.ybuf j = g.1.reverse[j + s.par.padk * s.nsec]?
            ∧ (memRead t.ybuf j).isSome)
        ∧ t.file = g.2.file

/-- `FFILT` never changes XBUF, `YBUF[N ..]`, the ROM, the latched command or the inputs, whatever its
outcome (R153). -/
def Obligations.FfiltLeavesInputAndRestOfOutput : Prop :=
  ∀ (s : State) (n : Nat), ∃ t, exec (.ffilt n) s = .next t ∧ sameConfig s t ∧ sameBuffer .x s t
    ∧ (∀ j, n ≤ j → memRead t.ybuf j = memRead s.ybuf j) ∧ samePorts s t

/-- The extended sequence is `x[P], ..., x[1], x[0], ..., x[N-1], x[N-2], ..., x[N-1-P]`, and every index
it reads is below `N` (R148, R157). -/
def Obligations.ExtensionReflectsWithoutRepeatingTheEdge : Prop :=
  ∀ n p : Nat, p < n →
    (List.range (n + 2 * p)).map (xaddr n p)
      = (List.range' 1 p).reverse ++ List.range n ++ (List.range' (n - 1 - p) p).reverse
    ∧ ∀ i, i < n + 2 * p → xaddr n p i < n

/-- On words that have all been written, the forward pass is exactly what `RST` and then one `PROC` per
extended sample would answer (R149). -/
def Obligations.ForwardPassIsRstThenProcs : Prop :=
  ∀ (s t : State) (as : List Nat) (xs : List Word), exec .rst s = .next t →
    as.map (memRead s.xbuf) = xs.map some →
      (forwardPass as (clearState s)).1 = procWords xs t

/-- `FFILT N` gives the same output words, up to the bits of NaNs, whatever the state file, YBUF and the
hidden registers held before, if the configuration and `XBUF[0 .. N-1]` are the same and all written
(R158). -/
def Obligations.FfiltDoesNotDependOnPriorState : Prop :=
  ∀ (s s' t t' : State) (n : Nat), sameConfig s s' → s.par.padk * s.nsec < n → n ≤ s.par.nmax →
    (∀ i, i < n → ∃ v, memRead s.xbuf i = some v ∧ memRead s'.xbuf i = some v) →
    exec (.ffilt n) s = .next t → exec (.ffilt n) s' = .next t' →
      simFile s.par t.file t'.file
      ∧ ∀ j, j < n → ∃ u v, memRead t.ybuf j = some u ∧ memRead t'.ybuf j = some v
          ∧ sameReal s.par u v

/-! ### WRBUF, RDBUF, RDFLT -/

/-- `WRBUF i` with `i < NMAX` answers `OK, 0` and stores `cmd_data` bit for bit in `XBUF[i]`, and changes
nothing else (R175; of `TBUF`, log entry 32). -/
def Obligations.WrbufStoresTheDataWord : Prop :=
  ∀ (s : State) (i : Nat), i < s.par.nmax → ∃ t, exec (.wrbuf i) s = .next t ∧ answers t .ok 0#64
    ∧ memRead t.xbuf i = some s.cmdData ∧ (∀ j, j ≠ i → memRead t.xbuf j = memRead s.xbuf j)
    ∧ sameConfig s t ∧ t.file = s.file ∧ sameBuffer .y s t ∧ sameHidden s t ∧ samePorts s t

/-- `WRBUF` and `RDBUF` with `i >= NMAX` answer `BadAddress, 0`; no word is written and no state changes
(R176, R180). -/
def Obligations.BufferIndexOutOfRangeIsBadAddress : Prop :=
  ∀ (s : State) (i : Nat) (b : Bank), s.par.nmax ≤ i →
    (∃ t, exec (.wrbuf i) s = .next t ∧ onlyAnswers s t .badAddress 0#64)
    ∧ (∃ t, exec (.rdbuf b i) s = .next t ∧ onlyAnswers s t .badAddress 0#64)
    ∧ statusCode .badAddress = 7#4

/-- `WRBUF` is idempotent: the same word written twice leaves the buffer as writing it once (R51). -/
def Obligations.WrbufIsIdempotent : Prop :=
  ∀ (s t u : State) (i : Nat), exec (.wrbuf i) s = .next t → exec (.wrbuf i) t = .next u →
    u.xbuf = t.xbuf ∧ u.rsp = t.rsp

/-- `RDBUF` of a written word answers `OK` with that word and changes nothing (R179; of `TBUF`, log entry
32). -/
def Obligations.RdbufReadsTheBank : Prop :=
  ∀ (s : State) (b : Bank) (i : Nat) (v : Word), i < s.par.nmax →
    memRead (s.buffer b) i = some v →
      ∃ t, exec (.rdbuf b i) s = .next t ∧ onlyAnswers s t .ok v ∧ t.draws = s.draws

/-- `RDBUF` of a word never written still answers `OK`, with some word of the instance's width, and
changes nothing the spec names (R52, R179; that the model goes on with a free value is its choice between
the two treatments of U4, log entry 6; of `TBUF`, log entry 32). -/
def Obligations.RdbufOfUnwrittenWordStillAnswersOk : Prop :=
  ∀ (s : State) (b : Bank) (i : Nat), i < s.par.nmax → memRead (s.buffer b) i = none →
    ∃ t v, exec (.rdbuf b i) s = .next t ∧ onlyAnswers s t .ok v ∧ fits s.prec v = true

/-- A word written by `WRBUF i` is what the next `RDBUF X, i` answers (R55, R175, R179). -/
def Obligations.RdbufReadsWhatWrbufWrote : Prop :=
  ∀ (s : State) (i : Nat), i < s.par.nmax → ∃ t u, exec (.wrbuf i) s = .next t
    ∧ exec (.rdbuf .x i) t = .next u ∧ answers u .ok s.cmdData

/-- `RDFLT a` answers `OK` with the word of the Filter value layout at every valid address and changes
nothing (R46, R182, R184; of `TBUF`, log entry 32).  The premise that `ROM.NSEC` is below `2^W` is the
model's (log entry 24). -/
def Obligations.RdfltReadsTheFilterValue : Prop :=
  ∀ s : State, s.nsec < 2 ^ wordWidth s.prec →
    (∃ t, exec (.rdflt 0) s = .next t
      ∧ onlyAnswers s t .ok (if s.rom.prec = .single then 0#64 else 1#64))
    ∧ (∃ t, exec (.rdflt 1) s = .next t ∧ onlyAnswers s t .ok (BitVec.ofNat 64 s.nsec))
    ∧ ∀ k c, s.rom.sections[k]? = some c →
      (∃ t, exec (.rdflt (8 * (k + 1))) s = .next t ∧ onlyAnswers s t .ok c.b0)
      ∧ (∃ t, exec (.rdflt (8 * (k + 1) + 1)) s = .next t ∧ onlyAnswers s t .ok c.b1)
      ∧ (∃ t, exec (.rdflt (8 * (k + 1) + 2)) s = .next t ∧ onlyAnswers s t .ok c.b2)
      ∧ (∃ t, exec (.rdflt (8 * (k + 1) + 3)) s = .next t ∧ onlyAnswers s t .ok c.a1)
      ∧ (∃ t, exec (.rdflt (8 * (k + 1) + 4)) s = .next t ∧ onlyAnswers s t .ok c.a2)
      ∧ (∃ t, exec (.rdflt (8 * (k + 1) + 5)) s = .next t ∧ onlyAnswers s t .ok (s.w1 k))
      ∧ (∃ t, exec (.rdflt (8 * (k + 1) + 6)) s = .next t ∧ onlyAnswers s t .ok (s.w2 k))

/-- `RDFLT` answers `BadAddress` (code 7) with data 0, changing nothing, exactly for `a` in `2 .. 7`, for
a section index `(a >> 3) - 1 >= NSEC`, and for `a[2:0] = 7` (R183). -/
def Obligations.RdfltRejectsInvalidAddresses : Prop :=
  ∀ (s : State) (a : Nat),
    ((∃ t, exec (.rdflt a) s = .next t ∧ onlyAnswers s t .badAddress 0#64) ↔
      (2 ≤ a ∧ a ≤ 7) ∨ (8 ≤ a ∧ s.nsec ≤ a / 8 - 1) ∨ a % 8 = 7)
    ∧ statusCode .badAddress = 7#4

/-! ### The whole machine -/

/-- A response other than `OK` means that the command had no effect at all, and carries data 0
(R67, R197, R203).  The hidden `LEN` is not spoken of: that an `FFILT` which fails leaves its `N` there is
the model's choice (log entry 34). -/
def Obligations.FailureHasNoEffect : Prop :=
  ∀ (i : Instr) (s t : State) (r : Response), exec i s = .next t → t.rsp = some r →
    r.status ≠ .ok → r.data = 0#64 ∧ sameConfig s t ∧ t.file = s.file ∧ sameBuffer .x s t
      ∧ sameBuffer .y s t ∧ samePorts s t ∧ t.draws = s.draws

/-- The code of every status, and which status each command can answer: `RST` and `PROC` always `OK`,
`InsufficientSamples` and `LengthExceedsCapacity` only `FFILT`, `BadAddress` only the access commands, and
never a design-time status (R190, R202). -/
def Obligations.StatusesBelongToTheirCommands : Prop :=
  (statusCode .ok = 0#4 ∧ statusCode .invalidOrder = 1#4 ∧ statusCode .invalidFrequency = 2#4
    ∧ statusCode .invalidParameter = 3#4 ∧ statusCode .insufficientSamples = 4#4
    ∧ statusCode .tooManySections = 5#4 ∧ statusCode .lengthExceedsCapacity = 6#4
    ∧ statusCode .badAddress = 7#4 ∧ statusCode .illegalCommand = 8#4)
  ∧ ∀ (i : Instr) (s t : State) (r : Response), exec i s = .next t → t.rsp = some r →
    match i with
    | .rst => r.status = .ok
    | .proc => r.status = .ok
    | .ffilt _ => r.status = .ok ∨ r.status = .insufficientSamples ∨ r.status = .lengthExceedsCapacity
    | .wrbuf _ => r.status = .ok ∨ r.status = .badAddress
    | .rdbuf _ _ => r.status = .ok ∨ r.status = .badAddress
    | .rdflt _ => r.status = .ok ∨ r.status = .badAddress

/-- No step writes the ROM or any other part of the configuration (R25). -/
def Obligations.NoStepWritesTheRom : Prop :=
  ∀ s t : State, step s = .next t → t.rom = s.rom ∧ t.par = s.par

/-- Only `RST`, `PROC` and `FFILT` write the state file, only `WRBUF` writes XBUF and only its own word,
only `FFILT n` writes YBUF and only below `n` (R27, R32, R33). -/
def Obligations.CommandsWriteOnlyTheirOwnState : Prop :=
  ∀ (i : Instr) (s t : State), exec i s = .next t →
    ((i = .rst ∨ i = .proc ∨ ∃ n, i = .ffilt n) ∨ t.file = s.file)
    ∧ (∀ j, i = .wrbuf j ∨ memRead t.xbuf j = memRead s.xbuf j)
    ∧ (∀ j, (∃ n, i = .ffilt n ∧ j < n) ∨ memRead t.ybuf j = memRead s.ybuf j)

/-- Every step keeps the invariant of a well-formed instance: the configuration is well-formed, the state
file has a pair per section, both buffers are in canonical form within `NMAX`, every word fits the format,
only run-time statuses wait, and the controller's counters agree with its phase. -/
def Obligations.StepKeepsTheInvariant : Prop :=
  ∀ s t : State, stateOk s = true → step s = .next t → stateOk t = true

/-- `State.reset` meets the invariant.  It is one instance, the model's choice (log entry 3), with the
model's zeros in the registers for which the spec states no reset value (log entry 9);
`InstantiateRefusesIllFormedImages` says the same of every instance. -/
def Obligations.ResetMeetsTheInvariant : Prop := stateOk State.reset = true

/-- Determinism: two states that hold the same reals (up to the bits of NaNs where `NUMERICS` is the
default, word for word where it is another), given the same command, give responses and states that hold
the same reals, whatever their hidden registers and draw counters, if the command reads no unwritten word
(R57, R126). -/
def Obligations.ResponsesAreDeterminedByTheReals : Prop :=
  ∀ (i : Instr) (s s' : State), simState s s' → unwrittenFault i s = none →
    ∃ t t', exec i s = .next t ∧ exec i s' = .next t' ∧ simState t t'
      ∧ simResponse s.par t.rsp t'.rsp

/-- The strict step faults exactly where the accepted command reads an unwritten word, and is the step
everywhere else (R52, R224; that the model's own step goes on there is its choice, log entry 6). -/
def Obligations.StrictStepFaultsOnUnwrittenReads : Prop :=
  ∀ s : State,
    ((∃ f, stepStrict s = .fault f) ↔ ∃ i, acceptedNow s = some i
      ∧ ((∃ b k, i = .rdbuf b k ∧ k < s.par.nmax ∧ memRead (s.buffer b) k = none)
        ∨ ∃ n k, i = .ffilt n ∧ s.par.padk * s.nsec < n ∧ n ≤ s.par.nmax ∧ k < n
          ∧ memRead s.xbuf k = none))
    ∧ ((∃ f, stepStrict s = .fault f) ∨ stepStrict s = step s)

/-! ### The design operations -/

/-- `DESIGN_LP` and `DESIGN_HP` check the order first and then the frequencies, and succeed exactly when
every check passes (R87). -/
def Obligations.SingleBandDesignChecksInOrder : Prop :=
  ∀ (par : Params) (ord : Int) (fc fs : Word) (spec : FilterSpec),
    (spec = .lowpass ord fc fs ∨ spec = .highpass ord fc fs) →
      (ord ≤ 0 ∨ 2 * (par.maxsec : Int) < ord → design par spec = .error .invalidOrder)
      ∧ (0 < ord → ord ≤ 2 * (par.maxsec : Int) → ¬ goodFrequency fc fs →
          design par spec = .error .invalidFrequency)
      ∧ (0 < ord → ord ≤ 2 * (par.maxsec : Int) → goodFrequency fc fs →
          ∃ img, design par spec = .ok img)

/-- `DESIGN_BP` checks the order, then the frequencies, then the capacity, and succeeds exactly when every
check passes (R88). -/
def Obligations.BandpassDesignChecksInOrder : Prop :=
  ∀ (par : Params) (ord : Int) (flow fhigh fs : Word),
    let spec := FilterSpec.bandpass ord flow fhigh fs
    let good := goodFrequency flow fs ∧ goodFrequency fhigh fs
      ∧ ∃ l h : ℚ, toRat .double flow = some l ∧ toRat .double fhigh = some h ∧ l < h
    (ord ≤ 0 ∨ 2 * (par.maxsec : Int) < ord → design par spec = .error .invalidOrder)
    ∧ (0 < ord → ord ≤ 2 * (par.maxsec : Int) → ¬ good →
        design par spec = .error .invalidFrequency)
    ∧ (0 < ord → ord ≤ 2 * (par.maxsec : Int) → good → (par.maxsec : Int) < ord →
        design par spec = .error .tooManySections)
    ∧ (0 < ord → ord ≤ (par.maxsec : Int) → good → ∃ img, design par spec = .ok img)

/-- `DESIGN_NOTCH` fails only with `InvalidParameter`.  It does so when `f0` is not between 0 and `Fs/2`
or `Q` is not a positive real (steps 1 to 3 of R110).  When they are, it gives an image if `Q >= pi/2` or
if `r = 1 - pi*(f0/Q)/Fs` is positive, and fails if `r` is negative (step 4 of R110); within `2^-2500` of
zero the sign of `r` is not decided here (log entry 25). -/
def Obligations.NotchDesignRejectsBadParameters : Prop :=
  ∀ (par : Params) (f0 q fs : Word),
    (∀ e, design par (.notch f0 q fs) = .error e → e = .invalidParameter)
    ∧ (¬ goodFrequency f0 fs ∨ ¬ (∃ x : ℚ, toRat .double q = some x ∧ 0 < x) →
        design par (.notch f0 q fs) = .error .invalidParameter)
    ∧ ∀ f d g : ℚ, goodFrequency f0 fs → toRat .double f0 = some f → toRat .double q = some d →
      toRat .double fs = some g → 0 < d →
        let r : ℝ := 1 - Real.pi * (f / d) / g
        (Real.pi / 2 ≤ d → ∃ img, design par (.notch f0 q fs) = .ok img)
        ∧ (1 / 2 ^ 2500 < r → ∃ img, design par (.notch f0 q fs) = .ok img)
        ∧ (r < -(1 / 2 ^ 2500) → design par (.notch f0 q fs) = .error .invalidParameter)

/-- The section count of a successful design: `ceil(ORD/2)` for low-pass and high-pass, `ORD` for
band-pass, 1 for a notch (R89); and its image is well-formed for any instance that holds a section at all
(R113 (a)). -/
def Obligations.DesignedSectionCounts : Prop :=
  ∀ (par : Params) (spec : FilterSpec) (img : Image), design par spec = .ok img →
    img.prec = par.prec
    ∧ (1 ≤ par.maxsec → imageOk par img = true)
    ∧ match spec with
      | .lowpass ord _ _ => (img.sections.length : Int) = (ord + 1) / 2
      | .highpass ord _ _ => (img.sections.length : Int) = (ord + 1) / 2
      | .bandpass ord _ _ _ => (img.sections.length : Int) = ord
      | .notch _ _ _ => img.sections.length = 1

/-- The coefficients that are zero by construction are stored as exactly `+0.0`: `b1` of every band-pass
section, `b2` and `a2` of the first-order section (R98, R104). -/
def Obligations.StructuralZerosAreStoredExactly : Prop :=
  ∀ (par : Params) (spec : FilterSpec) (img : Image), design par spec = .ok img →
    StructuralZeros spec img.sections

/-- Every section is stored stable, and one whose rounding to nearest is stable is stored so (R104,
R113 (a)).  In `DOUBLE`, where the exact section is stable and its rounding to nearest meets the tolerance
of R105, `a1` and `a2` being half a unit in the last place off at most, the section stored meets the
tolerance too.  In `SINGLE`, where one of the roundings tried within the tolerance before rounding is
stable, the section stored is such a one: each word is the nearest to a number within the tolerance of the
computed one.  Nothing is said here of how far the computed numbers lie from the exact ones (log entry 14),
nor of the tolerance where no such rounding is stable; which of the stable sections is stored where the
rounded one is not stable is the model's choice (log entry 26). -/
def Obligations.StableSectionsAreStoredWithinTolerance : Prop :=
  ∀ c : Coeffs Fx,
    (∀ p, sectionOk p (storeSection p c) = true
      ∧ (sectionOk p (nearestSection p c) = true → storeSection p c = nearestSection p c))
    ∧ (∀ e : Coeffs ℝ,
      let rounds := fun (x : Fx) (r : ℝ) => ∃ q : ℚ, toRat .double (storeFx .double x) = some q
        ∧ |q - r| ≤ max (|r| / 2 ^ 52) (1 / 2 ^ 1074)
      |e.a2| < 1 → |e.a1| < 1 + e.a2 → SectionConforms .double (nearestSection .double c) e →
      rounds c.a1 e.a1 → rounds c.a2 e.a2 → SectionConforms .double (storeSection .double c) e)
    ∧ (let value := fun x : Fx => ((fxValue x : ℚ) : ℝ)
      (∃ w ∈ roundings .single c, sectionOk .single w = true) →
        SectionConforms .single (storeSection .single c)
          { b0 := value c.b0, b1 := value c.b1, b2 := value c.b2, a1 := value c.a1, a2 := value c.a2 })

/-- An exact low-pass or high-pass section is stable, and its gain is exactly 1 at DC or at Nyquist:
numerator and denominator agree there and are positive (R95, R101, R102, R113).  The denominators of the
high-pass and the low-pass of one order and frequency are identical, of their second-order sections and of
the first-order section of an odd order (R107). -/
def Obligations.ExactSingleBandSectionsAreStable : Prop :=
  ∀ (ord k : ℕ) (fc fs : ℝ) (c c' : Coeffs ℝ), 1 ≤ k → k ≤ ord → 0 < fc → fc < fs / 2 →
    (IsLowpassPair ord k fc fs c ∨ IsLowpassFirst fc fs c →
      |c.a2| < 1 ∧ |c.a1| < 1 + c.a2 ∧ 0 < 1 + c.a1 + c.a2
        ∧ c.b0 + c.b1 + c.b2 = 1 + c.a1 + c.a2)
    ∧ (IsHighpassPair ord k fc fs c ∨ IsHighpassFirst fc fs c →
      |c.a2| < 1 ∧ |c.a1| < 1 + c.a2 ∧ 0 < 1 - c.a1 + c.a2
        ∧ c.b0 - c.b1 + c.b2 = 1 - c.a1 + c.a2 ∧ c.b0 + c.b1 + c.b2 = 0)
    ∧ (IsLowpassPair ord k fc fs c ∧ IsHighpassPair ord k fc fs c'
        ∨ IsLowpassFirst fc fs c ∧ IsHighpassFirst fc fs c' → c.a1 = c'.a1 ∧ c.a2 = c'.a2)

/-- An exact band-pass section, of either kind, is stable, and the magnitude of its gain at the digital
image `zc` of the analog centre is 1: numerator and denominator have the same magnitude there, other than
zero (R94, R95, R99, R103, R113). -/
def Obligations.ExactBandpassSectionsAreStable : Prop :=
  ∀ (ord k : ℕ) (flow fhigh fs ol oh w : ℝ) (zc : ℂ) (c : Coeffs ℝ),
    1 ≤ k → k ≤ ord → 0 < flow → flow < fhigh → fhigh < fs / 2 →
    IsPrewarped flow fs ol → IsPrewarped fhigh fs oh →
    w = 2 * Real.arctan (Real.sqrt (ol * oh) / (2 * fs)) → zc = ⟨Real.cos w, Real.sin w⟩ →
    ((∃ d, IsBandpassTwo ord k flow fhigh fs c d) ∨ (∃ d, IsBandpassTwo ord k flow fhigh fs d c)
      ∨ IsBandpassOdd flow fhigh fs c) →
      |c.a2| < 1 ∧ |c.a1| < 1 + c.a2
        ∧ zc ^ 2 + (c.a1 : ℂ) * zc + (c.a2 : ℂ) ≠ 0
        ∧ ‖(c.b0 : ℂ) * zc ^ 2 + (c.b1 : ℂ) * zc + (c.b2 : ℂ)‖
          = ‖zc ^ 2 + (c.a1 : ℂ) * zc + (c.a2 : ℂ)‖

/-- An exact notch whose radius is positive is stable and rejects `f0` totally: its numerator is zero at
`z = e^(j theta)` (R109, R110). -/
def Obligations.ExactNotchRejectsItsFrequency : Prop :=
  ∀ (f0 q fs : ℝ) (c : Coeffs ℝ), 0 < f0 → f0 < fs / 2 → 0 < q →
    0 < 1 - Real.pi * (f0 / q) / fs → IsNotch f0 q fs c →
      |c.a2| < 1 ∧ |c.a1| < 1 + c.a2
        ∧ ∀ z : ℂ, z = ⟨Real.cos (2 * Real.pi * f0 / fs), Real.sin (2 * Real.pi * f0 / fs)⟩ →
            (c.b0 : ℂ) * z ^ 2 + (c.b1 : ℂ) * z + (c.b2 : ℂ) = 0
end

