-- ==== Sys2Proof/Laws/Memory.lean ====
section
/-! SUPPORT. The laws of the sample buffers: what a read gives after each operation, and that every
operation keeps the canonical form. -/

namespace Sys2Proof.Machine

/-- A read after a write gives the word at that index and leaves every other index alone. -/
theorem memRead_memWrite (m : Memory) (i j : Nat) (v : Word) :
    memRead (memWrite m i v) j = if j = i then some v else memRead m j := by
  induction m with
  | nil => simp only [memWrite, memRead]
  | cons c r ih =>
    obtain ⟨k, u⟩ := c
    simp only [memWrite]
    split
    · simp only [memRead]
    · split
      · subst_vars; simp only [memRead]; split <;> simp_all
      · simp only [memRead, ih]
        by_cases hk : j = k
        · have : ¬ j = i := by omega
          simp [hk]; omega
        · simp [hk]

@[simp] theorem memRead_memWrite_same (m : Memory) (i : Nat) (v : Word) :
    memRead (memWrite m i v) i = some v := by simp [memRead_memWrite]

theorem memRead_memWrite_other (m : Memory) {i j : Nat} (v : Word) (h : j ≠ i) :
    memRead (memWrite m i v) j = memRead m j := by simp [memRead_memWrite, h]

/-- Writing the same word twice is writing it once (R51). -/
theorem memWrite_memWrite (m : Memory) (i : Nat) (u v : Word) :
    memWrite (memWrite m i u) i v = memWrite m i v := by
  induction m with
  | nil => simp [memWrite]
  | cons c r ih =>
    obtain ⟨k, w⟩ := c
    simp only [memWrite]
    split
    · simp [memWrite]
    · split
      · simp [memWrite]
      · rw [memWrite, if_neg ‹_›, if_neg ‹_›, ih]

/-- After consecutive words are written from `j` on, index `i` reads the word written there, or what it
read before. -/
theorem memRead_memWriteAll (vs : List Word) :
    ∀ (m : Memory) (j i : Nat), memRead (memWriteAll m j vs) i =
      if j ≤ i ∧ i < j + vs.length then vs[i - j]? else memRead m i := by
  induction vs with
  | nil => intro m j i; simp [memWriteAll]
  | cons v vs ih =>
    intro m j i
    simp only [memWriteAll, ih, memRead_memWrite, List.length_cons]
    by_cases h1 : j + 1 ≤ i ∧ i < j + 1 + vs.length
    · have h2 : j ≤ i ∧ i < j + (vs.length + 1) := by omega
      have h3 : i - j = (i - (j + 1)) + 1 := by omega
      simp only [if_pos h1, if_pos h2, h3, List.getElem?_cons_succ]
    · rw [if_neg h1]
      by_cases h2 : i = j
      · subst h2; simp
      · rw [if_neg h2, if_neg (by omega)]

theorem memRead_memErase (m : Memory) (i j : Nat) :
    memRead (memErase m i) j = if j = i then none else memRead m j := by
  induction m with
  | nil => simp [memErase, memRead]
  | cons c r ih =>
    obtain ⟨k, u⟩ := c
    simp only [memErase, List.filter_cons] at ih ⊢
    by_cases hk : k = i
    · subst hk
      simp only [bne_self_eq_false, Bool.false_eq_true, if_false, ih, memRead]
      split <;> simp_all
    · simp only [bne_iff_ne, ne_eq, hk, not_false_eq_true, if_true, memRead, ih]
      split
      · subst_vars; rw [if_neg hk]
      · rfl

theorem memRead_memEraseBelow (m : Memory) (n j : Nat) :
    memRead (memEraseBelow m n) j = if j < n then none else memRead m j := by
  induction m with
  | nil => simp [memEraseBelow, memRead]
  | cons c r ih =>
    obtain ⟨k, u⟩ := c
    simp only [memEraseBelow, List.filter_cons] at ih ⊢
    by_cases hk : n ≤ k
    · simp only [hk, decide_true, if_true, memRead, ih]
      split
      · subst_vars; rw [if_neg (by omega)]
      · rfl
    · simp only [hk, decide_false, Bool.false_eq_true, if_false, ih, memRead]
      split
      · rfl
      · rw [if_neg (by omega)]

/-- Putting back what an index held restores every read (R217). -/
theorem memRead_memRestore_memWrite (m : Memory) (i j : Nat) (v : Word) :
    memRead (memRestore (memWrite m i v) i (memRead m i)) j = memRead m j := by
  cases h : memRead m i with
  | none =>
    simp only [memRestore, memRead_memErase, memRead_memWrite]
    split <;> simp_all
  | some u =>
    simp only [memRestore, memRead_memWrite]
    split <;> simp_all

/-! ### The canonical form -/

theorem risingFrom_mono {lo lo' hi : Nat} (m : Memory) (hl : lo' ≤ lo)
    (h : risingFrom lo hi m = true) : risingFrom lo' hi m = true := by
  cases m with
  | nil => rfl
  | cons c r =>
    obtain ⟨k, u⟩ := c
    simp only [risingFrom, Bool.and_eq_true, decide_eq_true_eq] at h ⊢
    exact ⟨⟨by omega, h.1.2⟩, h.2⟩

theorem risingFrom_memWrite {i hi : Nat} (v : Word) (hi' : i < hi) (m : Memory) :
    ∀ lo, lo ≤ i → risingFrom lo hi m = true → risingFrom lo hi (memWrite m i v) = true := by
  induction m with
  | nil => intro lo hl _; simp [memWrite, risingFrom, hl, hi']
  | cons c r ih =>
    obtain ⟨k, u⟩ := c
    intro lo hl h
    simp only [risingFrom, Bool.and_eq_true, decide_eq_true_eq] at h
    simp only [memWrite]
    split
    · simp only [risingFrom, Bool.and_eq_true, decide_eq_true_eq]
      exact ⟨⟨hl, hi'⟩, ⟨⟨by omega, h.1.2⟩, h.2⟩⟩
    · split
      · subst_vars
        simp only [risingFrom, Bool.and_eq_true, decide_eq_true_eq]
        exact ⟨⟨hl, hi'⟩, h.2⟩
      · simp only [risingFrom, Bool.and_eq_true, decide_eq_true_eq]
        exact ⟨h.1, ih _ (by omega) h.2⟩

theorem risingFrom_filter {hi : Nat} (f : Nat × Word → Bool) (m : Memory) :
    ∀ lo, risingFrom lo hi m = true → risingFrom lo hi (m.filter f) = true := by
  induction m with
  | nil => intro lo h; exact h
  | cons c r ih =>
    obtain ⟨k, u⟩ := c
    intro lo h
    simp only [risingFrom, Bool.and_eq_true, decide_eq_true_eq] at h
    simp only [List.filter_cons]
    split
    · simp only [risingFrom, Bool.and_eq_true, decide_eq_true_eq]
      exact ⟨h.1, ih _ h.2⟩
    · exact risingFrom_mono _ (by omega) (ih _ h.2)

/-- Writing inside the buffer keeps the canonical form. -/
theorem memWrite_wf {size i : Nat} {m : Memory} (v : Word) (hi : i < size)
    (h : Memory.wf size m = true) : Memory.wf size (memWrite m i v) = true :=
  risingFrom_memWrite v hi m 0 (Nat.zero_le _) h

theorem memErase_wf {size : Nat} {m : Memory} (i : Nat) (h : Memory.wf size m = true) :
    Memory.wf size (memErase m i) = true := risingFrom_filter _ m 0 h

theorem memEraseBelow_wf {size : Nat} {m : Memory} (n : Nat) (h : Memory.wf size m = true) :
    Memory.wf size (memEraseBelow m n) = true := risingFrom_filter _ m 0 h

theorem memRestore_wf {size i : Nat} {m : Memory} (old : Option Word) (hi : i < size)
    (h : Memory.wf size m = true) : Memory.wf size (memRestore m i old) = true := by
  cases old with
  | none => exact memErase_wf i h
  | some v => exact memWrite_wf v hi h

theorem memWriteAll_wf {size : Nat} (vs : List Word) :
    ∀ (m : Memory) (j : Nat), j + vs.length ≤ size → Memory.wf size m = true →
      Memory.wf size (memWriteAll m j vs) = true := by
  induction vs with
  | nil => intro m j _ h; exact h
  | cons v vs ih =>
    intro m j hj h
    simp only [List.length_cons] at hj
    exact ih _ _ (by omega) (memWrite_wf v (by omega) h)

/-- The buffers right after reset are canonical. -/
theorem reset_buffers_wf : Memory.wf State.reset.par.nmax State.reset.xbuf = true
    ∧ Memory.wf State.reset.par.nmax State.reset.ybuf = true := ⟨rfl, rfl⟩

/-- Two canonical buffers that read the same everywhere are the same data. -/
theorem memory_ext {hi : Nat} (m : Memory) :
    ∀ (lo : Nat) (m' : Memory), risingFrom lo hi m = true → risingFrom lo hi m' = true →
      (∀ i, memRead m i = memRead m' i) → m = m' := by
  have below : ∀ (r : Memory) (lo i : Nat), risingFrom lo hi r = true → i < lo →
      memRead r i = none := by
    intro r
    induction r with
    | nil => intros; rfl
    | cons c r ih =>
      obtain ⟨k, u⟩ := c
      intro lo i h hlt
      simp only [risingFrom, Bool.and_eq_true, decide_eq_true_eq] at h
      rw [memRead, if_neg (by omega)]
      exact ih _ _ h.2 (by omega)
  induction m with
  | nil =>
    intro lo m' _ h' heq
    cases m' with
    | nil => rfl
    | cons c r => have := heq c.1; simp [memRead] at this
  | cons c r ih =>
    obtain ⟨k, u⟩ := c
    intro lo m' h h' heq
    cases m' with
    | nil => have := heq k; simp [memRead] at this
    | cons c' r' =>
      obtain ⟨k', u'⟩ := c'
      simp only [risingFrom, Bool.and_eq_true, decide_eq_true_eq] at h h'
      have hk : k = k' := by
        rcases Nat.lt_trichotomy k k' with hlt | heq' | hgt
        · have h1 := heq k
          rw [memRead, if_pos rfl, memRead, if_neg (by omega), below r' _ _ h'.2 (by omega)] at h1
          cases h1
        · exact heq'
        · have h1 := heq k'
          rw [memRead, if_neg (by omega), memRead, if_pos rfl, below r _ _ h.2 (by omega)] at h1
          cases h1
      subst hk
      have hu : u = u' := by have h1 := heq k; simpa [memRead] using h1
      subst hu
      rw [ih (k + 1) r' h.2 h'.2 (fun i => by
        by_cases hi : i = k
        · subst hi; rw [below r _ _ h.2 (by omega), below r' _ _ h'.2 (by omega)]
        · have h1 := heq i; simpa [memRead, hi] using h1)]

end Sys2Proof.Machine
end

