-- ==== Sys2Proof/Laws/State.lean ====
section
/-! SUPPORT. One lemma per field for each named update of the state, true by `rfl`, so that no later
proof unfolds a record update. -/

namespace Sys2Proof.Machine

@[simp] theorem clearState_par (s : State) : (clearState s).par = s.par := rfl
@[simp] theorem clearState_rom (s : State) : (clearState s).rom = s.rom := rfl
@[simp] theorem clearState_file (s : State) : (clearState s).file = zeroFile s.nsec := rfl
@[simp] theorem clearState_phase (s : State) : (clearState s).phase = s.phase := rfl
@[simp] theorem clearState_len (s : State) : (clearState s).len = s.len := rfl
@[simp] theorem clearState_idx (s : State) : (clearState s).idx = s.idx := rfl
@[simp] theorem clearState_xbuf (s : State) : (clearState s).xbuf = s.xbuf := rfl
@[simp] theorem clearState_ybuf (s : State) : (clearState s).ybuf = s.ybuf := rfl
@[simp] theorem clearState_tbuf (s : State) : (clearState s).tbuf = s.tbuf := rfl
@[simp] theorem clearState_cmdWord (s : State) : (clearState s).cmdWord = s.cmdWord := rfl
@[simp] theorem clearState_cmdData (s : State) : (clearState s).cmdData = s.cmdData := rfl
@[simp] theorem clearState_rsp (s : State) : (clearState s).rsp = s.rsp := rfl
@[simp] theorem clearState_exposed (s : State) : (clearState s).exposed = s.exposed := rfl
@[simp] theorem clearState_inputs (s : State) : (clearState s).inputs = s.inputs := rfl
@[simp] theorem clearState_draws (s : State) : (clearState s).draws = s.draws := rfl

@[simp] theorem respond_par (v : Word) (s : State) : (respond v s).par = s.par := rfl
@[simp] theorem respond_rom (v : Word) (s : State) : (respond v s).rom = s.rom := rfl
@[simp] theorem respond_file (v : Word) (s : State) : (respond v s).file = s.file := rfl
@[simp] theorem respond_phase (v : Word) (s : State) : (respond v s).phase = .idle := rfl
@[simp] theorem respond_len (v : Word) (s : State) : (respond v s).len = s.len := rfl
@[simp] theorem respond_idx (v : Word) (s : State) : (respond v s).idx = s.idx := rfl
@[simp] theorem respond_xbuf (v : Word) (s : State) : (respond v s).xbuf = s.xbuf := rfl
@[simp] theorem respond_ybuf (v : Word) (s : State) : (respond v s).ybuf = s.ybuf := rfl
@[simp] theorem respond_tbuf (v : Word) (s : State) : (respond v s).tbuf = s.tbuf := rfl
@[simp] theorem respond_cmdWord (v : Word) (s : State) : (respond v s).cmdWord = s.cmdWord := rfl
@[simp] theorem respond_cmdData (v : Word) (s : State) : (respond v s).cmdData = s.cmdData := rfl
@[simp] theorem respond_rsp (v : Word) (s : State) : (respond v s).rsp = some { status := .ok, data := v } := rfl
@[simp] theorem respond_exposed (v : Word) (s : State) : (respond v s).exposed = s.exposed := rfl
@[simp] theorem respond_inputs (v : Word) (s : State) : (respond v s).inputs = s.inputs := rfl
@[simp] theorem respond_draws (v : Word) (s : State) : (respond v s).draws = s.draws := rfl

@[simp] theorem raise_par (e : Status) (s : State) : (raise e s).par = s.par := rfl
@[simp] theorem raise_rom (e : Status) (s : State) : (raise e s).rom = s.rom := rfl
@[simp] theorem raise_file (e : Status) (s : State) : (raise e s).file = s.file := rfl
@[simp] theorem raise_phase (e : Status) (s : State) : (raise e s).phase = .idle := rfl
@[simp] theorem raise_len (e : Status) (s : State) : (raise e s).len = s.len := rfl
@[simp] theorem raise_idx (e : Status) (s : State) : (raise e s).idx = s.idx := rfl
@[simp] theorem raise_xbuf (e : Status) (s : State) : (raise e s).xbuf = s.xbuf := rfl
@[simp] theorem raise_ybuf (e : Status) (s : State) : (raise e s).ybuf = s.ybuf := rfl
@[simp] theorem raise_tbuf (e : Status) (s : State) : (raise e s).tbuf = s.tbuf := rfl
@[simp] theorem raise_cmdWord (e : Status) (s : State) : (raise e s).cmdWord = s.cmdWord := rfl
@[simp] theorem raise_cmdData (e : Status) (s : State) : (raise e s).cmdData = s.cmdData := rfl
@[simp] theorem raise_rsp (e : Status) (s : State) : (raise e s).rsp = some { status := e, data := 0#64 } := rfl
@[simp] theorem raise_exposed (e : Status) (s : State) : (raise e s).exposed = s.exposed := rfl
@[simp] theorem raise_inputs (e : Status) (s : State) : (raise e s).inputs = s.inputs := rfl
@[simp] theorem raise_draws (e : Status) (s : State) : (raise e s).draws = s.draws := rfl

@[simp] theorem consumeInput_par (s : State) : (consumeInput s).par = s.par := rfl
@[simp] theorem consumeInput_rom (s : State) : (consumeInput s).rom = s.rom := rfl
@[simp] theorem consumeInput_file (s : State) : (consumeInput s).file = s.file := rfl
@[simp] theorem consumeInput_phase (s : State) : (consumeInput s).phase = s.phase := rfl
@[simp] theorem consumeInput_len (s : State) : (consumeInput s).len = s.len := rfl
@[simp] theorem consumeInput_idx (s : State) : (consumeInput s).idx = s.idx := rfl
@[simp] theorem consumeInput_xbuf (s : State) : (consumeInput s).xbuf = s.xbuf := rfl
@[simp] theorem consumeInput_ybuf (s : State) : (consumeInput s).ybuf = s.ybuf := rfl
@[simp] theorem consumeInput_tbuf (s : State) : (consumeInput s).tbuf = s.tbuf := rfl
@[simp] theorem consumeInput_cmdWord (s : State) : (consumeInput s).cmdWord = s.cmdWord := rfl
@[simp] theorem consumeInput_cmdData (s : State) : (consumeInput s).cmdData = s.cmdData := rfl
@[simp] theorem consumeInput_rsp (s : State) : (consumeInput s).rsp = s.rsp := rfl
@[simp] theorem consumeInput_exposed (s : State) : (consumeInput s).exposed = s.exposed := rfl
@[simp] theorem consumeInput_inputs (s : State) : (consumeInput s).inputs = s.inputs.tail := rfl
@[simp] theorem consumeInput_draws (s : State) : (consumeInput s).draws = s.draws := rfl

@[simp] theorem accept_par (pin : PortIn) (s : State) : (accept pin s).par = s.par := rfl
@[simp] theorem accept_rom (pin : PortIn) (s : State) : (accept pin s).rom = s.rom := rfl
@[simp] theorem accept_file (pin : PortIn) (s : State) : (accept pin s).file = s.file := rfl
@[simp] theorem accept_phase (pin : PortIn) (s : State) : (accept pin s).phase = s.phase := rfl
@[simp] theorem accept_len (pin : PortIn) (s : State) : (accept pin s).len = s.len := rfl
@[simp] theorem accept_idx (pin : PortIn) (s : State) : (accept pin s).idx = s.idx := rfl
@[simp] theorem accept_xbuf (pin : PortIn) (s : State) : (accept pin s).xbuf = s.xbuf := rfl
@[simp] theorem accept_ybuf (pin : PortIn) (s : State) : (accept pin s).ybuf = s.ybuf := rfl
@[simp] theorem accept_tbuf (pin : PortIn) (s : State) : (accept pin s).tbuf = s.tbuf := rfl
@[simp] theorem accept_cmdWord (pin : PortIn) (s : State) : (accept pin s).cmdWord = pin.cmdWord := rfl
@[simp] theorem accept_cmdData (pin : PortIn) (s : State) : (accept pin s).cmdData = clip s.prec pin.cmdData := rfl
@[simp] theorem accept_rsp (pin : PortIn) (s : State) : (accept pin s).rsp = s.rsp := rfl
@[simp] theorem accept_exposed (pin : PortIn) (s : State) : (accept pin s).exposed = .nothing := rfl
@[simp] theorem accept_inputs (pin : PortIn) (s : State) : (accept pin s).inputs = s.inputs := rfl
@[simp] theorem accept_draws (pin : PortIn) (s : State) : (accept pin s).draws = s.draws := rfl

@[simp] theorem takeResponse_par (s : State) : (takeResponse s).par = s.par := rfl
@[simp] theorem takeResponse_rom (s : State) : (takeResponse s).rom = s.rom := rfl
@[simp] theorem takeResponse_file (s : State) : (takeResponse s).file = s.file := rfl
@[simp] theorem takeResponse_phase (s : State) : (takeResponse s).phase = s.phase := rfl
@[simp] theorem takeResponse_len (s : State) : (takeResponse s).len = s.len := rfl
@[simp] theorem takeResponse_idx (s : State) : (takeResponse s).idx = s.idx := rfl
@[simp] theorem takeResponse_xbuf (s : State) : (takeResponse s).xbuf = s.xbuf := rfl
@[simp] theorem takeResponse_ybuf (s : State) : (takeResponse s).ybuf = s.ybuf := rfl
@[simp] theorem takeResponse_tbuf (s : State) : (takeResponse s).tbuf = s.tbuf := rfl
@[simp] theorem takeResponse_cmdWord (s : State) : (takeResponse s).cmdWord = s.cmdWord := rfl
@[simp] theorem takeResponse_cmdData (s : State) : (takeResponse s).cmdData = s.cmdData := rfl
@[simp] theorem takeResponse_rsp (s : State) : (takeResponse s).rsp = none := rfl
@[simp] theorem takeResponse_exposed (s : State) : (takeResponse s).exposed = .nothing := rfl
@[simp] theorem takeResponse_inputs (s : State) : (takeResponse s).inputs = s.inputs := rfl
@[simp] theorem takeResponse_draws (s : State) : (takeResponse s).draws = s.draws := rfl

@[simp] theorem startFfilt_par (n : Nat) (s : State) : (startFfilt n s).par = s.par := rfl
@[simp] theorem startFfilt_rom (n : Nat) (s : State) : (startFfilt n s).rom = s.rom := rfl
@[simp] theorem startFfilt_file (n : Nat) (s : State) : (startFfilt n s).file = s.file := rfl
@[simp] theorem startFfilt_phase (n : Nat) (s : State) : (startFfilt n s).phase = .check := rfl
@[simp] theorem startFfilt_len (n : Nat) (s : State) : (startFfilt n s).len = n := rfl
@[simp] theorem startFfilt_idx (n : Nat) (s : State) : (startFfilt n s).idx = s.idx := rfl
@[simp] theorem startFfilt_xbuf (n : Nat) (s : State) : (startFfilt n s).xbuf = s.xbuf := rfl
@[simp] theorem startFfilt_ybuf (n : Nat) (s : State) : (startFfilt n s).ybuf = s.ybuf := rfl
@[simp] theorem startFfilt_tbuf (n : Nat) (s : State) : (startFfilt n s).tbuf = s.tbuf := rfl
@[simp] theorem startFfilt_cmdWord (n : Nat) (s : State) : (startFfilt n s).cmdWord = s.cmdWord := rfl
@[simp] theorem startFfilt_cmdData (n : Nat) (s : State) : (startFfilt n s).cmdData = s.cmdData := rfl
@[simp] theorem startFfilt_rsp (n : Nat) (s : State) : (startFfilt n s).rsp = s.rsp := rfl
@[simp] theorem startFfilt_exposed (n : Nat) (s : State) : (startFfilt n s).exposed = .ywords n := rfl
@[simp] theorem startFfilt_inputs (n : Nat) (s : State) : (startFfilt n s).inputs = s.inputs := rfl
@[simp] theorem startFfilt_draws (n : Nat) (s : State) : (startFfilt n s).draws = s.draws := rfl

@[simp] theorem clearState_nsec (s : State) : (clearState s).nsec = s.nsec := rfl
@[simp] theorem respond_nsec (v : Word) (s : State) : (respond v s).nsec = s.nsec := rfl
@[simp] theorem raise_nsec (e : Status) (s : State) : (raise e s).nsec = s.nsec := rfl
@[simp] theorem consumeInput_nsec (s : State) : (consumeInput s).nsec = s.nsec := rfl
@[simp] theorem accept_nsec (pin : PortIn) (s : State) : (accept pin s).nsec = s.nsec := rfl
@[simp] theorem takeResponse_nsec (s : State) : (takeResponse s).nsec = s.nsec := rfl
@[simp] theorem startFfilt_nsec (n : Nat) (s : State) : (startFfilt n s).nsec = s.nsec := rfl

@[simp] theorem clearState_prec (s : State) : (clearState s).prec = s.prec := rfl
@[simp] theorem respond_prec (v : Word) (s : State) : (respond v s).prec = s.prec := rfl
@[simp] theorem raise_prec (e : Status) (s : State) : (raise e s).prec = s.prec := rfl
@[simp] theorem consumeInput_prec (s : State) : (consumeInput s).prec = s.prec := rfl
@[simp] theorem accept_prec (pin : PortIn) (s : State) : (accept pin s).prec = s.prec := rfl
@[simp] theorem takeResponse_prec (s : State) : (takeResponse s).prec = s.prec := rfl
@[simp] theorem startFfilt_prec (n : Nat) (s : State) : (startFfilt n s).prec = s.prec := rfl

@[simp] theorem clearState_padLen (s : State) : padLen (clearState s) = padLen s := rfl
@[simp] theorem startFfilt_padLen (n : Nat) (s : State) : padLen (startFfilt n s) = padLen s := rfl
@[simp] theorem clearState_extLen (s : State) (n : Nat) : extLen (clearState s) n = extLen s n := rfl
@[simp] theorem startFfilt_extLen (k n : Nat) (s : State) :
    extLen (startFfilt k s) n = extLen s n := rfl

/-- What a cleared state file holds: `+0.0` in every register (R120). -/
@[simp] theorem clearState_w1 (s : State) (k : Nat) : (clearState s).w1 k = 0#64 := by
  simp [State.w1, zeroFile]

@[simp] theorem clearState_w2 (s : State) (k : Nat) : (clearState s).w2 k = 0#64 := by
  simp [State.w2, zeroFile]

@[simp] theorem zeroFile_length (n : Nat) : (zeroFile n).length = n := by simp [zeroFile]

/-- Two states with the same configuration have the same derived lengths. -/
theorem padLen_congr {s t : State} (hp : t.par = s.par) (hr : t.rom = s.rom) :
    padLen t = padLen s := by simp [padLen, State.nsec, hp, hr]

theorem extLen_congr {s t : State} (n : Nat) (hp : t.par = s.par) (hr : t.rom = s.rom) :
    extLen t n = extLen s n := by simp [extLen, padLen_congr hp hr]

end Sys2Proof.Machine
end

