-- ==== Sys2Proof/Laws/Ops.lean ====
section
/-! SUPPORT. One lemma per shared operation that says everything it can do; the provers cite these and
do not unfold the operations. -/

namespace Sys2Proof.Machine

/-- A read gives the written word and leaves the state alone, or gives a free word and takes one draw. -/
theorem readWord_cases (b : Bank) (i : Nat) (s : State) :
    (∃ v, memRead (s.buffer b) i = some v ∧ readWord b i s = (v, s))
    ∨ (memRead (s.buffer b) i = none
        ∧ readWord b i s = (clip s.prec (Config.freeWord s.draws), { s with draws := s.draws + 1 })) := by
  unfold readWord
  cases h : memRead (s.buffer b) i with
  | none => exact .inr ⟨rfl, rfl⟩
  | some v => exact .inl ⟨v, rfl, rfl⟩

theorem readWord_written {b : Bank} {i : Nat} {s : State} {v : Word}
    (h : memRead (s.buffer b) i = some v) : readWord b i s = (v, s) := by
  simp [readWord, h]

/-- A read changes at most the draw counter. -/
theorem readWord_state (b : Bank) (i : Nat) (s : State) :
    (readWord b i s).2 = { s with draws := (readWord b i s).2.draws } := by
  rcases readWord_cases b i s with ⟨v, _, h⟩ | ⟨_, h⟩ <;> rw [h]

@[simp] theorem readWord_par (b : Bank) (i : Nat) (s : State) : (readWord b i s).2.par = s.par := by
  rw [readWord_state]
@[simp] theorem readWord_rom (b : Bank) (i : Nat) (s : State) : (readWord b i s).2.rom = s.rom := by
  rw [readWord_state]
@[simp] theorem readWord_file (b : Bank) (i : Nat) (s : State) : (readWord b i s).2.file = s.file := by
  rw [readWord_state]
@[simp] theorem readWord_phase (b : Bank) (i : Nat) (s : State) :
    (readWord b i s).2.phase = s.phase := by rw [readWord_state]
@[simp] theorem readWord_len (b : Bank) (i : Nat) (s : State) : (readWord b i s).2.len = s.len := by
  rw [readWord_state]
@[simp] theorem readWord_idx (b : Bank) (i : Nat) (s : State) : (readWord b i s).2.idx = s.idx := by
  rw [readWord_state]
@[simp] theorem readWord_xbuf (b : Bank) (i : Nat) (s : State) : (readWord b i s).2.xbuf = s.xbuf := by
  rw [readWord_state]
@[simp] theorem readWord_ybuf (b : Bank) (i : Nat) (s : State) : (readWord b i s).2.ybuf = s.ybuf := by
  rw [readWord_state]
@[simp] theorem readWord_tbuf (b : Bank) (i : Nat) (s : State) : (readWord b i s).2.tbuf = s.tbuf := by
  rw [readWord_state]
@[simp] theorem readWord_cmdWord (b : Bank) (i : Nat) (s : State) :
    (readWord b i s).2.cmdWord = s.cmdWord := by rw [readWord_state]
@[simp] theorem readWord_cmdData (b : Bank) (i : Nat) (s : State) :
    (readWord b i s).2.cmdData = s.cmdData := by rw [readWord_state]
@[simp] theorem readWord_rsp (b : Bank) (i : Nat) (s : State) : (readWord b i s).2.rsp = s.rsp := by
  rw [readWord_state]
@[simp] theorem readWord_exposed (b : Bank) (i : Nat) (s : State) :
    (readWord b i s).2.exposed = s.exposed := by rw [readWord_state]
@[simp] theorem readWord_inputs (b : Bank) (i : Nat) (s : State) :
    (readWord b i s).2.inputs = s.inputs := by rw [readWord_state]

/-- An idle block opens what its last command left. -/
theorem openNow_idle {s : State} (h : s.phase = .idle) : openNow s = s.exposed := if_pos h

/-- A working controller opens the output of its `FFILT`. -/
theorem openNow_working {s : State} (h : s.phase ≠ .idle) : openNow s = .ywords s.len := if_neg h

/-- Only an idle block opens a word of XBUF. -/
theorem openNow_xword {s : State} {i : Nat} {old : Option Word} (h : openNow s = .xword i old) :
    s.phase = .idle ∧ s.exposed = .xword i old := by
  by_cases hp : s.phase = .idle
  · exact ⟨hp, openNow_idle hp ▸ h⟩
  · rw [openNow_working hp] at h
    cases h

/-- What an abandoned command leaves of the buffers (R217). -/
theorem abandon_cases (s : State) :
    (openNow s = .nothing ∧ abandon s = s)
    ∨ (∃ i old, openNow s = .xword i old
        ∧ (abandon s = s ∨ abandon s = { s with xbuf := memRestore s.xbuf i old }))
    ∨ (∃ n, openNow s = .ywords n ∧ abandon s = { s with ybuf := memEraseBelow s.ybuf n }) := by
  unfold abandon
  cases h : openNow s with
  | nothing => exact .inl ⟨rfl, rfl⟩
  | xword i old =>
    refine .inr (.inl ⟨i, old, rfl, ?_⟩)
    dsimp only
    split
    · exact .inl rfl
    · exact .inr rfl
  | ywords n => exact .inr (.inr ⟨n, rfl, rfl⟩)

/-- An abandoned command touches the buffers only. -/
theorem abandon_state (s : State) :
    abandon s = { s with xbuf := (abandon s).xbuf, ybuf := (abandon s).ybuf } := by
  rcases abandon_cases s with ⟨_, h⟩ | ⟨_, _, _, h | h⟩ | ⟨_, _, h⟩ <;> rw [h]

@[simp] theorem hardwareReset_par (s : State) : (hardwareReset s).par = s.par := by
  unfold hardwareReset; rw [abandon_state]
@[simp] theorem hardwareReset_rom (s : State) : (hardwareReset s).rom = s.rom := by
  unfold hardwareReset; rw [abandon_state]
@[simp] theorem hardwareReset_inputs (s : State) : (hardwareReset s).inputs = s.inputs := by
  unfold hardwareReset; rw [abandon_state]
@[simp] theorem hardwareReset_cmdData (s : State) : (hardwareReset s).cmdData = s.cmdData := by
  unfold hardwareReset; rw [abandon_state]
@[simp] theorem hardwareReset_file (s : State) : (hardwareReset s).file = zeroFile s.nsec := rfl
@[simp] theorem hardwareReset_phase (s : State) : (hardwareReset s).phase = .idle := rfl
@[simp] theorem hardwareReset_rsp (s : State) : (hardwareReset s).rsp = none := rfl
@[simp] theorem hardwareReset_exposed (s : State) : (hardwareReset s).exposed = .nothing := rfl
@[simp] theorem hardwareReset_tbuf (s : State) :
    (hardwareReset s).tbuf = (Config.freeWords (s.draws + 3)).map (clip s.prec) := rfl
@[simp] theorem hardwareReset_xbuf (s : State) : (hardwareReset s).xbuf = (abandon s).xbuf := rfl
@[simp] theorem hardwareReset_ybuf (s : State) : (hardwareReset s).ybuf = (abandon s).ybuf := rfl
@[simp] theorem hardwareReset_nsec (s : State) : (hardwareReset s).nsec = s.nsec := by
  simp [State.nsec]
@[simp] theorem hardwareReset_prec (s : State) : (hardwareReset s).prec = s.prec := by
  simp [State.prec]

end Sys2Proof.Machine
end

