-- ==== Sys2Proof/Laws/Cascade.lean ====
section
/-! SUPPORT. What a cascade step can do to the state, and the controller's rows. -/

namespace Sys2Proof.Machine

/-- The cascade keeps the number of register pairs. -/
@[simp] theorem cascade_length {α : Type} (ar : Arith α) (cs : List (Coeffs α)) :
    ∀ (ws : List (Delay α)) (d : Nat) (v : α), (cascade ar cs ws d v).2.length = ws.length := by
  induction cs with
  | nil => intros; simp [cascade]
  | cons c cs ih =>
    intro ws d v
    cases ws with
    | nil => simp [cascade]
    | cons w ws => simp [cascade, ih]

/-- A cascade step changes the state file and the draw counter only. -/
theorem cascadeStep_state (v : Word) (s : State) :
    (cascadeStep v s).2
      = { s with file := (cascadeStep v s).2.file, draws := s.draws + 9 * s.nsec } := rfl

@[simp] theorem cascadeStep_par (v : Word) (s : State) : (cascadeStep v s).2.par = s.par := rfl
@[simp] theorem cascadeStep_rom (v : Word) (s : State) : (cascadeStep v s).2.rom = s.rom := rfl
@[simp] theorem cascadeStep_phase (v : Word) (s : State) : (cascadeStep v s).2.phase = s.phase := rfl
@[simp] theorem cascadeStep_len (v : Word) (s : State) : (cascadeStep v s).2.len = s.len := rfl
@[simp] theorem cascadeStep_idx (v : Word) (s : State) : (cascadeStep v s).2.idx = s.idx := rfl
@[simp] theorem cascadeStep_xbuf (v : Word) (s : State) : (cascadeStep v s).2.xbuf = s.xbuf := rfl
@[simp] theorem cascadeStep_ybuf (v : Word) (s : State) : (cascadeStep v s).2.ybuf = s.ybuf := rfl
@[simp] theorem cascadeStep_tbuf (v : Word) (s : State) : (cascadeStep v s).2.tbuf = s.tbuf := rfl
@[simp] theorem cascadeStep_cmdWord (v : Word) (s : State) :
    (cascadeStep v s).2.cmdWord = s.cmdWord := rfl
@[simp] theorem cascadeStep_cmdData (v : Word) (s : State) :
    (cascadeStep v s).2.cmdData = s.cmdData := rfl
@[simp] theorem cascadeStep_rsp (v : Word) (s : State) : (cascadeStep v s).2.rsp = s.rsp := rfl
@[simp] theorem cascadeStep_exposed (v : Word) (s : State) :
    (cascadeStep v s).2.exposed = s.exposed := rfl
@[simp] theorem cascadeStep_inputs (v : Word) (s : State) :
    (cascadeStep v s).2.inputs = s.inputs := rfl
@[simp] theorem cascadeStep_draws (v : Word) (s : State) :
    (cascadeStep v s).2.draws = s.draws + 9 * s.nsec := rfl
@[simp] theorem cascadeStep_file_length (v : Word) (s : State) :
    (cascadeStep v s).2.file.length = s.file.length := by simp [cascadeStep]

/-- Everything a row of the controller's table can do (R156). -/
theorem tick_cases (s : State) :
    (s.phase = .idle ∧ tick s = s)
    ∨ (s.phase = .check ∧ s.par.nmax < s.len ∧ tick s = raise .lengthExceedsCapacity s)
    ∨ (s.phase = .check ∧ s.len ≤ s.par.nmax ∧ s.len ≤ padLen s
        ∧ tick s = raise .insufficientSamples s)
    ∨ (s.phase = .check ∧ s.len ≤ s.par.nmax ∧ padLen s < s.len ∧ tick s = { s with phase := .clear1 })
    ∨ (s.phase = .clear1 ∧ tick s = { clearState s with idx := 0, tbuf := [], phase := .fwd })
    ∨ (s.phase = .fwd ∧ ∃ x t y u, readWord .x (xaddr s.len (padLen s) s.idx) s = (x, t)
        ∧ cascadeStep x t = (y, u)
        ∧ (s.idx + 1 < extLen s s.len
              ∧ tick s = { u with tbuf := s.tbuf ++ [y], idx := s.idx + 1 }
            ∨ extLen s s.len ≤ s.idx + 1
              ∧ tick s = { u with tbuf := s.tbuf ++ [y], phase := .clear2 }))
    ∨ (s.phase = .clear2
        ∧ tick s = { clearState s with idx := extLen s s.len - 1, phase := .bwd })
    ∨ (s.phase = .bwd ∧ ∃ y u, cascadeStep (s.tbuf.getD s.idx 0#64) s = (y, u)
        ∧ (0 < s.idx ∧ tick s = { u with tbuf := s.tbuf.set s.idx y, idx := s.idx - 1 }
            ∨ s.idx = 0 ∧ tick s = { u with tbuf := s.tbuf.set s.idx y, phase := .done }))
    ∨ (s.phase = .done ∧ tick s = respond 0#64
        { s with ybuf := memWriteAll s.ybuf 0 ((s.tbuf.drop (padLen s)).take s.len) }) := by
  unfold tick
  split
  next h => exact .inl ⟨h, rfl⟩
  next h =>
    refine .inr ?_
    by_cases h1 : s.par.nmax < s.len
    · rw [if_pos h1]; exact .inl ⟨h, h1, rfl⟩
    · rw [if_neg h1]
      by_cases h2 : s.len ≤ padLen s
      · rw [if_pos h2]; exact .inr (.inl ⟨h, Nat.not_lt.mp h1, h2, rfl⟩)
      · rw [if_neg h2]
        exact .inr (.inr (.inl ⟨h, Nat.not_lt.mp h1, Nat.not_le.mp h2, rfl⟩))
  next h => exact .inr (.inr (.inr (.inr (.inl ⟨h, rfl⟩))))
  next h =>
    refine .inr (.inr (.inr (.inr (.inr (.inl ⟨h, _, _, _, _, rfl, rfl, ?_⟩)))))
    by_cases h1 : s.idx + 1 < extLen s s.len
    · exact .inl ⟨h1, if_pos h1⟩
    · exact .inr ⟨Nat.not_lt.mp h1, if_neg h1⟩
  next h => exact .inr (.inr (.inr (.inr (.inr (.inr (.inl ⟨h, rfl⟩))))))
  next h =>
    refine .inr (.inr (.inr (.inr (.inr (.inr (.inr (.inl ⟨h, _, _, rfl, ?_⟩)))))))
    by_cases h1 : 0 < s.idx
    · exact .inl ⟨h1, if_pos h1⟩
    · exact .inr ⟨Nat.eq_zero_of_not_pos h1, if_neg h1⟩
  next h => exact .inr (.inr (.inr (.inr (.inr (.inr (.inr (.inr ⟨h, rfl⟩)))))))

/-- What no row of the table changes: the configuration, XBUF, the latches, the inputs, `LEN` and what a
reset would leave open. -/
theorem tick_frame (s : State) :
    (tick s).par = s.par ∧ (tick s).rom = s.rom ∧ (tick s).xbuf = s.xbuf
      ∧ (tick s).cmdWord = s.cmdWord ∧ (tick s).cmdData = s.cmdData ∧ (tick s).inputs = s.inputs
      ∧ (tick s).len = s.len ∧ (tick s).exposed = s.exposed := by
  rcases tick_cases s with ⟨_, h⟩ | ⟨_, _, h⟩ | ⟨_, _, _, h⟩ | ⟨_, _, _, h⟩ | ⟨_, h⟩
    | ⟨_, x, t, y, u, h1, h2, ⟨_, h⟩ | ⟨_, h⟩⟩ | ⟨_, h⟩ | ⟨_, y, u, h2, ⟨_, h⟩ | ⟨_, h⟩⟩ | ⟨_, h⟩
  case inr.inr.inr.inr.inr.inl.inl | inr.inr.inr.inr.inr.inl.inr =>
    have e1 : t = (readWord .x (xaddr s.len (padLen s) s.idx) s).2 := by rw [h1]
    have e2 : u = (cascadeStep x t).2 := by rw [h2]
    rw [h, e2, e1]; simp
  case inr.inr.inr.inr.inr.inr.inr.inl.inl | inr.inr.inr.inr.inr.inr.inr.inl.inr =>
    have e2 : u = (cascadeStep (s.tbuf.getD s.idx 0#64) s).2 := by rw [h2]
    rw [h, e2]; simp
  all_goals rw [h]; simp

/-- What holds before a walk and is kept by every row holds after it. -/
theorem walk_induct {P : State → Prop} (hstep : ∀ s, s.phase ≠ .idle → P s → P (tick s)) :
    ∀ (fuel : Nat) (s : State), P s → P (walk fuel s) := by
  intro fuel
  induction fuel with
  | zero => intro s h; exact h
  | succ k ih =>
    intro s h
    simp only [walk]
    split
    · exact h
    · exact ih _ (hstep s ‹_› h)

/-- A walk does not change what no row changes. -/
theorem walk_frame (fuel : Nat) (s : State) :
    (walk fuel s).par = s.par ∧ (walk fuel s).rom = s.rom ∧ (walk fuel s).xbuf = s.xbuf
      ∧ (walk fuel s).cmdWord = s.cmdWord ∧ (walk fuel s).cmdData = s.cmdData
      ∧ (walk fuel s).inputs = s.inputs ∧ (walk fuel s).len = s.len
      ∧ (walk fuel s).exposed = s.exposed := by
  refine walk_induct (P := fun t => t.par = s.par ∧ t.rom = s.rom ∧ t.xbuf = s.xbuf
    ∧ t.cmdWord = s.cmdWord ∧ t.cmdData = s.cmdData ∧ t.inputs = s.inputs ∧ t.len = s.len
    ∧ t.exposed = s.exposed) ?_ fuel s ⟨rfl, rfl, rfl, rfl, rfl, rfl, rfl, rfl⟩
  intro t _ h
  obtain ⟨a, b, c, d, e, f, g, i⟩ := tick_frame t
  rw [a, b, c, d, e, f, g, i]
  exact h

end Sys2Proof.Machine
end

