-- ==== Sys2Proof/Laws/Decode.lean ====
section
/-! SUPPORT. The decoder read on the number of the word instead of its bit fields. -/

namespace Sys2Proof

theorem bits_opcode (w : BitVec 32) : bits w 31 28 = w.toNat / 2 ^ 28 := by
  have := w.isLt
  unfold bits
  omega

theorem bits_reserved (w : BitVec 32) : bits w 27 24 = w.toNat / 2 ^ 24 % 16 := rfl

theorem bits_argument (w : BitVec 32) : bits w 23 0 = w.toNat % 2 ^ 24 := by
  unfold bits
  omega

theorem bits_bank (w : BitVec 32) : bits w 23 23 = w.toNat / 2 ^ 23 % 2 := rfl

theorem bits_index (w : BitVec 32) : bits w 22 0 = w.toNat % 2 ^ 23 := by
  unfold bits
  omega

/-- The decoder as a function of its five fields, each named by an equation (R66). -/
theorem decode_fields (w : BitVec 32) {rsv op arg bank idx : Nat} (hr : w.toNat / 2 ^ 24 % 16 = rsv)
    (ho : w.toNat / 2 ^ 28 = op) (ha : w.toNat % 2 ^ 24 = arg) (hb : w.toNat / 2 ^ 23 % 2 = bank)
    (hi : w.toNat % 2 ^ 23 = idx) :
    decode w =
      if rsv ≠ 0 then .error .reservedField
      else match op with
        | 1 => if arg = 0 then .ok .rst else .error .argument
        | 2 => if arg = 0 then .ok .proc else .error .argument
        | 3 => .ok (.ffilt arg)
        | 4 => if bank = 0 then .ok (.wrbuf idx) else .error .bankBit
        | 5 => .ok (.rdbuf (bankOf bank) idx)
        | 6 => .ok (.rdflt arg)
        | _ => .error .opcode := by
  subst hr ho ha hb hi
  unfold decode
  simp only [bits_opcode, bits_reserved, bits_argument, bits_bank, bits_index]
  all_goals rfl

end Sys2Proof
end

