-- ==== Sys2Proof/Laws/Real.lean ====
section
/-! SUPPORT. What the reals of the block are as words: packing and reading back, NaNs, and that every
operation returns a word of the format. -/

namespace Sys2Proof.Machine

theorem signBit_pos (p : Prec) : 0 < signBit p := by cases p <;> decide

theorem two_signBit (p : Prec) : 2 * signBit p = 2 ^ wordWidth p := by cases p <;> decide

theorem width_le (p : Prec) : 2 ^ wordWidth p ≤ 2 ^ 64 := by cases p <;> decide

theorem infBits_lt (p : Prec) : infBits p + 2 ^ fracBits p = signBit p := by cases p <;> decide

/-- A packed word reads back as the number it was packed from. -/
theorem pack_toNat (p : Prec) (neg : Bool) {mag : Nat} (h : mag < signBit p) :
    (pack p neg mag).toNat = mag + if neg then signBit p else 0 := by
  have h1 := two_signBit p
  have h2 := width_le p
  unfold pack
  rw [BitVec.toNat_ofNat, Nat.mod_eq_of_lt]
  split <;> omega

@[simp] theorem magBits_pack (p : Prec) (neg : Bool) {mag : Nat} (h : mag < signBit p) :
    magBits p (pack p neg mag) = mag := by
  unfold magBits
  rw [pack_toNat p neg h]
  split
  · rw [Nat.add_mod_right, Nat.mod_eq_of_lt h]
  · rw [Nat.add_zero, Nat.mod_eq_of_lt h]

@[simp] theorem isNeg_pack (p : Prec) (neg : Bool) {mag : Nat} (h : mag < signBit p) :
    isNeg p (pack p neg mag) = neg := by
  have h1 := signBit_pos p
  unfold isNeg
  rw [pack_toNat p neg h]
  cases neg
  · simp [Nat.div_eq_of_lt h]
  · simp [Nat.add_div_right _ h1, Nat.div_eq_of_lt h]

@[simp] theorem fits_pack (p : Prec) (neg : Bool) {mag : Nat} (h : mag < signBit p) :
    fits p (pack p neg mag) = true := by
  have h1 := two_signBit p
  unfold fits
  rw [pack_toNat p neg h, decide_eq_true_eq]
  split <;> omega

/-- A word of the format is its sign and its magnitude bits. -/
theorem pack_isNeg_magBits (p : Prec) {w : Word} (h : fits p w = true) :
    pack p (isNeg p w) (magBits p w) = w := by
  have h1 := two_signBit p
  have h2 := signBit_pos p
  simp only [fits, decide_eq_true_eq] at h
  have hd : w.toNat / signBit p < 2 := Nat.div_lt_of_lt_mul (by rw [Nat.mul_comm]; omega)
  have hm := Nat.div_add_mod w.toNat (signBit p)
  have hmod : w.toNat % signBit p < signBit p := Nat.mod_lt _ h2
  apply BitVec.eq_of_toNat_eq
  rw [pack_toNat p _ (by unfold magBits; exact hmod)]
  unfold magBits isNeg
  rcases (Nat.lt_succ_iff.mp hd).eq_or_lt.symm.imp_left Nat.lt_one_iff.mp with h3 | h3 <;>
    rw [h3] at hm ⊢ <;> simp <;> omega

theorem magBits_lt (p : Prec) (w : Word) : magBits p w < signBit p := Nat.mod_lt _ (signBit_pos p)

theorem nanOf_mag_lt (p : Prec) (raw : Word) :
    infBits p + (if raw.toNat % 2 ^ fracBits p = 0 then 1 else raw.toNat % 2 ^ fracBits p)
      < signBit p := by
  have h1 := infBits_lt p
  have h2 : raw.toNat % 2 ^ fracBits p < 2 ^ fracBits p := Nat.mod_lt _ (Nat.two_pow_pos _)
  have h3 : 1 < 2 ^ fracBits p := by cases p <;> decide
  split <;> omega

/-- Whatever the bits, a NaN is made of them. -/
@[simp] theorem isNaN_nanOf (p : Prec) (raw : Word) : isNaN p (nanOf p raw) = true := by
  unfold isNaN nanOf
  rw [magBits_pack p _ (nanOf_mag_lt p raw), decide_eq_true_eq]
  split <;> omega

@[simp] theorem fits_nanOf (p : Prec) (raw : Word) : fits p (nanOf p raw) = true :=
  fits_pack p _ (nanOf_mag_lt p raw)

@[simp] theorem isNaN_drawnNaN (p : Prec) (draw : Nat) : isNaN p (drawnNaN p draw) = true :=
  isNaN_nanOf p _

@[simp] theorem fits_drawnNaN (p : Prec) (draw : Nat) : fits p (drawnNaN p draw) = true :=
  fits_nanOf p _

/-- Every NaN of the format is made of some bits. -/
theorem exists_nanOf (p : Prec) {w : Word} (hf : fits p w = true) (hn : isNaN p w = true) :
    ∃ raw, nanOf p raw = w := by
  have h1 := infBits_lt p
  have hm := magBits_lt p w
  simp only [isNaN, decide_eq_true_eq] at hn
  refine ⟨BitVec.ofNat 64 (magBits p w - infBits p + if isNeg p w then 2 ^ 63 else 0), ?_⟩
  have hlt : magBits p w - infBits p < 2 ^ fracBits p := by omega
  have hfr : 2 ^ fracBits p ≤ 2 ^ 63 := by cases p <;> decide
  have hdvd : 2 ^ 63 % 2 ^ fracBits p = 0 := by cases p <;> decide
  have e : (BitVec.ofNat 64 (magBits p w - infBits p + if isNeg p w then 2 ^ 63 else 0)).toNat
      = magBits p w - infBits p + if isNeg p w then 2 ^ 63 else 0 := by
    rw [BitVec.toNat_ofNat, Nat.mod_eq_of_lt]; split <;> omega
  unfold nanOf
  rw [e]
  have e1 : (magBits p w - infBits p + if isNeg p w then 2 ^ 63 else 0) % 2 ^ fracBits p
      = magBits p w - infBits p := by
    split
    · rw [Nat.add_mod, hdvd, Nat.add_zero, Nat.mod_mod, Nat.mod_eq_of_lt hlt]
    · rw [Nat.add_zero, Nat.mod_eq_of_lt hlt]
  rw [e1, if_neg (show ¬ magBits p w - infBits p = 0 by omega), Nat.add_sub_cancel' (Nat.le_of_lt hn)]
  have e2 : decide ((magBits p w - infBits p + if isNeg p w then 2 ^ 63 else 0) / 2 ^ 63 % 2 = 1)
      = isNeg p w := by
    cases isNeg p w
    · simp; omega
    · simp; omega
  rw [e2]
  exact pack_isNeg_magBits p hf

@[simp] theorem fits_clip (p : Prec) (w : Word) : fits p (clip p w) = true := by
  have h := width_le p
  have h0 : w.toNat % 2 ^ wordWidth p < 2 ^ wordWidth p := Nat.mod_lt _ (Nat.two_pow_pos _)
  simp only [fits, clip, BitVec.toNat_ofNat, decide_eq_true_eq]
  rw [Nat.mod_eq_of_lt (by omega)]
  exact h0

/-- Clipping a word of the format changes nothing. -/
theorem clip_eq (p : Prec) {w : Word} (h : fits p w = true) : clip p w = w := by
  simp only [fits, decide_eq_true_eq] at h
  have h1 := width_le p
  apply BitVec.eq_of_toNat_eq
  rw [clip, BitVec.toNat_ofNat, Nat.mod_eq_of_lt h, Nat.mod_eq_of_lt (by omega)]

theorem infBits_lt_signBit (p : Prec) : infBits p < signBit p := by cases p <;> decide

/-- A word is a NaN, an infinity or finite: how its datum reads. -/
theorem datum_cases (p : Prec) (w : Word) :
    (datum p w = .nan ∧ isNaN p w = true ∧ isFinite p w = false)
    ∨ (datum p w = .inf (isNeg p w) ∧ isNaN p w = false ∧ isFinite p w = false
        ∧ magBits p w = infBits p)
    ∨ (datum p w = .fin (isNeg p w) (unitsOf p (magBits p w)) ∧ isNaN p w = false
        ∧ isFinite p w = true) := by
  unfold datum isNaN isFinite
  rcases Nat.lt_trichotomy (magBits p w) (infBits p) with h | h | h
  · rw [if_neg (by omega), if_neg (by omega)]
    exact .inr (.inr ⟨rfl, by simp; omega, by simp [h]⟩)
  · rw [if_neg (by omega), if_pos h]
    exact .inr (.inl ⟨rfl, by simp; omega, by simp; omega, h⟩)
  · rw [if_pos h]
    exact .inl ⟨rfl, by simp [h], by simp; omega⟩

theorem roundMag_le (p : Prec) (num sh : Nat) : roundMag p num sh ≤ infBits p := Nat.min_le_right _ _

theorem roundMag_lt (p : Prec) (num sh : Nat) : roundMag p num sh < signBit p :=
  Nat.lt_of_le_of_lt (roundMag_le p num sh) (infBits_lt_signBit p)

@[simp] theorem fits_roundUnits (p : Prec) (neg : Bool) (num sh : Nat) :
    fits p (roundUnits p neg num sh) = true := fits_pack p neg (roundMag_lt p num sh)

@[simp] theorem fits_infWord (p : Prec) (neg : Bool) : fits p (infWord p neg) = true :=
  fits_pack p neg (infBits_lt_signBit p)

theorem datum_infWord (p : Prec) (neg : Bool) : datum p (infWord p neg) = .inf neg := by
  have h := infBits_lt_signBit p
  unfold datum infWord
  rw [magBits_pack p neg h, if_neg (by omega), if_pos rfl, isNeg_pack p neg h]

theorem addFinite_fits (p : Prec) (s : Bool) (x : Nat) (t : Bool) (y : Nat) :
    fits p (addFinite p s x t y) = true := by
  unfold addFinite
  split
  · exact fits_roundUnits ..
  · split
    · exact fits_roundUnits ..
    · split
      · exact fits_roundUnits ..
      · exact fits_pack p false (signBit_pos p)

/-- Turning the sign over keeps the kind and the magnitude. -/
theorem datum_negate (p : Prec) (w : Word) :
    datum p (negate p w) = match datum p w with
      | .nan => .nan
      | .inf s => .inf (!s)
      | .fin s u => .fin (!s) u := by
  have h := magBits_lt p w
  unfold negate
  conv_lhs => unfold datum
  rw [magBits_pack p _ h, isNeg_pack p _ h]
  unfold datum
  split
  · rfl
  · split <;> rfl

/-! ### Reading a datum -/

theorem unitsOf_eq_zero (p : Prec) (m : Nat) : unitsOf p m = 0 ↔ m = 0 := by
  have hp := Nat.two_pow_pos (fracBits p)
  have hm := Nat.div_add_mod m (2 ^ fracBits p)
  unfold unitsOf
  dsimp only
  split
  · rename_i h; rw [h] at hm; constructor <;> intro h' <;> omega
  · rename_i h
    constructor
    · intro h'
      have := Nat.mul_pos (show 0 < 2 ^ fracBits p + m % 2 ^ fracBits p by omega)
        (Nat.two_pow_pos (m / 2 ^ fracBits p - 1))
      omega
    · rintro rfl; simp at h

theorem datum_of_isNaN {p : Prec} {w : Word} (h : isNaN p w = true) : datum p w = .nan := by
  rcases datum_cases p w with ⟨h1, _⟩ | ⟨_, h1, _⟩ | ⟨_, h1, _⟩
  · exact h1
  · rw [h] at h1; cases h1
  · rw [h] at h1; cases h1

theorem datum_of_isFinite {p : Prec} {w : Word} (h : isFinite p w = true) :
    datum p w = .fin (isNeg p w) (unitsOf p (magBits p w)) := by
  rcases datum_cases p w with ⟨_, _, h1⟩ | ⟨_, _, h1, _⟩ | ⟨h1, _⟩
  · rw [h] at h1; cases h1
  · rw [h] at h1; cases h1
  · exact h1

@[simp] theorem isNaN_negate (p : Prec) (w : Word) : isNaN p (negate p w) = isNaN p w := by
  simp only [isNaN, negate, magBits_pack p _ (magBits_lt p w)]

/-! ### Rounding -/

@[simp] theorem roundMag_zero (p : Prec) (sh : Nat) : roundMag p 0 sh = 0 := by
  simp [roundMag, roundDiv]

/-- The rounded quotient is the whole quotient or the one after it. -/
theorem roundDiv_bounds (num sh : Nat) :
    num / 2 ^ sh ≤ roundDiv num sh ∧ roundDiv num sh ≤ num / 2 ^ sh + 1 := by
  unfold roundDiv
  dsimp only
  split <;> omega

/-- The exponent `e` of the result's last place: below `2^(sh+e+fracBits+1)`, not below
`2^(sh+e+fracBits)` unless the result is subnormal, and the significand between the hidden bit and twice
the hidden bit. -/
theorem roundMag_parts (p : Prec) (num sh : Nat) :
    let e := Nat.log2 num - (sh + fracBits p)
    roundDiv num (sh + e) ≤ 2 ^ (fracBits p + 1)
      ∧ (e = 0 ∨ 2 ^ fracBits p ≤ roundDiv num (sh + e))
      ∧ num < 2 ^ (sh + e + fracBits p + 1)
      ∧ (e = 0 ∨ 2 ^ (sh + e + fracBits p) ≤ num) := by
  intro e
  have hlt : num < 2 ^ (sh + e + fracBits p + 1) :=
    lt_of_lt_of_le Nat.lt_log2_self (Nat.pow_le_pow_right (by decide) (by omega))
  have hge : e = 0 ∨ 2 ^ (sh + e + fracBits p) ≤ num := by
    by_cases he : e = 0
    · exact .inl he
    · right
      have hn : num ≠ 0 := by rintro rfl; simp [e] at he
      have h3 : sh + e + fracBits p = Nat.log2 num := by omega
      rw [h3]
      exact Nat.log2_self_le hn
  have hdiv : num / 2 ^ (sh + e) < 2 ^ (fracBits p + 1) := by
    rw [Nat.div_lt_iff_lt_mul (Nat.two_pow_pos _), ← pow_add,
      show fracBits p + 1 + (sh + e) = sh + e + fracBits p + 1 by ring]
    exact hlt
  have hq := roundDiv_bounds num (sh + e)
  refine ⟨by omega, ?_, hlt, hge⟩
  rcases hge with h | h
  · exact .inl h
  · right
    have : 2 ^ fracBits p ≤ num / 2 ^ (sh + e) := by
      rw [Nat.le_div_iff_mul_le (Nat.two_pow_pos _), ← pow_add, Nat.add_comm]
      exact h
    omega

/-- An exponent and a significand up to twice the hidden bit, added, are the magnitude bits of their
product. -/
theorem unitsOf_compose (p : Prec) (e q : Nat) (h1 : q ≤ 2 ^ (fracBits p + 1))
    (h2 : e = 0 ∨ 2 ^ fracBits p ≤ q) : unitsOf p (e * 2 ^ fracBits p + q) = q * 2 ^ e := by
  have hp := Nat.two_pow_pos (fracBits p)
  rw [pow_succ] at h1
  unfold unitsOf
  generalize 2 ^ fracBits p = t at *
  rcases Nat.lt_or_ge q t with hq | hq
  · obtain rfl : e = 0 := by omega
    simp [Nat.div_eq_of_lt hq, Nat.mod_eq_of_lt hq]
  · rcases Nat.lt_or_ge q (2 * t) with hq2 | hq2
    · obtain ⟨f, rfl⟩ := Nat.exists_eq_add_of_le hq
      have hf : f < t := by omega
      have e0 : e * t + (t + f) = f + (e + 1) * t := by ring
      have e1 : (e * t + (t + f)) / t = e + 1 := by
        rw [e0, Nat.add_mul_div_right _ _ hp, Nat.div_eq_of_lt hf]; omega
      have e2 : (e * t + (t + f)) % t = f := by
        rw [e0, Nat.add_mul_mod_self_right, Nat.mod_eq_of_lt hf]
      simp [e1, e2]
    · obtain rfl : q = 2 * t := by omega
      have e0 : e * t + 2 * t = 0 + (e + 2) * t := by ring
      have e1 : (e * t + 2 * t) / t = e + 2 := by rw [e0, Nat.add_mul_div_right _ _ hp]; simp
      have e2 : (e * t + 2 * t) % t = 0 := by rw [e0, Nat.add_mul_mod_self_right]; simp
      simp [e1, e2, pow_succ]
      ring

end Sys2Proof.Machine
end

