-- ==== Sys2Proof/Laws/Design.lean ====
section
/-! SUPPORT. What the checks of the design operations mean over the rationals, that a designed section is
well-formed, that the exact band-pass sections exist, and when their `a2` is zero. -/

namespace Sys2Proof.Machine

/-- The denominator of a unit, as a rational number. -/
def unitScale : ℚ := 2 ^ unitBits .double

theorem unitScale_pos : 0 < unitScale := pow_pos (by norm_num) _

theorem toRat_of_isFinite {w : Word} (h : isFinite .double w = true) :
    toRat .double w
      = some ((if isNeg .double w then -(dUnits w : ℚ) else (dUnits w : ℚ)) / unitScale) := by
  unfold toRat
  rw [datum_of_isFinite h]
  rfl

theorem isFinite_of_toRat {w : Word} {x : ℚ} (h : toRat .double w = some x) :
    isFinite .double w = true := by
  unfold toRat at h
  rcases datum_cases .double w with ⟨h1, _⟩ | ⟨h1, _⟩ | ⟨_, _, h2⟩
  · rw [h1] at h; cases h
  · rw [h1] at h; cases h
  · exact h2

theorem toRat_of_positive {w : Word} (h : positive w = true) :
    toRat .double w = some ((dUnits w : ℚ) / unitScale) := by
  simp only [positive, Bool.and_eq_true, Bool.not_eq_true', decide_eq_true_eq] at h
  rw [toRat_of_isFinite h.1.1, h.1.2]
  rfl

/-- `positive` is being a rational number above zero. -/
theorem positive_iff (w : Word) : positive w = true ↔ ∃ x : ℚ, toRat .double w = some x ∧ 0 < x := by
  have hz := unitsOf_eq_zero .double (magBits .double w)
  have hc := unitScale_pos
  constructor
  · intro h
    refine ⟨_, toRat_of_positive h, div_pos ?_ hc⟩
    simp only [positive, Bool.and_eq_true, Bool.not_eq_true', decide_eq_true_eq] at h
    exact Nat.cast_pos.mpr (Nat.pos_of_ne_zero (fun h' => h.2 (hz.mp h')))
  · rintro ⟨x, h, hx⟩
    have h1 := isFinite_of_toRat h
    rw [toRat_of_isFinite h1] at h
    have h2 := Option.some.inj h
    rw [← h2, div_pos_iff_of_pos_right hc] at hx
    have h3 : (0 : ℚ) ≤ dUnits w := Nat.cast_nonneg _
    simp only [positive, Bool.and_eq_true, Bool.not_eq_true', decide_eq_true_eq]
    cases hn : isNeg .double w
    · refine ⟨⟨h1, rfl⟩, fun h' => ?_⟩
      have h0 : dUnits w = 0 := hz.mpr h'
      rw [hn, h0] at hx
      simp at hx
    · rw [hn, if_pos rfl] at hx
      linarith

/-- The two checks on a frequency and the sampling frequency are `0 < f < Fs/2` and `0 < Fs`. -/
theorem goodFrequency_iff (f fs : Word) :
    goodFrequency f fs ↔ positive fs = true ∧ (positive f && belowNyquist f fs) = true := by
  have hc := unitScale_pos
  have key : (dUnits f : ℚ) / unitScale < (dUnits fs : ℚ) / unitScale / 2
      ↔ belowNyquist f fs = true := by
    simp only [belowNyquist, decide_eq_true_eq]
    rw [div_div, mul_comm unitScale 2, ← div_div, div_lt_div_iff_of_pos_right hc,
      lt_div_iff₀ (by norm_num)]
    constructor
    · intro h
      have h1 : ((dUnits f * 2 : Nat) : ℚ) < dUnits fs := by push_cast; exact h
      have := Nat.cast_lt.mp h1
      omega
    · intro h
      have h1 : ((dUnits f * 2 : Nat) : ℚ) < dUnits fs := Nat.cast_lt.mpr (by omega)
      push_cast at h1
      exact h1
  constructor
  · rintro ⟨x, y, h1, h2, h3, h4, h5⟩
    have p1 := (positive_iff f).mpr ⟨x, h1, h3⟩
    have p2 := (positive_iff fs).mpr ⟨y, h2, h4⟩
    rw [toRat_of_positive p1] at h1
    rw [toRat_of_positive p2] at h2
    rw [← Option.some.inj h1, ← Option.some.inj h2] at h5
    exact ⟨p2, by rw [p1, key.mp h5]; rfl⟩
  · rintro ⟨p2, h⟩
    simp only [Bool.and_eq_true] at h
    obtain ⟨x, h1, h2⟩ := (positive_iff f).mp h.1
    obtain ⟨y, h3, h4⟩ := (positive_iff fs).mp p2
    refine ⟨x, y, h1, h3, h2, h4, ?_⟩
    rw [toRat_of_positive h.1] at h1
    rw [toRat_of_positive p2] at h3
    rw [← Option.some.inj h1, ← Option.some.inj h3]
    exact key.mpr h.2

/-! ### A section moved inside the unit circle is well-formed -/

theorem infBits_pos (p : Prec) : 0 < infBits p := by cases p <;> decide

/-- A finite magnitude packs to a coefficient of the format. -/
theorem coefficientOk_pack (p : Prec) (neg : Bool) {m : Nat} (h : m < infBits p) :
    coefficientOk p (pack p neg m) = true := by
  have h1 : m < signBit p := h.trans (infBits_lt_signBit p)
  simp [coefficientOk, isFinite, h1, h]

theorem coefficientOk_finiteWord (p : Prec) (w : Word) :
    coefficientOk p (finiteWord p w) = true := by
  have := infBits_pos p
  exact coefficientOk_pack p _ (by omega)

/-- A finite word of the format stays as it is. -/
theorem finiteWord_eq (p : Prec) {w : Word} (h : coefficientOk p w = true) : finiteWord p w = w := by
  simp only [coefficientOk, isFinite, Bool.and_eq_true, decide_eq_true_eq] at h
  unfold finiteWord
  rw [Nat.min_eq_left (by omega)]
  exact pack_isNeg_magBits p h.2

/-- `floorMag` is a finite magnitude: the units cut to the significand's length. -/
theorem floorMag_spec (p : Prec) {n : Nat} (h : n < 2 ^ (unitBits p + 1)) :
    floorMag p n < infBits p
      ∧ unitsOf p (floorMag p n)
        = n / 2 ^ (Nat.log2 n - fracBits p) * 2 ^ (Nat.log2 n - fracBits p) := by
  have hlog : Nat.log2 n ≤ unitBits p := by
    by_cases h0 : n = 0
    · simp [h0]
    · exact Nat.lt_succ_iff.mp ((Nat.log2_lt h0).mpr h)
  have hq : n / 2 ^ (Nat.log2 n - fracBits p) < 2 ^ (fracBits p + 1) := by
    rw [Nat.div_lt_iff_lt_mul (Nat.two_pow_pos _), ← pow_add]
    exact lt_of_lt_of_le Nat.lt_log2_self (Nat.pow_le_pow_right (by decide) (by omega))
  have hge : Nat.log2 n - fracBits p = 0 ∨ 2 ^ fracBits p ≤ n / 2 ^ (Nat.log2 n - fracBits p) := by
    by_cases h0 : Nat.log2 n - fracBits p = 0
    · exact .inl h0
    · right
      have hn : n ≠ 0 := by rintro rfl; simp at h0
      rw [Nat.le_div_iff_mul_le (Nat.two_pow_pos _), ← pow_add,
        show fracBits p + (Nat.log2 n - fracBits p) = Nat.log2 n by omega]
      exact Nat.log2_self_le hn
  unfold floorMag
  dsimp only
  refine ⟨?_, unitsOf_compose p _ _ hq.le hge⟩
  have h1 : (Nat.log2 n - fracBits p) * 2 ^ fracBits p ≤ (unitBits p - fracBits p) * 2 ^ fracBits p :=
    Nat.mul_le_mul_right _ (by omega)
  have h2 : (unitBits p - fracBits p) * 2 ^ fracBits p + 2 ^ (fracBits p + 1) ≤ infBits p := by
    cases p <;> decide
  omega

/-- Everything `below` can do: the word itself where it is below `n` units, else the largest real below
`n` of its sign, which is at most the last place of `n - 1` less. -/
theorem below_cases (p : Prec) {n : Nat} {w : Word} (hw : coefficientOk p w = true) (h0 : 0 < n)
    (h : n ≤ 2 ^ (unitBits p + 1)) :
    coefficientOk p (below p n w) = true ∧ unitsOf p (magBits p (below p n w)) < n
      ∧ isNeg p (below p n w) = isNeg p w
      ∧ (unitsOf p (magBits p w) < n ∧ below p n w = w
        ∨ n ≤ unitsOf p (magBits p w)
          ∧ n ≤ unitsOf p (magBits p (below p n w)) + 2 ^ (Nat.log2 (n - 1) - fracBits p)) := by
  unfold below
  split
  · exact ⟨hw, ‹_›, rfl, .inl ⟨‹_›, rfl⟩⟩
  · obtain ⟨h1, h2⟩ := floorMag_spec p (n := n - 1) (by omega)
    have h3 := h1.trans (infBits_lt_signBit p)
    have h4 := Nat.div_add_mod' (n - 1) (2 ^ (Nat.log2 (n - 1) - fracBits p))
    have h5 := Nat.mod_lt (n - 1) (Nat.two_pow_pos (Nat.log2 (n - 1) - fracBits p))
    refine ⟨coefficientOk_pack p _ h1, ?_, isNeg_pack p _ h3, .inr ⟨by omega, ?_⟩⟩ <;>
      rw [magBits_pack p _ h3, h2] <;> omega

theorem a2Room_pos (p : Prec) (a1 a2 : Word) : 0 < a2Room p a1 a2 := by
  have := Nat.two_pow_pos (unitBits p)
  unfold a2Room
  dsimp only
  split
  · rename_i h
    simp only [Bool.and_eq_true, decide_eq_true_eq] at h
    exact Nat.sub_pos_of_lt (by linarith [h.2])
  · exact this

theorem a2Room_le (p : Prec) (a1 a2 : Word) : a2Room p a1 a2 ≤ 2 ^ unitBits p := by
  unfold a2Room
  dsimp only
  split
  · exact Nat.sub_le _ _
  · exact le_refl _

/-- A finite word below 1 in magnitude leaves `1 + a2` above 0 and below 2. -/
theorem one_add_signedUnits {p : Prec} {a2 : Word} (h : unitsOf p (magBits p a2) < 2 ^ unitBits p) :
    0 < (2 : Int) ^ unitBits p + signedUnits p a2
      ∧ (2 ^ unitBits p + signedUnits p a2).toNat ≤ 2 ^ (unitBits p + 1)
      ∧ (((2 ^ unitBits p + signedUnits p a2).toNat : Nat) : Int)
        = 2 ^ unitBits p + signedUnits p a2 := by
  have hs : 0 < (2 : Int) ^ unitBits p + signedUnits p a2
      ∧ (2 : Int) ^ unitBits p + signedUnits p a2 < 2 * 2 ^ unitBits p := by
    have : ((unitsOf p (magBits p a2) : Nat) : Int) < 2 ^ unitBits p := by exact_mod_cast h
    unfold signedUnits
    split <;> constructor <;> linarith [Int.natCast_nonneg (unitsOf p (magBits p a2))]
  obtain ⟨n, hn⟩ := Int.eq_ofNat_of_zero_le hs.1.le
  rw [hn] at hs ⊢
  refine ⟨hs.1, ?_, rfl⟩
  rw [Int.toNat_natCast, pow_succ, mul_comm]
  exact_mod_cast hs.2.le

/-- Whatever the section, the one `insideCircle` gives is well-formed (R24 (c), (d)). -/
theorem sectionOk_insideCircle (p : Prec) (c : Coeffs Word) :
    sectionOk p (insideCircle p c) = true := by
  have hb : 2 ^ (unitBits p + 1) = 2 * 2 ^ unitBits p := by rw [pow_succ]; ring
  have hr := a2Room_le p (finiteWord p c.a1) c.a2
  obtain ⟨k2, u2, -, -⟩ := below_cases p (coefficientOk_finiteWord p c.a2)
    (a2Room_pos p (finiteWord p c.a1) c.a2) (by omega)
  generalize ha2 : below p (a2Room p (finiteWord p c.a1) c.a2) (finiteWord p c.a2) = a2 at k2 u2
  obtain ⟨h1, h2, h3⟩ := one_add_signedUnits (lt_of_lt_of_le u2 hr)
  obtain ⟨k1, u1, -, -⟩ := below_cases p (coefficientOk_finiteWord p c.a1)
    (n := (2 ^ unitBits p + signedUnits p a2).toNat) (by omega) h2
  simp only [sectionOk, insideCircle, ha2, coefficientOk_finiteWord, k1, k2, polesInside,
    Bool.and_eq_true, decide_eq_true_eq, true_and]
  exact ⟨by omega, by omega⟩

/-- Everything `storeSection` can do: the first well-formed one of the roundings, or where there is none
the nearest section moved inside the unit circle. -/
theorem storeSection_cases (p : Prec) (c : Coeffs Fx) :
    (storeSection p c ∈ roundings p c ∧ sectionOk p (storeSection p c) = true)
    ∨ ((∀ w ∈ roundings p c, sectionOk p w = false)
      ∧ storeSection p c = insideCircle p (nearestSection p c)) := by
  unfold storeSection
  cases h : (roundings p c).find? (sectionOk p) with
  | some w => exact .inl ⟨List.mem_of_find?_eq_some h, List.find?_some (p := sectionOk p) h⟩
  | none => exact .inr ⟨fun w hw => Bool.eq_false_iff.mpr (List.find?_eq_none.mp h w hw), rfl⟩

/-- Every stored section is well-formed (R24 (c), (d), R113 (a)). -/
theorem sectionOk_storeSection (p : Prec) (c : Coeffs Fx) : sectionOk p (storeSection p c) = true := by
  rcases storeSection_cases p c with ⟨-, h⟩ | ⟨-, h⟩
  · exact h
  · rw [h]; exact sectionOk_insideCircle p _

/-- A section whose rounding to nearest is well-formed is stored so (R104). -/
theorem storeSection_eq (p : Prec) {c : Coeffs Fx} (h : sectionOk p (nearestSection p c) = true) :
    storeSection p c = nearestSection p c := by
  unfold storeSection roundings
  cases p <;> simp [h]

theorem orderOk_iff (maxsec : Nat) (ord : Int) :
    orderOk maxsec ord = true ↔ 0 < ord ∧ ord ≤ 2 * (maxsec : Int) := by
  simp [orderOk]

/-! ### The exact band-pass sections exist -/

/-- A pre-warped frequency is positive (R91). -/
theorem prewarped_pos {f fs omega : ℝ} (h0 : 0 < f) (h1 : f < fs / 2) (h : IsPrewarped f fs omega) :
    0 < omega := by
  have hfs : 0 < fs := by linarith
  have hpi := Real.pi_pos
  have ht : 0 < Real.tan (Real.pi * f / fs) := by
    apply Real.tan_pos_of_pos_of_lt_pi_div_two (by positivity)
    rw [div_lt_iff₀ hfs]
    nlinarith
  rw [h]
  positivity

/-- Pre-warping keeps the order of frequencies (R91). -/
theorem prewarped_lt {f g fs omega omega' : ℝ} (h0 : 0 < f) (h1 : f < g) (h2 : g < fs / 2)
    (h : IsPrewarped f fs omega) (h' : IsPrewarped g fs omega') : omega < omega' := by
  have hfs : 0 < fs := by linarith
  have hpi := Real.pi_pos
  have ht : Real.tan (Real.pi * f / fs) < Real.tan (Real.pi * g / fs) := by
    apply Real.tan_lt_tan_of_lt_of_lt_pi_div_two
    · have : 0 < Real.pi * f / fs := by positivity
      linarith
    · rw [div_lt_iff₀ hfs]
      nlinarith
    · gcongr
  rw [h, h']
  nlinarith

/-- Every complex number has a principal square root (R94). -/
theorem exists_principalSqrt (w : ℂ) : ∃ d, IsPrincipalSqrt w d := by
  obtain ⟨d, hd⟩ := IsAlgClosed.exists_pow_nat_eq w (n := 2) (by norm_num)
  have hn : (-d) ^ 2 = w := by rw [neg_sq, hd]
  rcases lt_trichotomy d.re 0 with h | h | h
  · exact ⟨-d, hn, .inl (by simpa using h)⟩
  · rcases le_total 0 d.im with h' | h'
    · exact ⟨d, hd, .inr ⟨h, h'⟩⟩
    · exact ⟨-d, hn, .inr ⟨by simp [h], by simpa using h'⟩⟩
  · exact ⟨d, hd, .inl h⟩

/-- Every denominator has its band-pass section (R96, R103). -/
theorem exists_bandpassSection (fs centre a1 a2 : ℝ) : ∃ (c : Coeffs ℝ) (g : ℝ),
    c.a1 = a1 ∧ c.a2 = a2 ∧ IsBandGain fs centre c g ∧ HasNumerator g 1 0 (-1) c := by
  obtain ⟨g, w, zc, hg⟩ : ∃ g, IsBandGain fs centre { b0 := 0, b1 := 0, b2 := 0, a1 := a1, a2 := a2 } g :=
    ⟨_, _, _, rfl, rfl, rfl⟩
  exact ⟨{ b0 := g * 1, b1 := g * 0, b2 := g * -1, a1 := a1, a2 := a2 }, g, rfl, rfl, ⟨w, zc, hg⟩,
    rfl, rfl, rfl⟩

/-- Every analog pole has a band-pass section (R97, R103). -/
theorem exists_bandpassPair (fs centre : ℝ) (s : ℂ) : ∃ c, IsBandpassPair fs centre s c :=
  let ⟨c, g, h1, h2, h3⟩ := exists_bandpassSection fs centre _ _
  ⟨c, _, g, rfl, ⟨h1, h2⟩, h3⟩

/-- The digital images of two analog poles with a real sum `-width` and product `centre` have a real sum
and a real product (R95, R99). -/
theorem bilinear_pair {fs width centre : ℝ} {s1 s2 z1 z2 : ℂ}
    (hD : 0 < 4 * fs ^ 2 + 2 * fs * width + centre) (hs : s1 + s2 = -(width : ℂ))
    (hm : s1 * s2 = (centre : ℂ)) (h1 : IsBilinear fs s1 z1) (h2 : IsBilinear fs s2 z2) :
    z1 + z2 = (((8 * fs ^ 2 - 2 * centre) / (4 * fs ^ 2 + 2 * fs * width + centre) : ℝ) : ℂ)
      ∧ z1 * z2 = (((4 * fs ^ 2 - 2 * fs * width + centre)
        / (4 * fs ^ 2 + 2 * fs * width + centre) : ℝ) : ℂ) := by
  have hprod : (2 * (fs : ℂ) - s1) * (2 * (fs : ℂ) - s2)
      = ((4 * fs ^ 2 + 2 * fs * width + centre : ℝ) : ℂ) := by
    push_cast
    linear_combination (-2 * (fs : ℂ)) * hs + hm
  have hne : (2 * (fs : ℂ) - s1) * (2 * (fs : ℂ) - s2) ≠ 0 := by
    rw [hprod]
    exact_mod_cast hD.ne'
  rw [h1, h2, Complex.ofReal_div, Complex.ofReal_div, ← hprod,
    div_add_div _ _ (left_ne_zero_of_mul hne) (right_ne_zero_of_mul hne), div_mul_div_comm]
  constructor
  · congr 1
    push_cast
    linear_combination (-2) * hm
  · congr 1
    push_cast
    linear_combination (2 * (fs : ℂ)) * hs + hm

/-- The exact `a2` of the band-pass section of an odd order is zero exactly where the edges lie a quarter
of the sampling rate apart (R91, R95, R99); a2Cancels decides it. -/
theorem bandpassOdd_a2_eq_zero_iff {flow fhigh fs : ℝ} {c : Coeffs ℝ} (h0 : 0 < flow) (h1 : flow < fhigh)
    (h2 : fhigh < fs / 2) (h : IsBandpassOdd flow fhigh fs c) :
    c.a2 = 0 ↔ fhigh - flow = fs / 4 := by
  obtain ⟨s1, s2, z1, z2, width, centre, g, ⟨ol, oh, hl, hh, hw, hc⟩, hs, hm, hz1, hz2, -, ha2, -, -⟩ := h
  have hfs : 0 < fs := by linarith
  have hol := prewarped_pos h0 (by linarith) hl
  have hoh := prewarped_pos (by linarith) h2 hh
  have hlt := prewarped_lt h0 h1 h2 hl hh
  have hpos : 0 < 4 * fs ^ 2 + 2 * fs * width + centre := by
    have := sub_pos.mpr hlt
    rw [hw, hc]
    positivity
  have key : c.a2 = 0 ↔ 4 * fs ^ 2 - 2 * fs * (oh - ol) + ol * oh = 0 := by
    rw [(bilinear_pair hpos hs hm hz1 hz2).2, Complex.ofReal_inj] at ha2
    rw [ha2, div_eq_zero_iff, or_iff_left hpos.ne', hw, hc]
  rw [key]
  -- in terms of the angles
  have hpi := Real.pi_pos
  have a0 : 0 < Real.pi * flow / fs := by positivity
  have b1 : Real.pi * fhigh / fs < Real.pi / 2 := by rw [div_lt_iff₀ hfs]; nlinarith
  have ab : Real.pi * flow / fs < Real.pi * fhigh / fs := by
    rw [div_lt_div_iff_of_pos_right hfs]; exact mul_lt_mul_of_pos_left h1 hpi
  have hA : 0 < Real.cos (Real.pi * flow / fs) := Real.cos_pos_of_mem_Ioo ⟨by linarith, by linarith⟩
  have hB : 0 < Real.cos (Real.pi * fhigh / fs) := Real.cos_pos_of_mem_Ioo ⟨by linarith, by linarith⟩
  have hx : Real.pi * fhigh / fs - Real.pi * flow / fs = Real.pi * (fhigh - flow) / fs := by ring
  have heq : (4 * fs ^ 2 - 2 * fs * (oh - ol) + ol * oh)
        * (Real.cos (Real.pi * flow / fs) * Real.cos (Real.pi * fhigh / fs))
      = 4 * fs ^ 2 * (Real.cos (Real.pi * (fhigh - flow) / fs) - Real.sin (Real.pi * (fhigh - flow) / fs)) := by
    rw [← hx, Real.cos_sub, Real.sin_sub, hl, hh, Real.tan_eq_sin_div_cos, Real.tan_eq_sin_div_cos]
    field_simp
    ring
  have hne : Real.cos (Real.pi * flow / fs) * Real.cos (Real.pi * fhigh / fs) ≠ 0 := (mul_pos hA hB).ne'
  rw [← mul_eq_zero_iff_left hne, mul_comm, heq, mul_eq_zero_iff_left (by positivity), sub_eq_zero,
    ← Real.sin_pi_div_two_sub]
  have x0 : 0 < Real.pi * (fhigh - flow) / fs := by rw [← hx]; linarith
  have x1 : Real.pi * (fhigh - flow) / fs < Real.pi / 2 := by rw [← hx]; linarith
  constructor
  · intro he
    have := Real.injOn_sin ⟨by linarith, by linarith⟩ ⟨by linarith, by linarith⟩ he
    field_simp at this
    linarith
  · intro he
    rw [he]
    congr 1
    field_simp
    ring

/-- The band-pass section of the real prototype pole exists (R99). -/
theorem exists_bandpassOdd {flow fhigh fs : ℝ} (h0 : 0 < flow) (h1 : flow < fhigh)
    (h2 : fhigh < fs / 2) : ∃ c, IsBandpassOdd flow fhigh fs c := by
  obtain ⟨ol, hl⟩ : ∃ ol, IsPrewarped flow fs ol := ⟨_, rfl⟩
  obtain ⟨oh, hh⟩ : ∃ oh, IsPrewarped fhigh fs oh := ⟨_, rfl⟩
  have pl := prewarped_pos h0 (h1.trans h2) hl
  have ph := prewarped_lt h0 h1 h2 hl hh
  have hfs : 0 < fs := by linarith
  have hw : 0 < oh - ol := by linarith
  have ho : 0 < oh := by linarith
  obtain ⟨r, hr⟩ := IsAlgClosed.exists_pow_nat_eq
    (((oh - ol : ℝ) : ℂ) ^ 2 - 4 * ((ol * oh : ℝ) : ℂ)) (n := 2) (by norm_num)
  have hs : (-((oh - ol : ℝ) : ℂ) + r) / 2 + (-((oh - ol : ℝ) : ℂ) - r) / 2
      = -((oh - ol : ℝ) : ℂ) := by ring
  have hm : (-((oh - ol : ℝ) : ℂ) + r) / 2 * ((-((oh - ol : ℝ) : ℂ) - r) / 2)
      = ((ol * oh : ℝ) : ℂ) := by linear_combination (-1 / 4 : ℂ) * hr
  obtain ⟨e1, e2⟩ := bilinear_pair (fs := fs) (by positivity) hs hm rfl rfl
  obtain ⟨c, g, a1, a2, hc⟩ := exists_bandpassSection fs (ol * oh) (-_) _
  exact ⟨c, _, _, _, _, _, _, g, ⟨ol, oh, hl, hh, rfl, rfl⟩, hs, hm, rfl, rfl,
    by rw [a1, e1, ← Complex.ofReal_neg], by rw [a2, e2], hc⟩

end Sys2Proof.Machine
end

