-- ==== Sys2Proof/Laws/Filtfilt.lean ====
section
/-! SUPPORT. The passes of `FFILT` and the walk of the controller: lengths, what they leave alone, and
how a walk is cut into shorter ones. -/

namespace Sys2Proof.Machine

@[simp] theorem forwardPass_length (as : List Nat) :
    ∀ s : State, (forwardPass as s).1.length = as.length := by
  induction as with
  | nil => intro s; rfl
  | cons a as ih => intro s; simp [forwardPass, ih]

@[simp] theorem cascadeAll_length (vs : List Word) :
    ∀ s : State, (cascadeAll vs s).1.length = vs.length := by
  induction vs with
  | nil => intro s; rfl
  | cons v vs ih => intro s; simp [cascadeAll, ih]

/-- A forward pass changes the state file and the draw counter only. -/
theorem forwardPass_state (as : List Nat) :
    ∀ s : State, (forwardPass as s).2
      = { s with file := (forwardPass as s).2.file, draws := (forwardPass as s).2.draws } := by
  induction as with
  | nil => intro s; rfl
  | cons a as ih =>
    intro s
    simp only [forwardPass]
    rw [ih, cascadeStep_state, readWord_state]

/-- A backward pass changes the state file and the draw counter only. -/
theorem cascadeAll_state (vs : List Word) :
    ∀ s : State, (cascadeAll vs s).2
      = { s with file := (cascadeAll vs s).2.file, draws := (cascadeAll vs s).2.draws } := by
  induction vs with
  | nil => intro s; rfl
  | cons v vs ih =>
    intro s
    simp only [cascadeAll]
    rw [ih, cascadeStep_state]

/-- A walk from a working controller does one row first. -/
theorem walk_succ (fuel : Nat) (s : State) (h : s.phase ≠ .idle) :
    walk (fuel + 1) s = walk fuel (tick s) := by
  simp [walk, h]

/-- An idle controller does not move. -/
theorem walk_idle (fuel : Nat) (s : State) (h : s.phase = .idle) : walk fuel s = s := by
  cases fuel <;> simp [walk, h]

/-- A walk of `a + b` rows is a walk of `a` rows and then one of `b`. -/
theorem walk_add (a : Nat) : ∀ (b : Nat) (s : State), walk (a + b) s = walk b (walk a s) := by
  induction a with
  | zero => intro b s; simp [walk]
  | succ a ih =>
    intro b s
    by_cases h : s.phase = .idle
    · rw [walk_idle _ _ h, walk_idle _ _ h, walk_idle _ _ h]
    · rw [Nat.succ_add, walk_succ _ _ h, walk_succ _ _ h, ih]

/-- An `FFILT` is a walk from `CHECK` (R156). -/
theorem exec_ffilt (n : Nat) (s : State) :
    exec (.ffilt n) s = .next (walk (walkLength s n) (startFfilt n s)) := rfl

end Sys2Proof.Machine
end

