-- ==== Sys2Proof/Laws/PerInstr.lean ====
section
/-! SUPPORT. The family OpcodeMap: the word of every well-formed command is accepted by its row of the
opcode map (spec 30_encoding R70) and by no other. -/

namespace Sys2Proof.Laws.OpcodeMap

/-- The rows of the map that accept a word, by mnemonic. -/
def rowsOf (w : BitVec 32) : List String :=
  (Sys2Proof.opcodeRows.filter (fun r => r.accepts w)).map (·.mnemonic)

/-- The mnemonic of a command. -/
def mnemonic : Sys2Proof.Instr → String
  | .rst => "RST"
  | .proc => "PROC"
  | .ffilt _ => "FFILT"
  | .wrbuf _ => "WRBUF"
  | .rdbuf _ _ => "RDBUF"
  | .rdflt _ => "RDFLT"

/-- The encoded word matches exactly the command's own row. -/
def Statement (i : Sys2Proof.Instr) : Prop :=
  i.wellFormed = true → rowsOf (Sys2Proof.encode i) = [mnemonic i]

/-- Masking the top bits of a word is dropping its low bits. -/
theorem and_mask (k : Nat) (hk : k ≤ 32) (w : BitVec 32) (p : BitVec 32) (m : Nat)
    (hm : m = 2 ^ 32 - 2 ^ k) (hp : p.toNat % 2 ^ k = 0) :
    (w &&& BitVec.ofNat 32 m == p) = decide (w.toNat / 2 ^ k = p.toNat / 2 ^ k) := by
  have key : (w &&& BitVec.ofNat 32 m).toNat = w.toNat / 2 ^ k * 2 ^ k := by
    have hmm : BitVec.ofNat 32 m = BitVec.allOnes 32 <<< k := by
      apply BitVec.eq_of_toNat_eq
      rw [BitVec.toNat_ofNat, BitVec.toNat_shiftLeft, BitVec.toNat_allOnes, Nat.shiftLeft_eq, hm,
        Nat.sub_mul, ← pow_add, Nat.one_mul]
      have h2 : 2 ^ k ≤ 2 ^ 32 := Nat.pow_le_pow_right (by decide) hk
      have h3 : 2 ^ (32 + k) = 2 ^ 32 * 2 ^ k := pow_add 2 32 k
      have h1 : 0 < 2 ^ k := Nat.two_pow_pos k
      have : 2 ^ (32 + k) - 2 ^ k = (2 ^ 32 - 2 ^ k) + 2 ^ 32 * (2 ^ k - 1) := by
        rw [h3, Nat.mul_sub]; have : 2 ^ 32 ≤ 2 ^ 32 * 2 ^ k := Nat.le_mul_of_pos_right _ h1
        omega
      rw [this, Nat.add_mul_mod_self_left]
    rw [hmm]
    have : w &&& BitVec.allOnes 32 <<< k = (w >>> k) <<< k := by
      apply BitVec.eq_of_getLsbD_eq
      intro i hi
      simp only [BitVec.getLsbD_and, BitVec.getLsbD_shiftLeft, BitVec.getLsbD_ushiftRight]
      by_cases hik : i < k
      · simp [hik]
      · rw [BitVec.getLsbD_allOnes, show k + (i - k) = i by omega]
        simp [hik, hi, show i - k < 32 by omega]
    rw [this, BitVec.toNat_shiftLeft, BitVec.toNat_ushiftRight, Nat.shiftLeft_eq,
      Nat.shiftRight_eq_div_pow]
    apply Nat.mod_eq_of_lt
    exact lt_of_le_of_lt (Nat.div_mul_le_self _ _) w.isLt
  have hp' : p.toNat = p.toNat / 2 ^ k * 2 ^ k := by
    have := Nat.div_add_mod p.toNat (2 ^ k); rw [hp, Nat.mul_comm] at this; omega
  have h1 : 0 < 2 ^ k := Nat.two_pow_pos k
  by_cases h : w.toNat / 2 ^ k = p.toNat / 2 ^ k
  · simp only [h, decide_true, beq_iff_eq]
    exact BitVec.eq_of_toNat_eq (by rw [key, h, ← hp'])
  · simp only [h, decide_false, beq_eq_false_iff_ne, ne_eq]
    intro he
    apply h
    have := congrArg BitVec.toNat he
    rw [key, hp'] at this
    exact Nat.eq_of_mul_eq_mul_right h1 this

/-- Which rows accept a word, read off its leading bits. -/
theorem rowsOf_eq (w : BitVec 32) :
    rowsOf w =
      (if w.toNat = 0x10000000 then ["RST"] else [])
      ++ (if w.toNat = 0x20000000 then ["PROC"] else [])
      ++ (if w.toNat / 2 ^ 24 = 0x30 then ["FFILT"] else [])
      ++ (if w.toNat / 2 ^ 23 = 0x80 then ["WRBUF"] else [])
      ++ (if w.toNat / 2 ^ 24 = 0x50 then ["RDBUF"] else [])
      ++ (if w.toNat / 2 ^ 24 = 0x60 then ["RDFLT"] else []) := by
  have h1 := and_mask 0 (by decide) w 0x10000000#32 0xFFFFFFFF (by decide) (by decide)
  have h2 := and_mask 0 (by decide) w 0x20000000#32 0xFFFFFFFF (by decide) (by decide)
  have h3 := and_mask 24 (by decide) w 0x30000000#32 0xFF000000 (by decide) (by decide)
  have h4 := and_mask 23 (by decide) w 0x40000000#32 0xFF800000 (by decide) (by decide)
  have h5 := and_mask 24 (by decide) w 0x50000000#32 0xFF000000 (by decide) (by decide)
  have h6 := and_mask 24 (by decide) w 0x60000000#32 0xFF000000 (by decide) (by decide)
  simp only [rowsOf, Sys2Proof.opcodeRows, Sys2Proof.OpcodeRow.accepts, List.filter_cons,
    List.filter_nil, h1, h2, h3, h4, h5, h6, decide_eq_true_eq]
  simp only [pow_zero, Nat.div_one, BitVec.toNat_ofNat]
  norm_num
  split_ifs <;> simp_all

theorem rst : Statement .rst := by intro _; rw [rowsOf_eq]; decide
theorem proc : Statement .proc := by intro _; rw [rowsOf_eq]; decide

theorem ffilt (n : Nat) : Statement (.ffilt n) := by
  intro h
  simp only [Sys2Proof.Instr.wellFormed, decide_eq_true_eq] at h
  have e : (Sys2Proof.encode (.ffilt n)).toNat = 0x30000000 + n := by
    simp only [Sys2Proof.encode, BitVec.toNat_ofNat]; omega
  rw [rowsOf_eq, e]
  rw [if_neg (by omega), if_neg (by omega), if_pos (by omega), if_neg (by omega), if_neg (by omega),
    if_neg (by omega)]
  rfl

theorem wrbuf (i : Nat) : Statement (.wrbuf i) := by
  intro h
  simp only [Sys2Proof.Instr.wellFormed, decide_eq_true_eq] at h
  have e : (Sys2Proof.encode (.wrbuf i)).toNat = 0x40000000 + i := by
    simp only [Sys2Proof.encode, BitVec.toNat_ofNat]; omega
  rw [rowsOf_eq, e]
  rw [if_neg (by omega), if_neg (by omega), if_neg (by omega), if_pos (by omega), if_neg (by omega),
    if_neg (by omega)]
  rfl

theorem rdbuf (bank : Sys2Proof.Bank) (i : Nat) : Statement (.rdbuf bank i) := by
  intro h
  simp only [Sys2Proof.Instr.wellFormed, decide_eq_true_eq] at h
  have hb : Sys2Proof.bankBit bank < 2 := by cases bank <;> decide
  have e : (Sys2Proof.encode (.rdbuf bank i)).toNat
      = 0x50000000 + Sys2Proof.bankBit bank * 2 ^ 23 + i := by
    simp only [Sys2Proof.encode, BitVec.toNat_ofNat]; omega
  rw [rowsOf_eq, e]
  rw [if_neg (by omega), if_neg (by omega), if_neg (by omega), if_neg (by omega), if_pos (by omega),
    if_neg (by omega)]
  rfl

theorem rdflt (a : Nat) : Statement (.rdflt a) := by
  intro h
  simp only [Sys2Proof.Instr.wellFormed, decide_eq_true_eq] at h
  have e : (Sys2Proof.encode (.rdflt a)).toNat = 0x60000000 + a := by
    simp only [Sys2Proof.encode, BitVec.toNat_ofNat]; omega
  rw [rowsOf_eq, e]
  rw [if_neg (by omega), if_neg (by omega), if_neg (by omega), if_neg (by omega), if_neg (by omega),
    if_pos (by omega)]
  rfl

end Sys2Proof.Laws.OpcodeMap
end

