-- ==== Sys2Proof/Laws/Safety.lean ====
section
/-! SUPPORT. The parts of the invariant over the buffers and the state file. -/

namespace Sys2Proof.Machine

@[simp] theorem fits_zero (p : Prec) : fits p 0#64 = true := by simp [fits]

theorem fits_memRead {p : Prec} {m : Memory} {i : Nat} {v : Word} (h : memFits p m = true)
    (hv : memRead m i = some v) : fits p v = true := by
  induction m with
  | nil => simp [memRead] at hv
  | cons c r ih =>
    obtain ⟨j, u⟩ := c
    simp only [memFits, List.all_cons, Bool.and_eq_true] at h
    simp only [memRead] at hv
    split at hv
    · exact Option.some.inj hv ▸ h.1
    · exact ih h.2 hv

theorem memFits_memWrite {p : Prec} {m : Memory} {v : Word} (i : Nat) (h : memFits p m = true)
    (hv : fits p v = true) : memFits p (memWrite m i v) = true := by
  induction m with
  | nil => simp [memWrite, memFits, hv]
  | cons c r ih =>
    obtain ⟨j, u⟩ := c
    simp only [memFits, List.all_cons, Bool.and_eq_true] at h ih
    simp only [memWrite]
    split
    · simp only [memFits, List.all_cons, Bool.and_eq_true]; exact ⟨hv, h.1, h.2⟩
    · split
      · simp only [memFits, List.all_cons, Bool.and_eq_true]; exact ⟨hv, h.2⟩
      · simp only [memFits, List.all_cons, Bool.and_eq_true]; exact ⟨h.1, ih h.2⟩

theorem memFits_filter {p : Prec} {m : Memory} (f : Nat × Word → Bool) (h : memFits p m = true) :
    memFits p (m.filter f) = true := by
  simp only [memFits, List.all_eq_true] at h ⊢
  exact fun c hc => h c (List.mem_of_mem_filter hc)

theorem memFits_memWriteAll {p : Prec} (vs : List Word) :
    ∀ (m : Memory) (j : Nat), memFits p m = true → vs.all (fits p) = true →
      memFits p (memWriteAll m j vs) = true := by
  induction vs with
  | nil => intro m j h _; exact h
  | cons v vs ih =>
    intro m j h hv
    simp only [List.all_cons, Bool.and_eq_true] at hv
    exact ih _ _ (memFits_memWrite j h hv.1) hv.2

@[simp] theorem fileFits_zeroFile (p : Prec) (n : Nat) : fileFits p (zeroFile n) = true := by
  simp [fileFits, zeroFile]

/-- Every register of a file that fits, and every register past its end, fits. -/
theorem fits_registers {s : State} (p : Prec) (h : fileFits p s.file = true) (k : Nat) :
    fits p (s.w1 k) = true ∧ fits p (s.w2 k) = true := by
  simp only [State.w1, State.w2, List.getD]
  cases hk : s.file[k]? with
  | none => exact ⟨fits_zero p, fits_zero p⟩
  | some w =>
    simp only [fileFits, List.all_eq_true, Bool.and_eq_true] at h
    exact h w (List.mem_of_getElem? hk)

/-! ### Runs of a few steps -/

/-- One more step at the end of a run. -/
theorem stepsTo_snoc {n : Nat} : ∀ {s t u : State}, stepsTo n s t → step t = .next u →
    stepsTo (n + 1) s u := by
  induction n with
  | zero => rintro s t u rfl h; exact ⟨u, h, rfl⟩
  | succ n ih => rintro s t u ⟨v, h1, h2⟩ h; exact ⟨v, h1, ih h2 h⟩

/-- A waiting response is held over edges without `rst` at which the host does not take it (R35). -/
theorem stepsTo_held (held : List PortIn) : ∀ (s : State) (rest : List PortIn), s.phase = .idle →
    s.rsp ≠ none → s.inputs = held ++ rest → (∀ q ∈ held, q.rst = false ∧ q.rspReady = false) →
      stepsTo held.length s { s with inputs := rest } := by
  induction held with
  | nil => rintro s rest _ _ h _; simp only [List.nil_append] at h; subst h; exact rfl
  | cons q qs ih =>
    intro s rest hp hr hi hq
    obtain ⟨h1, h2⟩ := hq q List.mem_cons_self
    have hs : s.rsp.isSome = true := Option.isSome_iff_ne_none.mpr hr
    refine ⟨{ s with inputs := qs ++ rest }, ?_,
      ih { s with inputs := qs ++ rest } rest hp hr rfl fun r hr' => hq r (List.mem_cons_of_mem _ hr')⟩
    simp [step, nextInput, consumeInput, hi, h1, h2, hp, hs]

/-- A waiting response held over some edges and then withdrawn by a reset (R35, R217). -/
theorem stepsTo_reset {held : List PortIn} {s : State} (hp : s.phase = .idle) (hr : s.rsp ≠ none)
    (h : resetAfter held s) :
    ∃ rest, stepsTo (held.length + 1) s (hardwareReset { s with inputs := rest }) := by
  obtain ⟨pin, rest, hi, hrst, hq⟩ := h
  refine ⟨rest, stepsTo_snoc (stepsTo_held held s (pin :: rest) hp hr hi hq) ?_⟩
  simp [step, nextInput, consumeInput, hrst]

end Sys2Proof.Machine
end

