-- ==== Sys2Proof/Laws/Step.lean ====
section
/-! SUPPORT. Everything one step of the machine can do. -/

namespace Sys2Proof.Machine

/-- One clock edge: a reset, a row of the controller, a response taken, a command executed, an illegal
word answered, or nothing but the passing of the edge. -/
theorem step_cases {s t : State} (h : step s = .next t) :
    ((nextInput s).rst = true ∧ t = hardwareReset (consumeInput s))
    ∨ ((nextInput s).rst = false
      ∧ ((s.phase ≠ .idle ∧ t = tick (consumeInput s))
        ∨ (s.phase = .idle ∧ s.rsp ≠ none ∧ (nextInput s).rspReady = true
            ∧ t = takeResponse (consumeInput s))
        ∨ (s.phase = .idle ∧ s.rsp ≠ none ∧ (nextInput s).rspReady = false ∧ t = consumeInput s)
        ∨ (s.phase = .idle ∧ s.rsp = none ∧ (nextInput s).cmdValid = true
            ∧ ∃ i, decode (nextInput s).cmdWord = .ok i
              ∧ exec i (accept (nextInput s) (consumeInput s)) = .next t)
        ∨ (s.phase = .idle ∧ s.rsp = none ∧ (nextInput s).cmdValid = true
            ∧ ∃ e, decode (nextInput s).cmdWord = .error e
              ∧ t = raise .illegalCommand (accept (nextInput s) (consumeInput s)))
        ∨ (s.phase = .idle ∧ s.rsp = none ∧ (nextInput s).cmdValid = false
            ∧ t = consumeInput s))) := by
  unfold step at h
  dsimp only at h
  by_cases h1 : (nextInput s).rst = true
  · rw [if_pos h1] at h
    exact .inl ⟨h1, (Host.Outcome.next.inj h).symm⟩
  · rw [if_neg h1] at h
    refine .inr ⟨by simpa using h1, ?_⟩
    by_cases h2 : s.phase = .idle
    · rw [if_neg (by simpa using h2)] at h
      refine .inr ?_
      by_cases h3 : s.rsp = none
      · rw [if_neg (by simp [h3])] at h
        refine .inr (.inr ?_)
        by_cases h4 : (nextInput s).cmdValid = true
        · rw [if_pos h4] at h
          have hf : fetch (accept (nextInput s) (consumeInput s)) = decode (nextInput s).cmdWord := rfl
          rw [hf] at h
          cases h5 : decode (nextInput s).cmdWord with
          | ok i => rw [h5] at h; exact .inl ⟨h2, h3, h4, i, rfl, h⟩
          | error e =>
            rw [h5] at h
            exact .inr (.inl ⟨h2, h3, h4, e, rfl, (Host.Outcome.next.inj h).symm⟩)
        · rw [if_neg h4] at h
          exact .inr (.inr ⟨h2, h3, by simpa using h4, (Host.Outcome.next.inj h).symm⟩)
      · have h3' : (consumeInput s).rsp.isSome = true := by
          simpa [Option.isSome_iff_ne_none] using h3
        rw [if_pos h3'] at h
        by_cases h4 : (nextInput s).rspReady = true
        · rw [if_pos h4] at h
          exact .inl ⟨h2, h3, h4, (Host.Outcome.next.inj h).symm⟩
        · rw [if_neg h4] at h
          exact .inr (.inl ⟨h2, h3, by simpa using h4, (Host.Outcome.next.inj h).symm⟩)
    · rw [if_pos (show (consumeInput s).phase ≠ .idle from h2)] at h
      exact .inl ⟨h2, (Host.Outcome.next.inj h).symm⟩

end Sys2Proof.Machine
end

