-- ==== Sys2Proof/Tests/Slice0.lean ====
section
/-! SUPPORT. Tests on fixed values, each expected value taken from spec/95_test_vectors.md or worked out by
hand from the rule named; and, for every statement with hypotheses, a witness that meets them. -/

namespace Sys2Proof.Machine

-- one theorem after another: a waiting theorem holds a thread's stack while others evaluate
set_option Elab.async false

/-! ### Helpers: the test images of 95_test_vectors and small states -/

/-- The defaults of every vector: `MAXSEC = 8`, `NMAX = 1024`, `PADK = 6`, the default `NUMERICS`. -/
def testParams (p : Prec) : Params :=
  { prec := p, maxsec := 8, nmax := 1024, padk := 6, datapath := .ieee }

/-- A state after reset with one or more binary64 sections. -/
def testState (l : List (Coeffs Word)) : State :=
  State.afterReset (testParams .double) { prec := .double, sections := l }

/-- 1.0, 0.5, 0.25 and -0.5 in binary64 (95_test_vectors, words used often). -/
def one : Word := 0x3FF0000000000000#64
def half : Word := 0x3FE0000000000000#64
def quarter : Word := 0x3FD0000000000000#64
def minusHalf : Word := 0xBFE0000000000000#64

/-- The one section of T1. -/
def sectionT1 : Coeffs Word := { b0 := half, b1 := quarter, b2 := quarter, a1 := 0#64, a2 := 0#64 }

/-- Test image T1. -/
def stateT1 : State := testState [sectionT1]

/-- Test image T2. -/
def stateT2 : State :=
  testState [{ b0 := quarter, b1 := quarter, b2 := 0#64, a1 := minusHalf, a2 := 0#64 }]

/-- Test image T3, with two sections. -/
def stateT3 : State :=
  testState [{ b0 := half, b1 := half, b2 := 0#64, a1 := minusHalf, a2 := 0#64 },
    { b0 := quarter, b1 := half, b2 := quarter, a1 := minusHalf, a2 := quarter }]

/-- The state after an outcome, if it is a next state. -/
def nextOf : Host.Outcome State Fault Refusal → Option State
  | .next t => some t
  | .fault _ => none
  | .refused _ => none

/-- The response that waits after an outcome. -/
def rspOf (o : Host.Outcome State Fault Refusal) : Option Response := (nextOf o).bind (·.rsp)

/-- An edge that presents a word and a data word. -/
def present (w : BitVec 32) (d : Word) : PortIn :=
  { rst := false, cmdValid := true, cmdWord := w, cmdData := d, rspReady := false }

/-- An edge with `rst` high. -/
def resetEdge : PortIn := { quiet with rst := true }

/-! ### Well-formed commands, parameters and images: each check refuses an ill-formed term -/

theorem test_wellFormed_refuses_long_ffilt :
    (Instr.ffilt 0xFFFFFF).wellFormed = true ∧ (Instr.ffilt 0x1000000).wellFormed = false := by decide

theorem test_wellFormed_refuses_long_wrbuf :
    (Instr.wrbuf 0x7FFFFF).wellFormed = true ∧ (Instr.wrbuf 0x800000).wellFormed = false := by decide

theorem test_wellFormed_refuses_long_rdbuf :
    (Instr.rdbuf .y 0x7FFFFF).wellFormed = true ∧ (Instr.rdbuf .y 0x800000).wellFormed = false := by
  decide

theorem test_wellFormed_refuses_long_rdflt :
    (Instr.rdflt 0xFFFFFF).wellFormed = true ∧ (Instr.rdflt 0x1000000).wellFormed = false := by decide

theorem test_wellFormed_without_operand :
    Instr.rst.wellFormed = true ∧ Instr.proc.wellFormed = true := by decide

/-- R9, R10: no section, a buffer too short by one, a buffer too long by one. -/
theorem test_paramsOk_refuses :
    paramsOk (testParams .double) = true
      ∧ paramsOk { testParams .double with maxsec := 0 } = false
      ∧ paramsOk { testParams .double with nmax := 48 } = false
      ∧ paramsOk { testParams .double with nmax := 49 } = true
      ∧ paramsOk { testParams .double with nmax := 2 ^ 23 } = true
      ∧ paramsOk { testParams .double with nmax := 2 ^ 23 + 1 } = false := by decide

/-- R24 (a), (b): a tag of the other precision, no section, nine sections. -/
theorem test_imageOk_refuses_tag_and_count :
    imageOk (testParams .double) { prec := .double, sections := [sectionT1] } = true
      ∧ imageOk (testParams .double) { prec := .single, sections := [sectionT1] } = false
      ∧ imageOk (testParams .double) { prec := .double, sections := [] } = false
      ∧ imageOk (testParams .double)
          { prec := .double, sections := List.replicate 9 sectionT1 } = false := by decide +kernel

/-- R24 (c): an infinity, a NaN, and a word wider than `W`. -/
theorem test_sectionOk_refuses_non_finite :
    sectionOk .double { sectionT1 with b0 := 0x7FF0000000000000#64 } = false
      ∧ sectionOk .double { sectionT1 with b1 := 0x7FF8000000000000#64 } = false
      ∧ sectionOk .single { sectionT1 with b0 := 0x100000000#64 } = false := by decide +kernel

/-- R24 (d): a pole on the circle (`a2 = 1`), and a real pole on it (`a1 = -1`, `a2 = 0`). -/
theorem test_sectionOk_refuses_unstable :
    sectionOk .double { sectionT1 with a2 := one } = false
      ∧ sectionOk .double { sectionT1 with a1 := 0xBFF0000000000000#64 } = false
      ∧ sectionOk .double { sectionT1 with a1 := minusHalf } = true := by decide +kernel

/-! ### Decoding: words written out field by field (OP, RSV, ARG) from R66 and R70 -/

theorem test_decode_rst : decode (0x1#4 ++ 0x0#4 ++ 0x000000#24) = .ok .rst := by decide
theorem test_decode_proc : decode (0x2#4 ++ 0x0#4 ++ 0x000000#24) = .ok .proc := by decide
theorem test_decode_ffilt : decode (0x3#4 ++ 0x0#4 ++ 0x000400#24) = .ok (.ffilt 1024) := by decide
theorem test_decode_wrbuf : decode (0x4#4 ++ 0x0#4 ++ 0#1 ++ 0x0003FF#23) = .ok (.wrbuf 1023) := by
  decide
theorem test_decode_rdbuf_x : decode (0x5#4 ++ 0x0#4 ++ 0#1 ++ 3#23) = .ok (.rdbuf .x 3) := by decide
theorem test_decode_rdbuf_y :
    decode (0x5#4 ++ 0x0#4 ++ 1#1 ++ 0x7FFFFF#23) = .ok (.rdbuf .y 8388607) := by decide
theorem test_decode_rdflt : decode (0x6#4 ++ 0x0#4 ++ 13#24) = .ok (.rdflt 13) := by decide

/-- The illegal words of V-E1, with the check of R72 that each fails. -/
theorem test_decode_illegal :
    decode 0x00000000#32 = .error .opcode ∧ decode 0x70000000#32 = .error .opcode
      ∧ decode 0xF0000000#32 = .error .opcode ∧ decode 0xFFFFFFFF#32 = .error .reservedField
      ∧ decode 0x10000001#32 = .error .argument ∧ decode 0x20000001#32 = .error .argument
      ∧ decode 0x21000000#32 = .error .reservedField ∧ decode 0x31000007#32 = .error .reservedField
      ∧ decode 0x6F00000D#32 = .error .reservedField ∧ decode 0x40800003#32 = .error .bankBit := by
  decide

/-- No word matches two rows of the map: two patterns differ in a bit both masks name. -/
theorem test_opcodeRows_disjoint :
    opcodeRows.Pairwise (fun r q => r.pattern &&& (r.mask &&& q.mask) ≠ q.pattern &&& (r.mask &&& q.mask)) := by
  decide

/-! ### RST and PROC -/

/-- V-P10: `RST` from the state after V-P1's first sample answers `OK, 0` and clears both registers. -/
theorem test_rst_clears :
    (nextOf (exec .rst { stateT2 with file := [⟨0x3FD8000000000000#64, one⟩] })).map
      (fun t => (t.rsp, t.file)) = some (some ⟨.ok, 0#64⟩, [⟨0#64, 0#64⟩]) := by decide

/-- V-P3, the first sample of T3: both sections, the second fed by the first. -/
theorem test_proc_cascades :
    (nextOf (exec .proc { stateT3 with cmdData := one })).map (fun t => (t.rsp, t.file))
      = some (some ⟨.ok, 0x3FC0000000000000#64⟩,
          [⟨0x3FE8000000000000#64, 0#64⟩, ⟨0x3FD4000000000000#64, 0x3FB8000000000000#64⟩]) := by
  decide +kernel

/-- V-P2, the second sample of T1: the new `w1` is the old `w2`. -/
theorem test_proc_uses_old_w2 :
    (nextOf (exec .proc { stateT1 with file := [⟨quarter, quarter⟩], cmdData := 0#64 })).map
      (fun t => (t.rsp, t.file)) = some (some ⟨.ok, quarter⟩, [⟨quarter, 0#64⟩]) := by
  decide +kernel

/-! ### Real arithmetic -/

/-- V-P5: `0.25 * 0.1` is exact, and `t1 - t2` for T2's first sample is a tie that goes to even. -/
theorem test_sub_ties_to_even :
    numerics.fmul .double 0 quarter 0x3FB999999999999A#64 = 0x3F9999999999999A#64
      ∧ numerics.fmul .double 0 minusHalf 0x3F9999999999999A#64 = 0xBF8999999999999A#64
      ∧ numerics.fsub .double 0 0x3F9999999999999A#64 0xBF8999999999999A#64
          = 0x3FA3333333333334#64 := by decide +kernel

/-- V-P5 in SINGLE. -/
theorem test_sub_ties_to_even_single :
    numerics.fmul .single 0 0x3E800000#64 0x3DCCCCCD#64 = 0x3CCCCCCD#64
      ∧ numerics.fsub .single 0 0x3CCCCCCD#64 0xBC4CCCCD#64 = 0x3D19999A#64 := by decide +kernel

/-- V-P6: twice the largest finite real is an infinity, in both formats. -/
theorem test_mul_overflows :
    numerics.fmul .double 0 0x4000000000000000#64 0x7FEFFFFFFFFFFFFF#64 = 0x7FF0000000000000#64
      ∧ numerics.fmul .single 0 0x40000000#64 0x7F7FFFFF#64 = 0x7F800000#64 := by decide +kernel

/-- V-P6: `0 * inf` is a NaN, whichever one is drawn. -/
theorem test_zero_times_infinity (d : Nat) :
    isNaN .double (numerics.fmul .double d 0#64 0x7FF0000000000000#64) = true :=
  isNaN_drawnNaN .double d

/-- V-P7: `0.25 * (-0.0)` is `-0.0`, `-0.0 + 0.0` is `+0.0` and `0 * (-0.0) - 0 * (+0.0)` is `-0.0`. -/
theorem test_signed_zeros :
    numerics.fmul .double 0 quarter 0x8000000000000000#64 = 0x8000000000000000#64
      ∧ numerics.fadd .double 0 0x8000000000000000#64 0#64 = 0#64
      ∧ numerics.fsub .double 0 (numerics.fmul .double 1 0#64 0x8000000000000000#64)
          (numerics.fmul .double 2 0#64 0#64) = 0x8000000000000000#64 := by decide +kernel

/-- V-P8: quarters and three quarters of the smallest subnormals. -/
theorem test_subnormal_ties :
    numerics.fmul .double 0 quarter 1#64 = 0#64 ∧ numerics.fmul .double 0 quarter 2#64 = 0#64
      ∧ numerics.fmul .double 0 quarter 3#64 = 1#64
      ∧ numerics.fmul .double 0 0x3FE8000000000000#64 1#64 = 1#64
      ∧ numerics.fmul .double 0 0x3FE8000000000000#64 2#64 = 2#64
      ∧ numerics.fmul .double 0 0x3FE8000000000000#64 3#64 = 2#64
      ∧ numerics.fmul .single 0 0x3E800000#64 2#64 = 0#64
      ∧ numerics.fmul .single 0 0x3E800000#64 3#64 = 1#64 := by decide +kernel

/-- The largest subnormal plus the smallest is the smallest normal number (R125, by hand). -/
theorem test_subnormal_carry :
    numerics.fadd .double 0 0x000FFFFFFFFFFFFF#64 1#64 = 0x0010000000000000#64
      ∧ numerics.fadd .single 0 0x007FFFFF#64 1#64 = 0x00800000#64 := by decide +kernel

/-! ### FFILT -/

/-- V-F4: T1 with `PADK = 0` on `1, 2, 3`. -/
theorem test_ffilt_without_extension :
    (nextOf (exec (.ffilt 3) { stateT1 with
        par := { testParams .double with padk := 0 }
        xbuf := [(0, one), (1, 0x4000000000000000#64), (2, 0x4008000000000000#64)] })).map
      (fun t => (t.rsp, t.ybuf, t.file))
      = some (some ⟨.ok, 0#64⟩,
          [(0, 0x3FF2000000000000#64), (1, 0x3FF3000000000000#64), (2, 0x3FF2000000000000#64)],
          [⟨0x3FDC000000000000#64, 0x3FC0000000000000#64⟩]) := by decide +kernel

/-- The input of V-F1: `1 .. 7`. -/
def oneToSeven : Memory :=
  [(0, one), (1, 0x4000000000000000#64), (2, 0x4008000000000000#64), (3, 0x4010000000000000#64),
    (4, 0x4014000000000000#64), (5, 0x4018000000000000#64), (6, 0x401C000000000000#64)]

/-- V-F1: T1 with `P = 6` on `1 .. 7`. -/
theorem test_ffilt_extends :
    (nextOf (exec (.ffilt 7) { stateT1 with xbuf := oneToSeven })).map
      (fun t => (t.rsp, t.ybuf, t.file))
      = some (some ⟨.ok, 0#64⟩,
          [(0, 0x3FFE000000000000#64), (1, 0x4002000000000000#64), (2, 0x4008000000000000#64),
            (3, 0x4010000000000000#64), (4, 0x4014000000000000#64), (5, 0x4017000000000000#64),
            (6, 0x4018800000000000#64)],
          [⟨0x4000800000000000#64, 0x3FEC000000000000#64⟩]) := by decide +kernel

/-- V-F5: the length checks, the capacity one first. -/
theorem test_ffilt_lengths :
    rspOf (exec (.ffilt 0) stateT1) = some ⟨.insufficientSamples, 0#64⟩
      ∧ rspOf (exec (.ffilt 6) stateT1) = some ⟨.insufficientSamples, 0#64⟩
      ∧ rspOf (exec (.ffilt 1025) stateT1) = some ⟨.lengthExceedsCapacity, 0#64⟩
      ∧ rspOf (exec (.ffilt 16777215) stateT1) = some ⟨.lengthExceedsCapacity, 0#64⟩ := by
  decide +kernel

/-- The extended sequence of V-F1, by its XBUF indices: `7,6,5,4,3,2,1,2,...,7,6,...,1`. -/
theorem test_extension_indices :
    extension stateT1 7 = [6, 5, 4, 3, 2, 1, 0, 1, 2, 3, 4, 5, 6, 5, 4, 3, 2, 1, 0] := by decide

/-! ### WRBUF, RDBUF, RDFLT -/

/-- V-A1: `WRBUF 3, 4.0` stores the word bit for bit, `WRBUF 1024` is refused. -/
theorem test_wrbuf :
    (nextOf (exec (.wrbuf 3) { stateT1 with cmdData := 0x4010000000000000#64 })).map
        (fun t => (t.rsp, t.xbuf)) = some (some ⟨.ok, 0#64⟩, [(3, 0x4010000000000000#64)])
      ∧ rspOf (exec (.wrbuf 1023) stateT1) = some ⟨.ok, 0#64⟩
      ∧ rspOf (exec (.wrbuf 1024) stateT1) = some ⟨.badAddress, 0#64⟩ := by decide

/-- R50: a write below, at and above a stored index keeps the list rising. -/
theorem test_memWrite_order :
    memWrite [(3, one)] 2 half = [(2, half), (3, one)]
      ∧ memWrite [(3, one)] 3 half = [(3, half)]
      ∧ memWrite [(3, one)] 4 half = [(3, one), (4, half)] := by decide

/-- V-A1: `RDBUF X, 3` after that write, and the last bank index. -/
theorem test_rdbuf :
    rspOf (exec (.rdbuf .x 3) { stateT1 with xbuf := [(3, 0x4010000000000000#64)] })
        = some ⟨.ok, 0x4010000000000000#64⟩
      ∧ rspOf (exec (.rdbuf .y 3) { stateT1 with xbuf := [(3, one)], ybuf := [(3, half)] })
        = some ⟨.ok, half⟩
      ∧ rspOf (exec (.rdbuf .x 1024) stateT1) = some ⟨.badAddress, 0#64⟩
      ∧ rspOf (exec (.rdbuf .y 8388607) stateT1) = some ⟨.badAddress, 0#64⟩ := by decide +kernel

/-- V-A2: the configuration and section words of T3. -/
theorem test_rdflt :
    [0, 1, 8, 11, 13, 17, 20, 22].map (fun a => rspOf (exec (.rdflt a) stateT3))
      = [1#64, 2#64, half, minusHalf, 0#64, half, quarter, 0#64].map (fun v => some ⟨.ok, v⟩) := by
  decide +kernel

/-- V-A2: the addresses that are not valid. -/
theorem test_rdflt_bad_addresses :
    ∀ a ∈ [2, 3, 4, 5, 6, 7, 15, 23, 24, 0xFFFFFF],
      rspOf (exec (.rdflt a) stateT3) = some ⟨.badAddress, 0#64⟩ := by decide +kernel

/-! ### The step, reset and the interface -/

/-- The first step after reset runs the command that is put on the port (V-P10, R35). -/
theorem test_step_runs_first_command :
    rspOf (step (State.reset.withFetchWord 32 0x10000000)) = some ⟨.ok, 0#64⟩
      ∧ rspOf (step (State.reset.withFetchWord 32 0x60000001)) = some ⟨.ok, 1#64⟩
      ∧ rspOf (step (State.reset.withFetchWord 32 0x70000000)) = some ⟨.illegalCommand, 0#64⟩ := by
  decide +kernel

theorem test_decodeTableWord :
    decodeTableWord 32 0x50800000 = some (.rdbuf .y 0) ∧ decodeTableWord 32 0x40800000 = none := by
  decide

/-- R35: a waiting response blocks the port until it is taken. -/
theorem test_step_takes_response :
    nextOf (step { stateT1 with rsp := some ⟨.ok, one⟩, inputs := [present 0x10000000#32 0#64] })
        = some { stateT1 with rsp := some ⟨.ok, one⟩ }
      ∧ nextOf (step { stateT1 with rsp := some ⟨.ok, one⟩, inputs := [{ quiet with rspReady := true }] })
        = some stateT1 := by decide +kernel

/-- R215: `rst` clears the state file and withdraws the response; the buffers stay. -/
theorem test_step_hardware_reset :
    (nextOf (step { stateT1 with
        file := [⟨one, half⟩], rsp := some ⟨.ok, one⟩, xbuf := [(0, one)], inputs := [resetEdge] })).map
      (fun t => (t.file, t.rsp, t.xbuf)) = some ([⟨0#64, 0#64⟩], none, [(0, one)]) := by decide

/-- R217: `rst` within `FFILT 7` leaves `YBUF[0 .. 6]` unspecified and `YBUF[7]` as it was. -/
theorem test_step_reset_within_ffilt :
    (nextOf (step { stateT1 with
        phase := .fwd, len := 7, idx := 3, ybuf := [(0, one), (6, one), (7, half)]
        inputs := [resetEdge] })).map (fun t => (t.ybuf, t.phase)) = some ([(7, half)], .idle) := by
  decide

/-- R75: the assembler column for the words of V-A1 and V-A2. -/
theorem test_assemble_words :
    ([.wrbuf 3 (.dyadic false 4 0), .rdbuf .y 1024, .rdflt (.w2 1), .ffilt 7].flatMap
        (assemble .double)).map (fun c => (c.word, c.data))
      = [(0x40000003#32, 0x4010000000000000#64), (0x50800400#32, 0#64), (0x60000016#32, 0#64),
          (0x30000007#32, 0#64)] := by decide +kernel

/-- R76: `LDBUF [1, 2]` and `IMPULSE 3`. -/
theorem test_assemble_pseudo :
    (assemble .single (.ldbuf [.dyadic false 1 0, .dyadic false 2 0])).map (fun c => (c.word, c.data))
        = [(0x40000000#32, 0x3F800000#64), (0x40000001#32, 0x40000000#64)]
      ∧ (assemble .single (.impulse 3)).map (fun c => (c.word, c.data))
        = [(0x20000000#32, 0x3F800000#64), (0x20000000#32, 0#64), (0x20000000#32, 0#64)] := by
  decide +kernel

/-- Command 5 of P3 in 95_test_vectors: 1.0 beside an illegal `.word`; and the choice for `IMPULSE 0`. -/
theorem test_assemble_choices :
    (assemble .double (.rawWord 0x20000001#32 one)).map (fun c => (c.word, c.data))
        = [(0x20000001#32, one)]
      ∧ (assemble .double (.impulse 0)).map (fun c => (c.word, c.data)) = [(0x20000000#32, one)] := by
  decide +kernel

/-! ### Design operations -/

/-- The validation vectors V-DE1 to V-DE18. -/
theorem test_design_checks :
    let f0 : Word := 0#64
    let f1 := one
    let f5 : Word := 0x4014000000000000#64
    let f10 : Word := 0x4024000000000000#64
    let f30 : Word := 0x403E000000000000#64
    let f40 : Word := 0x4044000000000000#64
    let f50 : Word := 0x4049000000000000#64
    let f200 : Word := 0x4069000000000000#64
    let f250 : Word := 0x406F400000000000#64
    let f300 : Word := 0x4072C00000000000#64
    let f500 : Word := 0x407F400000000000#64
    [ FilterSpec.lowpass 0 f10 f500, .highpass (-3) f10 f500, .lowpass 17 f10 f500,
      .lowpass 16 f10 f500, .lowpass 0 f300 f500, .lowpass 4 f250 f500, .lowpass 4 f0 f500,
      .highpass 2 f40 f0, .bandpass 2 f40 f5 f500, .bandpass 2 f40 f40 f500,
      .bandpass 20 f40 f5 f500, .bandpass 10 f40 f5 f500, .bandpass 10 f5 f40 f500,
      .bandpass 8 f5 f40 f500, .notch f250 f30 f500, .notch f50 f0 f500,
      .notch f50 0xBFF0000000000000#64 f500, .notch f200 f1 f500 ].map (designError 8)
    = [ some .invalidOrder, some .invalidOrder, some .invalidOrder,
        none, some .invalidOrder, some .invalidFrequency, some .invalidFrequency,
        some .invalidFrequency, some .invalidFrequency, some .invalidFrequency,
        some .invalidOrder, some .invalidFrequency, some .tooManySections,
        none, some .invalidParameter, some .invalidParameter,
        some .invalidParameter, some .invalidParameter ] := by decide +kernel

/-- Two words of one sign at most 1000 places apart, far within the tolerance of R105. -/
def close (a b : Word) : Bool := decide (a.toNat - b.toNat ≤ 1000) && decide (b.toNat - a.toNat ≤ 1000)

/-- Two sections with all five coefficients close. -/
def closeSections (c d : Coeffs Word) : Bool :=
  close c.b0 d.b0 && close c.b1 d.b1 && close c.b2 d.b2 && close c.a1 d.a1 && close c.a2 d.a2

/-- V-DB: `DESIGN_HP 2, 40, 500`. -/
theorem test_design_hp :
    (designSections .double (.highpass 2 0x4044000000000000#64 0x407F400000000000#64)).map
      (fun c => Config.defaultImage.sections.map (closeSections c)) = [[true]] := by decide +kernel

/-- V-DA: `DESIGN_LP 4, 10, 500`, both sections in ROM order. -/
theorem test_design_lp :
    List.zipWith closeSections
      (designSections .double (.lowpass 4 0x4024000000000000#64 0x407F400000000000#64))
      [{ b0 := 0x3F6ED1E9588DCD40#64, b1 := 0x3F7ED1E9588DCD40#64, b2 := 0x3F6ED1E9588DCD40#64,
         a1 := 0xBFFE4B6E28420B91#64, a2 := 0x3FED1223F5E64E57#64 },
       { b0 := 0x3F6CF2472DCE8080#64, b1 := 0x3F7CF2472DCE8080#64, b2 := 0x3F6CF2472DCE8080#64,
         a1 := 0xBFFC73F8D819834F#64, a2 := 0x3FE95BBACCEA40A0#64 }] = [true, true] := by
  decide +kernel

/-- V-DC: `DESIGN_NOTCH 50, 30, 500`. -/
theorem test_design_notch :
    closeSections (storeSection .double (notchSection 0x4049000000000000#64 0x403E000000000000#64
      0x407F400000000000#64))
      { b0 := 0x3FEFD51B567A6CED#64, b1 := 0xBFF9C0C410C22889#64, b2 := 0x3FEFD51B567A6CED#64,
        a1 := 0xBFF99E1085EC5C6A#64, a2 := 0x3FEF555354657B02#64 } = true := by decide +kernel

/-- A decimal `m / 10^e` rounded to binary64, as the decimal vectors of section 2 are read. -/
def decimal (neg : Bool) (m e : Nat) : Word :=
  pack .double neg (roundMag .double (m * 2 ^ (unitBits .double + 256) / 10 ^ e) 256)

/-- V-D5: `DESIGN_BP 2, 5, 40, 500`, the section of `s_1,a` first. -/
theorem test_design_bp :
    List.zipWith closeSections
      (designSections .double
        (.bandpass 2 0x4014000000000000#64 0x4044000000000000#64 0x407F400000000000#64))
      [{ b0 := decimal false 8334821764587289 17, b1 := 0#64, b2 := decimal true 8334821764587289 17,
         a1 := decimal true 19162609215239865 16, a2 := decimal false 9208643588467295 16 },
       { b0 := decimal false 4388196517809896 16, b1 := 0#64, b2 := decimal true 4388196517809896 16,
         a1 := decimal true 14203508209320965 16, a2 := decimal false 5833591230242341 16 }]
      = [true, true] := by decide +kernel

/-- V-D4: `DESIGN_BP 1, 5, 40, 500`, one section with two real poles. -/
theorem test_design_bp_odd :
    List.zipWith closeSections
      (designSections .double
        (.bandpass 1 0x4014000000000000#64 0x4044000000000000#64 0x407F400000000000#64))
      [{ b0 := decimal false 18269035122792598 17, b1 := 0#64, b2 := decimal true 18269035122792598 17,
         a1 := decimal true 1608451305620517 15, a2 := decimal false 6346192975441479 16 }]
      = [true] := by decide +kernel

/-- R113 (a): for `DESIGN_LP 2, 2^-60, 1` both poles round to 1 exactly (`a1 = -2`, `a2 = 1`); the image
holds the largest words that keep them inside, `a2 = 1 - 2^-53` and `a1 = -(2 - 2^-52)`. -/
theorem test_design_keeps_poles_inside :
    let spec := FilterSpec.lowpass 2 0x3C30000000000000#64 one
    ((computedSections spec).map (nearestSection .double)).map (fun c => (c.a1, c.a2))
      = [(0xC000000000000000#64, one)]
      ∧ (designSections .double spec).map (fun c => (c.a1, c.a2))
        = [(0xBFFFFFFFFFFFFFFF#64, 0x3FEFFFFFFFFFFFFF#64)]
      ∧ imageOk (testParams .double) { prec := .double, sections := designSections .double spec }
        = true := by decide +kernel

/-- R105 beside R113 (a): for `DESIGN_BP 1, 2^-100, 1/2 - 2^-54, 1` the exact `a2` is about
`-1 + pi*2^-53` and `a1` about `-pi*2^-53`; rounding gives `a2 = -1 + 3*2^-53`, which is unstable, and
the image holds `a2 = -1 + 4*2^-53` and `a1` as it was. -/
theorem test_design_moves_a2_beside_a_small_a1 :
    let spec := FilterSpec.bandpass 1 0x39B0000000000000#64 0x3FDFFFFFFFFFFFFF#64 one
    ((computedSections spec).map (nearestSection .double)).map
        (fun c => (close c.a1 0xBCB921FB54442D18#64, c.a2, sectionOk .double c))
      = [(true, 0xBFEFFFFFFFFFFFFD#64, false)]
    ∧ (designSections .double spec).map (fun c => (close c.a1 0xBCB921FB54442D18#64, c.a2))
      = [(true, 0xBFEFFFFFFFFFFFFC#64)] := by decide +kernel

/-- R105 in SINGLE: with `a2` just above the tie between `-1` and the word next to it, at
`-1 + 2^-25 - 2^-60`, the tolerance before rounding admits both, and the stable one is stored. -/
theorem test_single_rounds_within_the_tolerance :
    let c : Coeffs Fx := ⟨.zero, .zero, .zero, .zero, .dyadic (-(2 ^ 60 - 2 ^ 35 + 1)) 60⟩
    (nearestSection .single c).a2 = 0xBF800000#64 ∧ (storeSection .single c).a2 = 0xBF7FFFFF#64 := by
  decide +kernel

/-- R105 in SINGLE where `a2` is 0 by cancellation: for `DESIGN_BP 1, 2^-30, 1/4 + 2^-30, 1` the exact
`a1` is about `-1 + 5.9e-9`, which rounds to -1, and the absolute tolerance admits a positive `a2`. -/
theorem test_single_cancelled_a2_within_the_tolerance :
    let spec := FilterSpec.bandpass 1 0x3E10000000000000#64 0x3FD0000001000000#64 one
    ((computedSections spec).map (nearestSection .single)).map (fun c => (c.a1, c.a2))
      = [(0xBF800000#64, 0#64)]
    ∧ (designSections .single spec).map (fun c => (c.a1, c.a2, sectionOk .single c))
      = [(0xBF800000#64, 1#64, true)] := by decide +kernel

/-! ### Witnesses: a state and operands that meet the hypotheses of each statement, clause by clause -/

theorem witness_DecodeOfEncodeIsTheCommand :
    [Instr.rst, .proc, .ffilt 0, .ffilt 0xFFFFFF, .wrbuf 0x7FFFFF, .rdbuf .x 0x7FFFFF, .rdbuf .y 0,
      .rdflt 0xFFFFFF].all Instr.wellFormed = true := by decide

theorem witness_EncodeOfDecodeIsTheWord :
    decode 0x30FFFFFF#32 = .ok (.ffilt 0xFFFFFF) ∧ decode 0x407FFFFF#32 = .ok (.wrbuf 0x7FFFFF)
      ∧ decode 0x50FFFFFF#32 = .ok (.rdbuf .y 0x7FFFFF) := by decide

theorem witness_DecodeFollowsOpcodeMap :
    (0x40FFFFFF#32 &&& 0xFF800000#32 ≠ 0x40000000#32) ∧ decode 0x40FFFFFF#32 = .error .bankBit := by
  decide

theorem witness_StepRunsTheDecodedCommand :
    presents { stateT3 with inputs := [present 0x20000000#32 one] } (present 0x20000000#32 one) []
      ∧ decode (present 0x20000000#32 one).cmdWord = .ok .proc :=
  ⟨⟨rfl, rfl, rfl, rfl, rfl⟩, by decide⟩

/-- One word for each reason of R72. -/
theorem witness_IllegalWordsAreAnsweredIllegalCommand :
    ∀ w ∈ [0x00000000#32, 0x70000000#32, 0x1F000000#32, 0x10000001#32, 0x20800000#32, 0x40800000#32],
      presents { stateT3 with inputs := [present w one] } (present w one) []
        ∧ ∃ e, decode (present w one).cmdWord = .error e := by
  intro w hw
  refine ⟨⟨rfl, rfl, rfl, rfl, rfl⟩, ?_⟩
  simp only [List.mem_cons, List.not_mem_nil, or_false] at hw
  rcases hw with rfl | rfl | rfl | rfl | rfl | rfl
  · exact ⟨.opcode, by decide⟩
  · exact ⟨.opcode, by decide⟩
  · exact ⟨.reservedField, by decide⟩
  · exact ⟨.argument, by decide⟩
  · exact ⟨.argument, by decide⟩
  · exact ⟨.bankBit, by decide⟩

/-- A waiting response. -/
def waiting : State := { stateT3 with rsp := some ⟨.ok, one⟩ }

theorem witness_PortHolds_held :
    let pin := present 0x10000000#32 0#64
    let s := { waiting with inputs := [pin] }
    s.phase = .idle ∧ s.inputs = pin :: [] ∧ pin.rst = false
      ∧ s.rsp = some ⟨.ok, one⟩ ∧ pin.rspReady = false := ⟨rfl, rfl, rfl, rfl, rfl⟩

theorem witness_PortHolds_taken :
    let pin := { quiet with rspReady := true }
    let s := { waiting with inputs := [pin] }
    s.phase = .idle ∧ s.inputs = pin :: [] ∧ pin.rst = false
      ∧ s.rsp = some ⟨.ok, one⟩ ∧ pin.rspReady = true := ⟨rfl, rfl, rfl, rfl, rfl⟩

theorem witness_PortHolds_quiet :
    let s := { stateT3 with inputs := [quiet] }
    s.phase = .idle ∧ s.inputs = quiet :: [] ∧ quiet.rst = false
      ∧ s.rsp = none ∧ quiet.cmdValid = false := ⟨rfl, rfl, rfl, rfl, rfl⟩

/-- T1 within `FFILT 7` (`P = 6`, `L = 19`), in a phase and at an index. -/
def working (ph : Phase) (n i : Nat) : State :=
  { stateT1 with phase := ph, len := n, idx := i, exposed := .ywords n }

theorem witness_Controller_inputs (ph : Phase) (n i : Nat) :
    (nextInput (working ph n i)).rst = false := rfl

/-- `CHECK` at the lengths where its three clauses meet: 1025, 6 and 7, 1024. -/
theorem witness_Controller_check :
    (working .check 1025 0).phase = .check ∧ (working .check 1025 0).par.nmax < 1025
      ∧ 6 ≤ (working .check 6 0).par.nmax ∧ 6 ≤ padLen (working .check 6 0)
      ∧ 7 ≤ (working .check 7 0).par.nmax ∧ padLen (working .check 7 0) < 7
      ∧ 1024 ≤ (working .check 1024 0).par.nmax ∧ padLen (working .check 1024 0) < 1024 := by decide

theorem witness_Controller_clears :
    (working .clear1 7 0).phase = .clear1 ∧ (working .clear2 7 18).phase = .clear2 := by decide

/-- `FWD` before and at its last sample, `BWD` at its last but one and its last. -/
theorem witness_Controller_passes :
    (working .fwd 7 17).phase = .fwd ∧ 17 + 1 < 7 + 2 * padLen (working .fwd 7 17)
      ∧ 18 + 1 = 7 + 2 * padLen (working .fwd 7 18)
      ∧ (working .bwd 7 1).phase = .bwd ∧ 0 < (working .bwd 7 1).idx
      ∧ (working .bwd 7 0).idx = 0 := by decide

theorem witness_Controller_done :
    let s := { working .done 7 0 with tbuf := List.replicate 19 one }
    s.phase = .done ∧ s.tbuf.length = s.len + 2 * padLen s := by decide

theorem witness_WalkAlwaysTerminates : (working .bwd 7 18).phase ≠ .idle := by decide

/-- With nothing outstanding. -/
theorem witness_HardwareResetClearsTheStateFile_idle :
    let s := { stateT1 with ybuf := [(0, one)], inputs := [resetEdge] }
    s.inputs = resetEdge :: [] ∧ resetEdge.rst = true ∧ s.phase = .idle ∧ s.exposed = .nothing :=
  ⟨rfl, rfl, rfl, rfl⟩

/-- In the middle of an `FFILT`, with words of YBUF at `LEN - 1` and `LEN`. -/
theorem witness_HardwareResetClearsTheStateFile_working :
    let s := { working .fwd 7 3 with ybuf := [(6, one), (7, half)], inputs := [resetEdge] }
    s.inputs = resetEdge :: [] ∧ resetEdge.rst = true ∧ s.phase ≠ .idle ∧ 6 < s.len ∧ s.len ≤ 7 := by
  decide

/-- An edge at which a command is presented and the response is not taken. -/
def heldEdge : PortIn := present 0x20000000#32 half

/-- A reset right away. -/
theorem resetAfter_now {s : State} (h : s.inputs = [resetEdge]) : resetAfter [] s :=
  ⟨resetEdge, [], h, rfl, by decide⟩

/-- A reset after two edges at which the response is held. -/
theorem resetAfter_held {s : State} (h : s.inputs = [heldEdge, quiet, resetEdge]) :
    resetAfter [heldEdge, quiet] s := ⟨resetEdge, [], h, rfl, by decide⟩

/-- At the last index of the buffer, over an older word. -/
theorem witness_AbandonedWrbufLeavesOldOrNewWord :
    let s := { stateT1 with
      xbuf := [(1023, half)], cmdData := one, inputs := [heldEdge, quiet, resetEdge] }
    1023 < s.par.nmax ∧ resetAfter [heldEdge, quiet] s := ⟨by decide, resetAfter_held rfl⟩

theorem witness_AbandonedFfiltLeavesItsOutputUnspecified :
    resetAfter [] { stateT1 with ybuf := [(0, one), (7, half)], inputs := [resetEdge] } :=
  resetAfter_now rfl

/-- `WRBUF` at the first index beyond the buffer, among the others. -/
theorem witness_OtherAbandonedCommandsLeaveNothing :
    let s := { stateT1 with inputs := [heldEdge, quiet, resetEdge] }
    s.exposed = .nothing ∧ resetAfter [heldEdge, quiet] s ∧ s.par.nmax ≤ 1024 :=
  ⟨rfl, resetAfter_held rfl, by decide⟩

theorem witness_InstantiateRefusesIllFormedImages :
    instantiate (testParams .double) { prec := .double, sections := [sectionT1] } = .ok stateT1 := by
  decide +kernel

theorem witness_ProcEvaluatesEverySection :
    stateT3.file.length = stateT3.nsec ∧ stateT3.rom.sections[1]?.isSome = true := by decide

/-- A NaN in `w1[0]` of two sections, and one in `w2[0]`. -/
theorem witness_NaNStaysUntilCleared :
    let nan : Word := 0x7FF8000000000000#64
    let s := { stateT3 with file := [⟨nan, nan⟩, ⟨0#64, 0#64⟩] }
    s.par.datapath = .ieee ∧ s.file.length = s.nsec ∧ 0 < s.nsec ∧ (∃ t, exec .proc s = .next t)
      ∧ isNaN s.prec (s.w1 0) = true ∧ isNaN s.prec (s.w2 0) = true := by
  refine ⟨rfl, by decide, by decide, ⟨_, rfl⟩, ?_, ?_⟩ <;> decide +kernel

/-- The default numerics, and another. -/
theorem witness_ResultsFitTheFormat :
    (∃ path, numerics = numericsOf path) ∧ ∃ path, otherNumerics 7 = numericsOf path :=
  ⟨⟨.ieee, rfl⟩, .other 7, rfl⟩

/-- Two products: one finite, one past the largest finite real. -/
theorem witness_ProductIsRoundedToNearestEven :
    isFinite .double quarter = true ∧ isFinite .double 3#64 = true
      ∧ isFinite .double (numerics.fmul .double 0 quarter 3#64) = true
      ∧ isFinite .double 0x7FEFFFFFFFFFFFFF#64 = true
      ∧ isFinite .double (numerics.fmul .double 0 0x4000000000000000#64 0x7FEFFFFFFFFFFFFF#64) = false := by
  decide +kernel

/-- A finite difference, and a sum past the largest finite real. -/
theorem witness_SumIsRoundedToNearestEven :
    isFinite .single (numerics.fsub .single 0 0x3CCCCCCD#64 0xBC4CCCCD#64) = true
      ∧ isFinite .single 0x7F7FFFFF#64 = true
      ∧ isFinite .single (numerics.fadd .single 0 0x7F7FFFFF#64 0x7F7FFFFF#64) = false := by
  decide +kernel

/-- A NaN operand, a zero and the smallest subnormal. -/
theorem witness_SpecialValuesFollowIEEE :
    isNaN .double 0x7FF0000000000001#64 = true ∧ isFinite .double 0x8000000000000000#64 = true
      ∧ magBits .double 0x8000000000000000#64 = 0 ∧ isFinite .double 1#64 = true
      ∧ magBits .double 1#64 ≠ 0 := by decide +kernel

/-- A zero, the largest finite real, and two reals whose product rounds to zero (V-P8). -/
theorem witness_SignedZerosFollowIEEE :
    isFinite .double 0x8000000000000000#64 = true ∧ isFinite .double 0x7FEFFFFFFFFFFFFF#64 = true
      ∧ magBits .double 0x8000000000000000#64 = 0
      ∧ isFinite .double 0xBFD0000000000000#64 = true ∧ isFinite .double 1#64 = true
      ∧ numerics.fmul .double 0 0xBFD0000000000000#64 1#64 = 0x8000000000000000#64
      ∧ [(0x8000000000000000#64, 0#64), (0x8000000000000000#64, 0x8000000000000000#64),
          (one, 0xBFF0000000000000#64)].all
        (fun c => isFinite .double c.1 && isFinite .double c.2
          && decide (signedUnits .double c.1 + signedUnits .double c.2 = 0)) = true
      ∧ [(0#64, 0x8000000000000000#64), (0x8000000000000000#64, 0#64), (one, one)].all
        (fun c => isFinite .double c.1 && isFinite .double c.2
          && decide (signedUnits .double c.1 - signedUnits .double c.2 = 0)) = true := by decide +kernel

/-- The lengths where the clauses meet: 1025 and 1024, 6. -/
theorem witness_FfiltRejectsBadLengths :
    stateT1.par.nmax < 1025 ∧ 6 ≤ stateT1.par.nmax ∧ 6 ≤ stateT1.par.padk * stateT1.nsec := by decide

/-- The shortest and the longest length accepted; it serves every statement with these two hypotheses. -/
theorem witness_FfiltWalkComputesForwardThenBackward :
    stateT1.par.padk * stateT1.nsec < 7 ∧ 7 ≤ stateT1.par.nmax
      ∧ stateT1.par.padk * stateT1.nsec < 1024 ∧ 1024 ≤ stateT1.par.nmax := by decide

theorem witness_FfiltWritesTheMiddleOfTheBackwardPass :
    stateT3.par.padk * stateT3.nsec < 13 ∧ 13 ≤ stateT3.par.nmax := by decide

theorem witness_ExtensionReflectsWithoutRepeatingTheEdge :
    (6 < 7) ∧ (List.range (7 + 2 * 6)).map (xaddr 7 6)
      = [6, 5, 4, 3, 2, 1, 0, 1, 2, 3, 4, 5, 6, 5, 4, 3, 2, 1, 0] := by decide

theorem witness_ForwardPassIsRstThenProcs :
    let s := { stateT1 with xbuf := oneToSeven }
    (∃ t, exec .rst s = .next t)
      ∧ [6, 0].map (memRead s.xbuf) = [0x401C000000000000#64, one].map some :=
  ⟨⟨_, rfl⟩, by decide⟩

/-- T1 with `1, 2, 3`, `PADK = 0`, and the same with another state file and counter. -/
theorem witness_FfiltDoesNotDependOnPriorState :
    let par := { testParams .double with padk := 0 }
    let s := { stateT1 with par := par, xbuf := [(0, one)] }
    let s' := { stateT1 with par := par, xbuf := [(0, one)], file := [⟨half, one⟩], draws := 5 }
    sameConfig s s' ∧ s.par.padk * s.nsec < 1 ∧ 1 ≤ s.par.nmax
      ∧ (∀ i, i < 1 → ∃ v, memRead s.xbuf i = some v ∧ memRead s'.xbuf i = some v)
      ∧ (∃ t, exec (.ffilt 1) s = .next t) ∧ ∃ t', exec (.ffilt 1) s' = .next t' := by
  refine ⟨⟨rfl, rfl⟩, by decide, by decide, ?_, ⟨_, rfl⟩, ⟨_, rfl⟩⟩
  intro i hi
  obtain rfl : i = 0 := by omega
  exact ⟨one, rfl, rfl⟩

theorem witness_WrbufStoresTheDataWord : 0 < stateT1.par.nmax ∧ 1023 < stateT1.par.nmax := by decide

theorem witness_BufferIndexOutOfRangeIsBadAddress : stateT1.par.nmax ≤ 1024 := by decide

theorem witness_WrbufIsIdempotent :
    ∃ t u, exec (.wrbuf 1023) stateT1 = .next t ∧ exec (.wrbuf 1023) t = .next u :=
  ⟨_, _, rfl, rfl⟩

theorem witness_RdbufReadsTheBank :
    let s := { stateT1 with xbuf := [(1023, one)], ybuf := [(0, half)] }
    1023 < s.par.nmax ∧ memRead (s.buffer .x) 1023 = some one
      ∧ memRead (s.buffer .y) 0 = some half := by decide

theorem witness_RdbufOfUnwrittenWordStillAnswersOk :
    1023 < stateT1.par.nmax ∧ memRead (stateT1.buffer .y) 1023 = none := by decide

theorem witness_RdbufReadsWhatWrbufWrote : 1023 < stateT1.par.nmax := by decide

theorem witness_RdfltReadsTheFilterValue :
    stateT3.nsec < 2 ^ wordWidth stateT3.prec ∧ stateT3.rom.sections[1]?.isSome = true
      ∧ stateT3.rom.sections[2]? = none := by decide +kernel

/-- On T3 (`NSEC = 2`) the boundary addresses 2, 7, 15, 23, 24, and the valid 1, 8, 22 outside all
three clauses. -/
theorem witness_RdfltRejectsInvalidAddresses :
    (2 ≤ 2 ∧ 2 ≤ 7) ∧ (7 ≤ 7) ∧ 15 % 8 = 7 ∧ 23 % 8 = 7 ∧ stateT3.nsec ≤ 24 / 8 - 1
      ∧ ∀ a ∈ [1, 8, 22],
        ¬ ((2 ≤ a ∧ a ≤ 7) ∨ (8 ≤ a ∧ stateT3.nsec ≤ a / 8 - 1) ∨ a % 8 = 7) := by decide

theorem witness_FailureHasNoEffect :
    ∃ t r, exec (.rdflt 7) stateT3 = .next t ∧ t.rsp = some r ∧ r.status ≠ .ok :=
  ⟨_, _, rfl, rfl, by decide⟩

theorem witness_StatusesBelongToTheirCommands :
    ∃ t r, exec (.ffilt 0) stateT1 = .next t ∧ t.rsp = some r ∧ r.status = .insufficientSamples := by
  refine ⟨_, ⟨.insufficientSamples, 0#64⟩, rfl, ?_, rfl⟩
  decide

theorem witness_NoStepWritesTheRom : ∃ t, step State.reset = .next t := ⟨_, rfl⟩

theorem witness_CommandsWriteOnlyTheirOwnState :
    ∃ t, exec (.wrbuf 3) { stateT3 with cmdData := one } = .next t ∧ memRead t.xbuf 3 = some one
      ∧ memRead stateT3.xbuf 3 = none := ⟨_, rfl, by decide, rfl⟩

theorem witness_StepKeepsTheInvariant :
    stateOk stateT3 = true ∧ ∃ t, step stateT3 = .next t := ⟨by decide +kernel, _, rfl⟩

/-- Two states that differ in a NaN's bits, the hidden registers and the counter, before a `PROC`. -/
theorem witness_ResponsesAreDeterminedByTheReals :
    let s := { stateT1 with file := [⟨one, 0x7FF8000000000000#64⟩] }
    let s' := { stateT1 with
      file := [⟨one, 0xFFF0000000000001#64⟩], len := 9, idx := 3, tbuf := [one], draws := 77 }
    simState s s' ∧ unwrittenFault .proc s = none ∧ s ≠ s' := by
  refine ⟨⟨⟨rfl, rfl⟩, ?_, fun i => by simp [stateT1, testState, State.afterReset, memRead],
    fun i => by simp [stateT1, testState, State.afterReset, memRead], Or.inl rfl⟩, rfl, by decide⟩
  refine List.Forall₂.cons ⟨Or.inl rfl, Or.inr ?_⟩ List.Forall₂.nil
  decide +kernel

/-- The two commands that can read an unwritten word, at boundary indices. -/
theorem witness_StrictStepFaultsOnUnwrittenReads :
    stepStrict { stateT1 with inputs := [present 0x508003FF#32 0#64] }
        = .fault (.unwrittenRead .y 1023)
      ∧ stepStrict { stateT1 with xbuf := oneToSeven.dropLast, inputs := [present 0x30000007#32 0#64] }
        = .fault (.unwrittenInput 6) := ⟨rfl, rfl⟩

theorem witness_goodFrequency : goodFrequency 0x4024000000000000#64 0x407F400000000000#64 := by
  rw [goodFrequency_iff]
  decide +kernel

/-- Orders 0, 17, 16 at `MAXSEC = 8`; 250 Hz is no frequency below 500/2. -/
theorem witness_SingleBandDesignChecksInOrder :
    ((0 : Int) ≤ 0) ∧ (2 * ((testParams .double).maxsec : Int) < 17)
      ∧ (0 < (16 : Int) ∧ (16 : Int) ≤ 2 * ((testParams .double).maxsec : Int))
      ∧ ¬ goodFrequency 0x406F400000000000#64 0x407F400000000000#64
      ∧ goodFrequency 0x4024000000000000#64 0x407F400000000000#64 := by
  refine ⟨by decide, by decide, by decide, ?_, witness_goodFrequency⟩
  rw [goodFrequency_iff]
  decide +kernel

/-- Orders 0, 17, 16, 9 and 8; 5 and 10 Hz make a band, 10 and 10 Hz make none. -/
theorem witness_BandpassDesignChecksInOrder :
    (2 * ((testParams .double).maxsec : Int) < 17)
      ∧ (9 ≤ 2 * ((testParams .double).maxsec : Int) ∧ ((testParams .double).maxsec : Int) < 9)
      ∧ (8 : Int) ≤ ((testParams .double).maxsec : Int)
      ∧ checkBand 8 9 0x4014000000000000#64 0x4024000000000000#64 0x407F400000000000#64
        = some .tooManySections
      ∧ (goodFrequency 0x4014000000000000#64 0x407F400000000000#64
        ∧ goodFrequency 0x4024000000000000#64 0x407F400000000000#64
        ∧ ∃ l h : ℚ, toRat .double 0x4014000000000000#64 = some l
          ∧ toRat .double 0x4024000000000000#64 = some h ∧ l < h)
      ∧ ¬ ∃ l h : ℚ, toRat .double 0x4024000000000000#64 = some l
          ∧ toRat .double 0x4024000000000000#64 = some h ∧ l < h := by
  refine ⟨by decide, by decide, by decide, by decide +kernel,
    ⟨?_, witness_goodFrequency, _, _, toRat_of_positive (by decide +kernel),
      toRat_of_positive (by decide +kernel), ?_⟩, ?_⟩
  · rw [goodFrequency_iff]
    decide +kernel
  · exact (div_lt_div_iff_of_pos_right unitScale_pos).mpr (Nat.cast_lt.mpr (by decide +kernel))
  · rintro ⟨l, h, h1, h2, h3⟩
    rw [h1] at h2
    exact absurd h3 (by rw [Option.some.inj h2]; exact lt_irrefl h)

/-- `f0 = Fs/2`, and `Q = 0`. -/
theorem witness_NotchDesignRejectsBadParameters :
    ¬ goodFrequency 0x406F400000000000#64 0x407F400000000000#64
      ∧ ¬ ∃ x : ℚ, toRat .double 0#64 = some x ∧ 0 < x := by
  refine ⟨witness_SingleBandDesignChecksInOrder.2.2.2.1, ?_⟩
  rw [← positive_iff]
  decide +kernel

/-- A word that holds a whole number stands for it. -/
theorem toRat_whole {w : Word} {n : ℕ} (hp : positive w = true) (hn : dUnits w = n * 2 ^ 1074) :
    toRat .double w = some (n : ℚ) := by
  rw [toRat_of_positive hp, hn, show unitScale = ((2 ^ 1074 : ℕ) : ℚ) by
    rw [unitScale, Nat.cast_pow]; rfl]
  rw [Nat.cast_mul, mul_div_cancel_right₀ _ (by rw [Nat.cast_pow]; positivity)]

/-- At 500 Hz: 50 Hz with `Q = 30`, above `pi/2`; 50 Hz with `Q = 1`, where `r = 1 - pi/10` is positive;
200 Hz with `Q = 1`, where `r = 1 - 2*pi/5` is negative. -/
theorem witness_NotchDesignRejectsBadParameters_radius :
    (goodFrequency 0x4049000000000000#64 0x407F400000000000#64
      ∧ goodFrequency 0x4069000000000000#64 0x407F400000000000#64)
      ∧ (toRat .double 0x4049000000000000#64 = some ((50 : ℕ) : ℚ)
        ∧ toRat .double 0x403E000000000000#64 = some ((30 : ℕ) : ℚ)
        ∧ toRat .double one = some ((1 : ℕ) : ℚ)
        ∧ toRat .double 0x4069000000000000#64 = some ((200 : ℕ) : ℚ)
        ∧ toRat .double 0x407F400000000000#64 = some ((500 : ℕ) : ℚ))
      ∧ Real.pi / 2 ≤ 30 ∧ 1 / 2 ^ 2500 < 1 - Real.pi * ((50 : ℝ) / 1) / 500
      ∧ 1 - Real.pi * ((200 : ℝ) / 1) / 500 < -(1 / 2 ^ 2500) := by
  have h3 := Real.pi_gt_three
  have h4 := Real.pi_lt_d2
  have h5 : (1 : ℝ) / 2 ^ 2500 < 1 / 10 := by
    refine div_lt_div_of_pos_left one_pos (by norm_num)
      (lt_of_lt_of_le (by norm_num : (10 : ℝ) < 2 ^ 4) ?_)
    exact pow_le_pow_right₀ (by norm_num : (1 : ℝ) ≤ 2) (by norm_num : 4 ≤ 2500)
  generalize (1 : ℝ) / 2 ^ 2500 = margin at h5 ⊢
  refine ⟨⟨?_, ?_⟩, ⟨toRat_whole ?_ ?_, toRat_whole ?_ ?_, toRat_whole ?_ ?_, toRat_whole ?_ ?_,
    toRat_whole ?_ ?_⟩, by linarith, by linarith, by linarith⟩
  · rw [goodFrequency_iff]
    decide +kernel
  · rw [goodFrequency_iff]
    decide +kernel
  all_goals decide +kernel

/-- A successful design of each kind, of an odd order where the statement asks for one. -/
theorem witness_DesignedSectionCounts :
    ∀ spec ∈ [FilterSpec.lowpass 3 0x4024000000000000#64 0x407F400000000000#64,
        .highpass 1 0x4024000000000000#64 0x407F400000000000#64,
        .bandpass 3 0x4014000000000000#64 0x4024000000000000#64 0x407F400000000000#64,
        .notch 0x4024000000000000#64 0x4024000000000000#64 0x407F400000000000#64],
      ∃ img, design (testParams .double) spec = .ok img := by
  intro spec hs
  have h : designError (testParams .double).maxsec spec = none := by
    simp only [List.mem_cons, List.not_mem_nil, or_false] at hs
    rcases hs with rfl | rfl | rfl | rfl <;> decide +kernel
  exact ⟨_, by simp only [design, h]; rfl⟩

/-- There is a section with any denominator and any numerator made from it. -/
theorem exists_section (a1 a2 : ℝ) (g : ℝ → ℝ → ℝ) (n0 n1 n2 : ℝ) :
    ∃ c : Coeffs ℝ, c.a1 = a1 ∧ c.a2 = a2 ∧ HasNumerator (g c.a1 c.a2) n0 n1 n2 c :=
  ⟨{ b0 := g a1 a2 * n0, b1 := g a1 a2 * n1, b2 := g a1 a2 * n2, a1 := a1, a2 := a2 },
    rfl, rfl, rfl, rfl, rfl⟩

/-- A section whose rounding to nearest is unstable by `a1` alone: `a2 = -1 + 3*2^-53`, and `a1` is
`2^-110` above `-3*2^-53`, to which it rounds. -/
def nearlyUnstable : Coeffs Fx :=
  ⟨.zero, .zero, .zero, .dyadic (-(3 * 2 ^ 57 - 1)) 110, .dyadic (-(2 ^ 53 - 3)) 53⟩

theorem toRat_nearlyUnstable :
    (storeFx .double .zero = 0#64 ∧ toRat .double 0#64 = some 0)
    ∧ toRat .double (storeFx .double nearlyUnstable.a1) = some (-(3 / 2 ^ 53))
    ∧ toRat .double (storeFx .double nearlyUnstable.a2) = some (-(1 - 3 / 2 ^ 53)) := by
  have h0 : storeFx .double .zero = 0#64 ∧ datum .double 0#64 = .fin false 0 := by decide +kernel
  have h1 : datum .double (storeFx .double nearlyUnstable.a1) = .fin true (3 * 2 ^ 1021) := by
    decide +kernel
  have h2 : datum .double (storeFx .double nearlyUnstable.a2) = .fin true ((2 ^ 53 - 3) * 2 ^ 1021) := by
    decide +kernel
  have units : ∀ n : Nat, -(((n * 2 ^ 1021 : Nat)) : ℚ) / 2 ^ 1074 = -(n / 2 ^ 53) := by
    intro n
    rw [show 1074 = 53 + 1021 by rfl, pow_add, neg_div, Nat.cast_mul, Nat.cast_pow, Nat.cast_ofNat,
      mul_div_mul_right _ _ (pow_ne_zero _ two_ne_zero)]
  simp only [toRat, h0, h1, h2, unitBits, if_true, units]
  refine ⟨by simp, rfl, ?_⟩
  norm_num

theorem witness_StableSectionsAreStoredWithinTolerance :
    let e : Coeffs ℝ := ⟨0, 0, 0, -(3 / 2 ^ 53 - 1 / 2 ^ 110), -(1 - 3 / 2 ^ 53)⟩
    |e.a2| < 1 ∧ |e.a1| < 1 + e.a2
      ∧ SectionConforms .double (nearestSection .double nearlyUnstable) e
      ∧ (∃ q : ℚ, toRat .double (storeFx .double nearlyUnstable.a1) = some q
        ∧ |q - e.a1| ≤ max (|e.a1| / 2 ^ 52) (1 / 2 ^ 1074))
      ∧ (∃ q : ℚ, toRat .double (storeFx .double nearlyUnstable.a2) = some q
        ∧ |q - e.a2| ≤ max (|e.a2| / 2 ^ 52) (1 / 2 ^ 1074))
      ∧ sectionOk .double (nearestSection .double nearlyUnstable) = false := by
  obtain ⟨⟨z, h0⟩, h1, h2⟩ := toRat_nearlyUnstable
  have h3 : sectionOk .double (nearestSection .double nearlyUnstable) = false := by decide +kernel
  have near : ∀ q r : ℝ, |q - r| ≤ |r| / 2 ^ 52 → |q - r| ≤ max (|r| / 2 ^ 52) (1 / 2 ^ 1074) :=
    fun _ _ h => h.trans (le_max_left _ _)
  have meets : ∀ (w : Word) (q : ℚ) (r : ℝ), toRat .double w = some q → |q - r| ≤ 1e-9 * |r| →
      CoefficientConforms .double w r := fun _ q _ h h' => ⟨q, h, .inl h'⟩
  have c0 : ∀ x : Fx, x = .zero → CoefficientConforms .double (storeFx .double x) 0 :=
    fun x hx => meets _ 0 _ (by rw [hx, z]; exact h0) (by norm_num)
  intro e
  refine ⟨by norm_num [abs_lt], by norm_num [abs_lt],
    ⟨c0 _ rfl, c0 _ rfl, c0 _ rfl, meets _ _ _ h1 ?_, meets _ _ _ h2 ?_⟩,
    ⟨_, h1, near _ _ ?_⟩, ⟨_, h2, near _ _ ?_⟩, h3⟩
  all_goals norm_num [abs_of_neg, abs_of_pos]

/-- The section of zeros is stored as it rounds. -/
theorem witness_StableSectionsAreStoredWithinTolerance_kept :
    let c : Coeffs Fx := ⟨.zero, .zero, .zero, .zero, .zero⟩
    let e : Coeffs ℝ := ⟨0, 0, 0, 0, 0⟩
    |e.a2| < 1 ∧ |e.a1| < 1 + e.a2 ∧ SectionConforms .double (nearestSection .double c) e
      ∧ (∃ q : ℚ, toRat .double (storeFx .double .zero) = some q
        ∧ |q - (0 : ℝ)| ≤ max (|0| / 2 ^ 52) (1 / 2 ^ 1074))
      ∧ sectionOk .double (nearestSection .double c) = true := by
  intro c e
  have h3 : sectionOk .double (nearestSection .double c) = true := by decide +kernel
  obtain ⟨z, h0⟩ := toRat_nearlyUnstable.1
  have h : toRat .double (storeFx .double .zero) = some 0 := by rw [z]; exact h0
  have c0 : CoefficientConforms .double (storeFx .double .zero) 0 := ⟨0, h, .inl (by norm_num)⟩
  exact ⟨by norm_num [e], by norm_num [e], ⟨c0, c0, c0, c0, c0⟩,
    ⟨0, h, le_max_of_le_left (by norm_num)⟩, h3⟩

theorem witness_StableSectionsAreStoredWithinTolerance_single :
    let c : Coeffs Fx := ⟨.zero, .zero, .zero, .zero, .dyadic (-(2 ^ 60 - 2 ^ 35 + 1)) 60⟩
    sectionOk .single (nearestSection .single c) = false
      ∧ ∃ w ∈ roundings .single c, sectionOk .single w = true := by decide +kernel
/-- The exact sections of order 2 at 10 Hz of 500 Hz. -/
theorem witness_ExactSingleBandSectionsAreStable :
    (1 ≤ 1 ∧ 1 ≤ 2 ∧ (0 : ℝ) < 10 ∧ (10 : ℝ) < 500 / 2)
      ∧ (∃ c, IsLowpassPair 2 1 10 500 c) ∧ (∃ c, IsLowpassFirst 10 500 c)
      ∧ (∃ c, IsHighpassPair 2 1 10 500 c) ∧ ∃ c, IsHighpassFirst 10 500 c := by
  refine ⟨⟨le_refl 1, by norm_num, by norm_num, by norm_num⟩, ?_, ?_, ?_, ?_⟩
  · obtain ⟨c, h1, h2, h3⟩ := exists_section _ _ (fun a1 a2 => (1 + a1 + a2) / 4) 1 2 1
    exact ⟨c, _, _, _, rfl, rfl, rfl, ⟨h1, h2⟩, h3⟩
  · obtain ⟨c, h1, h2, h3⟩ := exists_section _ 0 (fun a1 _ => (1 + a1) / 2) 1 1 0
    exact ⟨c, ⟨_, rfl, h1, h2⟩, h3⟩
  · obtain ⟨c, h1, h2, h3⟩ := exists_section _ _ (fun a1 a2 => (1 - a1 + a2) / 4) 1 (-2) 1
    exact ⟨c, _, _, _, rfl, rfl, rfl, ⟨h1, h2⟩, h3⟩
  · obtain ⟨c, h1, h2, h3⟩ := exists_section _ 0 (fun a1 _ => (1 - a1) / 2) 1 (-1) 0
    exact ⟨c, ⟨_, rfl, h1, h2⟩, h3⟩

/-- The exact band-pass sections of orders 2 and 1 from 5 to 40 Hz of 500 Hz. -/
theorem witness_ExactBandpassSectionsAreStable :
    (1 ≤ 1 ∧ 1 ≤ 2 ∧ (0 : ℝ) < 5 ∧ (5 : ℝ) < 40 ∧ (40 : ℝ) < 500 / 2)
      ∧ (∃ ol oh : ℝ, IsPrewarped 5 500 ol ∧ IsPrewarped 40 500 oh)
      ∧ (∃ c d, IsBandpassTwo 2 1 5 40 500 c d) ∧ ∃ c, IsBandpassOdd 5 40 500 c := by
  refine ⟨⟨le_refl 1, by norm_num, by norm_num, by norm_num, by norm_num⟩, ⟨_, _, rfl, rfl⟩, ?_, ?_⟩
  · obtain ⟨d, hd⟩ := exists_principalSqrt
      (((_ : ℂ) * ((_ : ℝ) : ℂ) / 2) ^ 2 - ((_ : ℝ) : ℂ))
    obtain ⟨c, hc⟩ := exists_bandpassPair 500 _ _
    obtain ⟨c', hc'⟩ := exists_bandpassPair 500 _ _
    exact ⟨c, c', _, _, d, _, _, rfl, ⟨_, _, rfl, rfl, rfl, rfl⟩, rfl, hd, hc, hc'⟩
  · exact exists_bandpassOdd (by norm_num) (by norm_num) (by norm_num)

theorem witness_ExactSingleBandSectionsAreStable_denominators :
    (1 ≤ 1 ∧ 1 ≤ 2 ∧ (0 : ℝ) < 10 ∧ (10 : ℝ) < 500 / 2)
      ∧ (∃ c c', IsLowpassPair 2 1 10 500 c ∧ IsHighpassPair 2 1 10 500 c')
      ∧ ∃ c c', IsLowpassFirst 10 500 c ∧ IsHighpassFirst 10 500 c' :=
  let ⟨h, ⟨c, hc⟩, ⟨d, hd⟩, ⟨c', hc'⟩, ⟨d', hd'⟩⟩ := witness_ExactSingleBandSectionsAreStable
  ⟨h, ⟨c, c', hc, hc'⟩, d, d', hd, hd'⟩

/-- The notch of V-DC: 50 Hz, `Q = 30`, 500 Hz. -/
theorem witness_ExactNotchRejectsItsFrequency :
    ((0 : ℝ) < 50 ∧ (50 : ℝ) < 500 / 2 ∧ (0 : ℝ) < 30) ∧ 0 < 1 - Real.pi * ((50 : ℝ) / 30) / 500
      ∧ ∃ c, IsNotch 50 30 500 c := by
  refine ⟨⟨by norm_num, by norm_num, by norm_num⟩, ?_,
    { b0 := _, b1 := _, b2 := _, a1 := _, a2 := _ }, _, _, rfl, rfl, rfl, rfl, rfl, rfl, rfl⟩
  have := Real.pi_lt_d2
  linarith

end Sys2Proof.Machine
end

section
/-! SUPPORT. Instantiation (spec 00_scope R9 to R12, 10_state R24, 70_reset_and_hazards R219): which
parameters and images it takes, and the invariant in the state it gives. -/

namespace Sys2Proof.Machine

/-! ### What instantiation takes -/

theorem paramsOk_iff (par : Params) :
    paramsOk par = true ↔
      1 ≤ par.maxsec ∧ par.padk * par.maxsec + 1 ≤ par.nmax ∧ par.nmax ≤ 2 ^ 23 := by
  simp only [paramsOk, Bool.and_eq_true, decide_eq_true_eq, and_assoc]

theorem imageOk_iff (par : Params) (img : Image) :
    imageOk par img = true ↔
      img.prec = par.prec ∧ 1 ≤ img.sections.length ∧ img.sections.length ≤ par.maxsec
        ∧ ∀ c ∈ img.sections, sectionOk par.prec c = true := by
  simp only [imageOk, Bool.and_eq_true, decide_eq_true_eq, List.all_eq_true, and_assoc]

/-- An instance exists exactly where neither check refuses, and it is the state after reset. -/
theorem instantiate_eq_ok_iff (par : Params) (img : Image) (s : State) :
    instantiate par img = .ok s ↔
      paramsOk par = true ∧ imageOk par img = true ∧ s = State.afterReset par img := by
  unfold instantiate
  cases paramsOk par with
  | false => simp
  | true =>
    cases imageOk par img with
    | false => simp
    | true => simp [eq_comm]

theorem exists_instantiate_eq_ok_iff (par : Params) (img : Image) :
    (∃ s, instantiate par img = .ok s) ↔ paramsOk par = true ∧ imageOk par img = true := by
  simp only [instantiate_eq_ok_iff, exists_and_left, exists_eq, and_true]

/-! ### The invariant after reset -/

/-- The state file after reset is a zero pair per section (R38). -/
theorem fileOk_afterReset (par : Params) (img : Image) :
    fileOk (State.afterReset par img) = true := by
  have hfile : (State.afterReset par img).file = zeroFile (State.afterReset par img).nsec := rfl
  simp only [fileOk, hfile, zeroFile_length, fileFits_zeroFile, decide_true, Bool.and_self]

theorem latchesOk_afterReset (par : Params) (img : Image) :
    latchesOk (State.afterReset par img) = true := by
  simp [latchesOk, State.afterReset]

/-- A good configuration is all the invariant asks of the state after reset: no buffer word is written,
no response waits, no command is outstanding and the controller is idle (R38, R216). -/
theorem stateOk_afterReset {par : Params} {img : Image} (hp : paramsOk par = true)
    (hi : imageOk par img = true) : stateOk (State.afterReset par img) = true := by
  have hconfig : configOk (State.afterReset par img) = true := Bool.and_eq_true_iff.mpr ⟨hp, hi⟩
  have hbuffers : buffersOk (State.afterReset par img) = true := rfl
  have hresponse : responseOk (State.afterReset par img) = true := rfl
  have hexposed : exposedOk (State.afterReset par img) = true := rfl
  have hphase : phaseOk (State.afterReset par img) = true := rfl
  simp only [stateOk, hconfig, fileOk_afterReset, hbuffers, latchesOk_afterReset, hresponse, hexposed,
    hphase, Bool.and_self]

/-- Settles O17, from what instantiation takes and the invariant after reset. -/
theorem instantiateRefusesIllFormedImages : Obligations.InstantiateRefusesIllFormedImages := by
  intro par img
  refine ⟨?_, fun s h => ?_⟩
  · rw [exists_instantiate_eq_ok_iff, paramsOk_iff, imageOk_iff]
  · obtain ⟨hp, hi, rfl⟩ := (instantiate_eq_ok_iff par img s).mp h
    exact ⟨rfl, stateOk_afterReset hp hi⟩

end Sys2Proof.Machine
end

section
/-! SUPPORT. Every arithmetic operation returns a word of the format (spec 00_scope R13, R15, 41_cascade
R124). -/

namespace Sys2Proof.Machine

/-- A sum is a NaN, an infinity or a rounded real of the format. -/
@[simp] theorem fits_ieeeAdd (p : Prec) (d : Nat) (a b : Word) :
    fits p (ieeeAdd p d a b) = true := by
  unfold ieeeAdd
  split
  · exact fits_drawnNaN ..
  · exact fits_drawnNaN ..
  · split
    · exact fits_infWord ..
    · exact fits_drawnNaN ..
  · exact fits_infWord ..
  · exact fits_infWord ..
  · exact addFinite_fits ..

@[simp] theorem fits_ieeeSub (p : Prec) (d : Nat) (a b : Word) :
    fits p (ieeeSub p d a b) = true := fits_ieeeAdd p d a (negate p b)

/-- A product is a NaN, an infinity or a rounded real of the format. -/
@[simp] theorem fits_ieeeMul (p : Prec) (d : Nat) (a b : Word) :
    fits p (ieeeMul p d a b) = true := by
  unfold ieeeMul
  split
  · exact fits_drawnNaN ..
  · exact fits_drawnNaN ..
  · exact fits_infWord ..
  · split
    · exact fits_drawnNaN ..
    · exact fits_infWord ..
  · split
    · exact fits_drawnNaN ..
    · exact fits_infWord ..
  · exact fits_roundUnits ..

/-- Settles O28: the IEEE operations round to the format and every other datapath is clipped to it. -/
theorem resultsFitTheFormat : Obligations.ResultsFitTheFormat := by
  rintro _ p d a b ⟨path, rfl⟩
  cases path with
  | ieee => exact ⟨fits_ieeeMul p d a b, fits_ieeeAdd p d a b, fits_ieeeSub p d a b⟩
  | other k => exact ⟨fits_clip p _, fits_clip p _, fits_clip p _⟩

end Sys2Proof.Machine
end

section
/-! SUPPORT. What an accepted command can do (spec 41_cascade R120, R121, 42_filtfilt R155, 43_access R175
to R183), said once for every command, and the frame of a row that filters. -/

namespace Sys2Proof.Machine

/-! ### The outcomes of a command -/

/-- Everything a command can do, one constructor per way it ends. -/
inductive Executes (s : State) : Instr → State → Prop
  | rst : Executes s .rst (respond 0#64 (clearState s))
  | proc : Executes s .proc
      (respond (cascadeStep (realOperand s) s).1 (cascadeStep (realOperand s) s).2)
  | ffilt (n : Nat) : Executes s (.ffilt n) (walk (walkLength s n) (startFfilt n s))
  | wrbuf {i : Nat} (hi : i < s.par.nmax) : Executes s (.wrbuf i) (respond 0#64
      { s with xbuf := memWrite s.xbuf i (realOperand s), exposed := .xword i (memRead s.xbuf i) })
  | wrbufOutside {i : Nat} (hi : s.par.nmax ≤ i) : Executes s (.wrbuf i) (raise .badAddress s)
  | rdbuf (b : Bank) {i : Nat} (hi : i < s.par.nmax) :
      Executes s (.rdbuf b i) (respond (readWord b i s).1 (readWord b i s).2)
  | rdbufOutside (b : Bank) {i : Nat} (hi : s.par.nmax ≤ i) :
      Executes s (.rdbuf b i) (raise .badAddress s)
  | rdflt {a : Nat} {v : Word} (hv : fltWord s a = some v) : Executes s (.rdflt a) (respond v s)
  | rdfltInvalid {a : Nat} (hv : fltWord s a = none) : Executes s (.rdflt a) (raise .badAddress s)

/-- Every command has one of these outcomes. -/
theorem exec_executes (i : Instr) (s : State) : ∃ t, exec i s = .next t ∧ Executes s i t := by
  cases i with
  | rst => exact ⟨_, rfl, .rst⟩
  | proc => exact ⟨_, rfl, .proc⟩
  | ffilt n => exact ⟨_, rfl, .ffilt n⟩
  | wrbuf k =>
    rcases Nat.lt_or_ge k s.par.nmax with hk | hk
    · exact ⟨_, if_neg (Nat.not_le.mpr hk), .wrbuf hk⟩
    · exact ⟨_, if_pos hk, .wrbufOutside hk⟩
  | rdbuf b k =>
    rcases Nat.lt_or_ge k s.par.nmax with hk | hk
    · exact ⟨_, if_neg (Nat.not_le.mpr hk), .rdbuf b hk⟩
    · exact ⟨_, if_pos hk, .rdbufOutside b hk⟩
  | rdflt a =>
    cases hv : fltWord s a with
    | some v => exact ⟨_, by simp only [exec, execRdflt, hv], .rdflt hv⟩
    | none => exact ⟨_, by simp only [exec, execRdflt, hv], .rdfltInvalid hv⟩

theorem executes_of_exec {i : Instr} {s t : State} (h : exec i s = .next t) : Executes s i t := by
  obtain ⟨u, hu, he⟩ := exec_executes i s
  rw [hu] at h
  exact Host.Outcome.next.inj h ▸ he

/-! ### A row that filters -/

/-- A read changes at most the draw counter. -/
theorem state_of_readWord {b : Bank} {i : Nat} {s t : State} {x : Word}
    (hr : readWord b i s = (x, t)) : ∃ d, t = { s with draws := d } :=
  ⟨_, (congrArg Prod.snd hr).symm.trans (readWord_state b i s)⟩

@[simp] theorem readWord_prec (b : Bank) (i : Nat) (s : State) : (readWord b i s).2.prec = s.prec := by
  simp only [State.prec, readWord_par]

/-- A cascade step changes the state file and the draw counter only. -/
theorem state_of_cascadeStep {s u : State} {v y : Word} (hc : cascadeStep v s = (y, u)) :
    ∃ f d, u = { s with file := f, draws := d } :=
  ⟨_, _, (congrArg Prod.snd hc).symm.trans (cascadeStep_state v s)⟩

/-- So does a read with a cascade step on what it read. -/
theorem state_of_readWord_cascadeStep {b : Bank} {i : Nat} {s t u : State} {x y : Word}
    (hr : readWord b i s = (x, t)) (hc : cascadeStep x t = (y, u)) :
    ∃ f d, u = { s with file := f, draws := d } := by
  obtain ⟨d, rfl⟩ := state_of_readWord hr
  obtain ⟨f, e, rfl⟩ := state_of_cascadeStep hc
  exact ⟨f, e, rfl⟩

end Sys2Proof.Machine
end

section
/-! SUPPORT. Every operation keeps the invariant of a well-formed instance (spec 10_state R24, R26,
42_filtfilt R156), part by part, and so does every step. -/

namespace Sys2Proof.Machine

/-! ### The parts of the invariant -/

/-- The invariant with its parts named. -/
structure WellFormed (s : State) : Prop where
  config : configOk s = true
  file : fileOk s = true
  buffers : buffersOk s = true
  latches : latchesOk s = true
  response : responseOk s = true
  exposed : exposedOk s = true
  phase : phaseOk s = true

theorem stateOk_iff (s : State) : stateOk s = true ↔ WellFormed s := by
  simp only [stateOk, Bool.and_eq_true]
  exact ⟨fun ⟨⟨⟨⟨⟨⟨h1, h2⟩, h3⟩, h4⟩, h5⟩, h6⟩, h7⟩ => ⟨h1, h2, h3, h4, h5, h6, h7⟩,
    fun ⟨h1, h2, h3, h4, h5, h6, h7⟩ => ⟨⟨⟨⟨⟨⟨h1, h2⟩, h3⟩, h4⟩, h5⟩, h6⟩, h7⟩⟩

theorem fileOk_iff (s : State) :
    fileOk s = true ↔ s.file.length = s.nsec ∧ fileFits s.prec s.file = true := by
  simp only [fileOk, Bool.and_eq_true, decide_eq_true_eq]

theorem latchesOk_iff (s : State) :
    latchesOk s = true ↔ s.tbuf.all (fits s.prec) = true ∧ fits s.prec s.cmdData = true := by
  simp only [latchesOk, Bool.and_eq_true]

/-- One buffer is in canonical form within `NMAX` and its words fit. -/
def BufferOk (par : Params) (m : Memory) : Prop :=
  Memory.wf par.nmax m = true ∧ memFits par.prec m = true

theorem buffersOk_iff (s : State) :
    buffersOk s = true ↔ BufferOk s.par s.xbuf ∧ BufferOk s.par s.ybuf := by
  simp only [buffersOk, Bool.and_eq_true, BufferOk, State.prec, and_assoc]

/-- `LEN` has passed the checks of R146. -/
theorem lengthPassed_iff (s : State) :
    lengthPassed s = true ↔ padLen s < s.len ∧ s.len ≤ s.par.nmax := by
  simp only [lengthPassed, Bool.and_eq_true, decide_eq_true_eq]

theorem exposedOk_xword {s : State} {i : Nat} {old : Option Word} (h : s.exposed = .xword i old) :
    exposedOk s = true ↔ i < s.par.nmax ∧ ∀ v ∈ old, fits s.prec v = true := by
  cases old <;> simp [exposedOk, h]

section
variable {s : State}

theorem phaseOk_idle (h : s.phase = .idle) : phaseOk s = true := by simp only [phaseOk, h]

theorem phaseOk_check (h : s.phase = .check) : phaseOk s = true ↔ ffiltOutstanding s = true := by
  simp only [phaseOk, h]

theorem phaseOk_clear1 (h : s.phase = .clear1) :
    phaseOk s = true ↔ ffiltOutstanding s = true ∧ lengthPassed s = true := by
  simp only [phaseOk, h, Bool.and_eq_true]

theorem phaseOk_fwd (h : s.phase = .fwd) :
    phaseOk s = true ↔ ffiltOutstanding s = true ∧ lengthPassed s = true
      ∧ s.tbuf.length = s.idx ∧ s.idx < extLen s s.len := by
  simp only [phaseOk, h, Bool.and_eq_true, decide_eq_true_eq, and_assoc]

theorem phaseOk_clear2 (h : s.phase = .clear2) :
    phaseOk s = true ↔ ffiltOutstanding s = true ∧ lengthPassed s = true
      ∧ s.tbuf.length = extLen s s.len := by
  simp only [phaseOk, h, Bool.and_eq_true, decide_eq_true_eq, and_assoc]

theorem phaseOk_bwd (h : s.phase = .bwd) :
    phaseOk s = true ↔ ffiltOutstanding s = true ∧ lengthPassed s = true
      ∧ s.tbuf.length = extLen s s.len ∧ s.idx < extLen s s.len := by
  simp only [phaseOk, h, Bool.and_eq_true, decide_eq_true_eq, and_assoc]

theorem phaseOk_done (h : s.phase = .done) :
    phaseOk s = true ↔ ffiltOutstanding s = true ∧ lengthPassed s = true
      ∧ s.tbuf.length = extLen s s.len := by
  simp only [phaseOk, h, Bool.and_eq_true, decide_eq_true_eq, and_assoc]

end

/-! ### Buffers -/

theorem bufferOk_memWrite {par : Params} {m : Memory} {i : Nat} {v : Word} (h : BufferOk par m)
    (hi : i < par.nmax) (hv : fits par.prec v = true) : BufferOk par (memWrite m i v) :=
  ⟨memWrite_wf v hi h.1, memFits_memWrite i h.2 hv⟩

theorem bufferOk_memEraseBelow {par : Params} {m : Memory} (n : Nat) (h : BufferOk par m) :
    BufferOk par (memEraseBelow m n) :=
  ⟨memEraseBelow_wf n h.1, memFits_filter _ h.2⟩

theorem bufferOk_memRestore {par : Params} {m : Memory} {i : Nat} {old : Option Word}
    (h : BufferOk par m) (hi : i < par.nmax) (hv : ∀ v ∈ old, fits par.prec v = true) :
    BufferOk par (memRestore m i old) := by
  cases old with
  | none => exact ⟨memErase_wf i h.1, memFits_filter _ h.2⟩
  | some v => exact bufferOk_memWrite h hi (hv v rfl)

theorem bufferOk_memWriteAll {par : Params} {m : Memory} {j : Nat} {vs : List Word}
    (h : BufferOk par m) (hj : j + vs.length ≤ par.nmax) (hv : vs.all (fits par.prec) = true) :
    BufferOk par (memWriteAll m j vs) :=
  ⟨memWriteAll_wf vs m j hj h.1, memFits_memWriteAll vs m j h.2 hv⟩

theorem bufferOk_buffer {s : State} (h : buffersOk s = true) (b : Bank) :
    BufferOk s.par (s.buffer b) := by
  obtain ⟨hx, hy⟩ := (buffersOk_iff s).mp h
  cases b with
  | x => exact hx
  | y => exact hy

/-- A read gives a word of the format. -/
theorem readWord_fits {s : State} (h : buffersOk s = true) (b : Bank) (i : Nat) :
    fits s.prec (readWord b i s).1 = true := by
  rcases readWord_cases b i s with ⟨v, hv, he⟩ | ⟨-, he⟩ <;> rw [he]
  · exact fits_memRead (bufferOk_buffer h b).2 hv
  · exact fits_clip _ _

/-! ### The cascade -/

/-- Arithmetic that returns words of the format. -/
def ArithFits (p : Prec) (ar : Arith Word) : Prop :=
  ∀ (d : Nat) (a b : Word),
    fits p (ar.mul d a b) = true ∧ fits p (ar.add d a b) = true ∧ fits p (ar.sub d a b) = true

/-- That of every `NUMERICS` does (R13). -/
theorem arithFits_machineArith (par : Params) : ArithFits par.prec (machineArith par) :=
  fun d a b => resultsFitTheFormat _ par.prec d a b ⟨par.datapath, rfl⟩

/-- A cascade of words of the format gives words of the format: with no section the sample itself, else
the results of operations. -/
theorem cascade_fits {p : Prec} {ar : Arith Word} (ha : ArithFits p ar) (cs : List (Coeffs Word)) :
    ∀ (ws : List (Delay Word)) (d : Nat) (v : Word), fileFits p ws = true → fits p v = true →
      fits p (cascade ar cs ws d v).1 = true ∧ fileFits p (cascade ar cs ws d v).2 = true := by
  induction cs with
  | nil => intro ws d v hw hv; simp only [cascade]; exact ⟨hv, hw⟩
  | cons c cs ih =>
    intro ws d v hw hv
    cases ws with
    | nil => exact ⟨hv, hw⟩
    | cons w ws =>
      have hws : fileFits p ws = true := by
        simp only [fileFits, List.all_cons, Bool.and_eq_true] at hw ⊢
        exact hw.2
      obtain ⟨hout, hrest⟩ := ih ws (d + 9) (biquad ar d c w v).1 hws (ha _ _ _).2.1
      refine ⟨hout, ?_⟩
      simp only [fileFits, cascade, List.all_cons, Bool.and_eq_true] at hrest ⊢
      exact ⟨⟨(ha _ _ _).2.1, (ha _ _ _).2.2⟩, hrest⟩

/-- A cascade step keeps a good state file and gives a word of the format. -/
theorem cascadeStep_ok {s u : State} {v y : Word} (h : fileOk s = true) (hv : fits s.prec v = true)
    (hc : cascadeStep v s = (y, u)) :
    fits s.prec y = true ∧ ∃ f d, fileOk { s with file := f } = true
      ∧ u = { s with file := f, draws := d } := by
  obtain ⟨hlen, hfits⟩ := (fileOk_iff s).mp h
  obtain ⟨hout, hfile⟩ := cascade_fits (arithFits_machineArith s.par) s.rom.sections s.file s.draws v
    hfits hv
  obtain ⟨rfl, rfl⟩ := Prod.mk.inj hc
  exact ⟨hout, _, _, (fileOk_iff _).mpr ⟨(cascadeStep_file_length v s).trans hlen, hfile⟩,
    cascadeStep_state v s⟩

/-- So does a cascade step on a word just read. -/
theorem readWord_cascadeStep_ok {b : Bank} {i : Nat} {s t u : State} {x y : Word} (h : fileOk s = true)
    (hb : buffersOk s = true) (hr : readWord b i s = (x, t)) (hc : cascadeStep x t = (y, u)) :
    fits s.prec y = true ∧ ∃ f d, fileOk { s with file := f } = true
      ∧ u = { s with file := f, draws := d } := by
  have hx := readWord_fits hb b i
  rw [hr] at hx
  obtain ⟨d, rfl⟩ := state_of_readWord hr
  obtain ⟨hy, f, e, hf, rfl⟩ := cascadeStep_ok (s := { s with draws := d }) h hx hc
  exact ⟨hy, f, e, hf, rfl⟩

theorem fileOk_clearState (s : State) : fileOk (clearState s) = true :=
  (fileOk_iff _).mpr ⟨zeroFile_length _, fileFits_zeroFile _ _⟩

/-! ### Answers -/

theorem wellFormed_respond {s : State} {v : Word} (h : WellFormed s) (hv : fits s.prec v = true) :
    WellFormed (respond v s) :=
  ⟨h.config, h.file, h.buffers, h.latches, Bool.and_eq_true_iff.mpr ⟨hv, rfl⟩, h.exposed, rfl⟩

theorem wellFormed_raise {s : State} {e : Status} (h : WellFormed s) (he : seenOnPort e = true) :
    WellFormed (raise e s) :=
  ⟨h.config, h.file, h.buffers, h.latches, Bool.and_eq_true_iff.mpr ⟨fits_zero _, he⟩, h.exposed, rfl⟩

/-! ### The rows of the controller -/

/-- A row that writes at most the state file, TBUF, `IDX` and `PHASE` keeps the invariant if it keeps
theirs. -/
theorem wellFormed_row {s : State} {f : List (Delay Word)} {tb : List Word} {i d : Nat} {ph : Phase}
    (h : WellFormed s) (hf : fileOk { s with file := f } = true)
    (ht : tb.all (fits s.prec) = true)
    (hp : phaseOk { s with file := f, tbuf := tb, idx := i, phase := ph, draws := d } = true) :
    WellFormed { s with file := f, tbuf := tb, idx := i, phase := ph, draws := d } :=
  ⟨h.config, hf, h.buffers, (latchesOk_iff _).mpr ⟨ht, ((latchesOk_iff s).mp h.latches).2⟩, h.response,
    h.exposed, hp⟩

theorem all_fits_set {p : Prec} {l : List Word} (i : Nat) {v : Word} (h : l.all (fits p) = true)
    (hv : fits p v = true) : (l.set i v).all (fits p) = true := by
  rw [List.all_eq_true] at h ⊢
  intro w hw
  rcases List.mem_or_eq_of_mem_set hw with hw | rfl
  · exact h w hw
  · exact hv

theorem fits_getD {p : Prec} {l : List Word} (i : Nat) (h : l.all (fits p) = true) :
    fits p (l.getD i 0#64) = true := by
  rw [List.getD_eq_getElem?_getD]
  cases hi : l[i]? with
  | none => exact fits_zero p
  | some v => exact List.all_eq_true.mp h v (List.mem_of_getElem? hi)

/-- An accepted sequence is not empty. -/
theorem extLen_pos {s : State} (h : lengthPassed s = true) : 0 < extLen s s.len := by
  have := (lengthPassed_iff s).mp h
  unfold extLen
  omega

/-- The words of TBUF that an `FFILT` answers with stay within YBUF and fit. -/
theorem bufferOk_result {s : State} (h : BufferOk s.par s.ybuf) (hl : lengthPassed s = true)
    (ht : s.tbuf.all (fits s.prec) = true) :
    BufferOk s.par (memWriteAll s.ybuf 0 ((s.tbuf.drop (padLen s)).take s.len)) := by
  refine bufferOk_memWriteAll h ?_ ?_
  · have := (lengthPassed_iff s).mp hl
    have := List.length_take_le s.len (s.tbuf.drop (padLen s))
    omega
  · rw [List.all_eq_true] at ht ⊢
    exact fun w hw => ht w (List.mem_of_mem_drop (List.mem_of_mem_take hw))

/-- Every row of the controller's table keeps the invariant (R156). -/
theorem wellFormed_tick {s : State} (h : WellFormed s) : WellFormed (tick s) := by
  have htb := ((latchesOk_iff s).mp h.latches).1
  rcases tick_cases s with ⟨-, e⟩ | ⟨-, -, e⟩ | ⟨-, -, -, e⟩ | ⟨hp, hmax, hpad, e⟩ | ⟨hp, e⟩
    | ⟨hp, x, t, y, u, hr, hc, hrow⟩ | ⟨hp, e⟩ | ⟨hp, y, u, hc, hrow⟩ | ⟨hp, e⟩
  · rw [e]; exact h
  · rw [e]; exact wellFormed_raise h rfl
  · rw [e]; exact wellFormed_raise h rfl
  · -- `CHECK` passes
    have ho := (phaseOk_check hp).mp h.phase
    rw [e]
    exact wellFormed_row h h.file htb
      ((phaseOk_clear1 rfl).mpr ⟨ho, (lengthPassed_iff s).mpr ⟨hpad, hmax⟩⟩)
  · -- `CLEAR1`
    obtain ⟨ho, hl⟩ := (phaseOk_clear1 hp).mp h.phase
    rw [e]
    exact wellFormed_row (s := s) h (fileOk_clearState s) rfl
      ((phaseOk_fwd rfl).mpr ⟨ho, hl, rfl, extLen_pos hl⟩)
  · -- `FWD`: TBUF grows by one word
    obtain ⟨ho, hl, hlen, hidx⟩ := (phaseOk_fwd hp).mp h.phase
    obtain ⟨hy, f, d, hf, rfl⟩ := readWord_cascadeStep_ok h.file h.buffers hr hc
    have htb' : (s.tbuf ++ [y]).all (fits s.prec) = true := by
      rw [List.all_append, htb]
      exact Bool.and_eq_true_iff.mpr ⟨rfl, Bool.and_eq_true_iff.mpr ⟨hy, rfl⟩⟩
    have hlen' : (s.tbuf ++ [y]).length = s.idx + 1 := by rw [List.length_append, hlen]; rfl
    rcases hrow with ⟨hlt, e⟩ | ⟨hle, e⟩ <;> rw [e]
    · exact wellFormed_row (s := s) h hf htb' ((phaseOk_fwd (by exact hp)).mpr ⟨ho, hl, hlen', hlt⟩)
    · exact wellFormed_row (s := s) h hf htb'
        ((phaseOk_clear2 rfl).mpr ⟨ho, hl, hlen'.trans (Nat.le_antisymm hidx hle)⟩)
  · -- `CLEAR2`
    obtain ⟨ho, hl, hlen⟩ := (phaseOk_clear2 hp).mp h.phase
    rw [e]
    exact wellFormed_row (s := s) h (fileOk_clearState s) htb
      ((phaseOk_bwd rfl).mpr ⟨ho, hl, hlen, Nat.sub_lt (extLen_pos hl) Nat.one_pos⟩)
  · -- `BWD`: the word at `IDX` is replaced
    obtain ⟨ho, hl, hlen, hidx⟩ := (phaseOk_bwd hp).mp h.phase
    obtain ⟨hy, f, d, hf, rfl⟩ := cascadeStep_ok h.file (fits_getD _ htb) hc
    have htb' := all_fits_set s.idx htb hy
    have hlen' := (List.length_set (as := s.tbuf) (i := s.idx) (a := y)).trans hlen
    rcases hrow with ⟨-, e⟩ | ⟨-, e⟩ <;> rw [e]
    · exact wellFormed_row (s := s) h hf htb'
        ((phaseOk_bwd (by exact hp)).mpr ⟨ho, hl, hlen', (Nat.sub_le _ _).trans_lt hidx⟩)
    · exact wellFormed_row (s := s) h hf htb' ((phaseOk_done rfl).mpr ⟨ho, hl, hlen'⟩)
  · -- `DONE`: `LEN` words of TBUF go to YBUF
    obtain ⟨-, hl, -⟩ := (phaseOk_done hp).mp h.phase
    obtain ⟨hx, hy⟩ := (buffersOk_iff s).mp h.buffers
    rw [e]
    exact wellFormed_respond ⟨h.config, h.file, (buffersOk_iff _).mpr ⟨hx, bufferOk_result hy hl htb⟩,
      h.latches, h.response, h.exposed, h.phase⟩ (fits_zero _)

theorem wellFormed_walk (fuel : Nat) {s : State} (h : WellFormed s) : WellFormed (walk fuel s) :=
  walk_induct (P := WellFormed) (fun _ _ => wellFormed_tick) fuel s h

/-! ### The commands -/

/-- The configuration's part: the words of a well-formed image fit (R24 (c)). -/
theorem fits_coefficients {s : State} (h : configOk s = true) {c : Coeffs Word}
    (hc : c ∈ s.rom.sections) : ∀ w ∈ [c.b0, c.b1, c.b2, c.a1, c.a2], fits s.prec w = true := by
  obtain ⟨-, himage⟩ := Bool.and_eq_true_iff.mp h
  obtain ⟨-, -, -, hall⟩ := (imageOk_iff s.par s.rom).mp himage
  have hok := hall c hc
  simp only [sectionOk, coefficientOk, Bool.and_eq_true] at hok
  simp [State.prec, hok]

/-- Every word of a section's eight fits: a coefficient or a state register. -/
theorem fits_sectionWord {s : State} (h : WellFormed s) {c : Coeffs Word} (hc : c ∈ s.rom.sections)
    {k f : Nat} {v : Word} (hv : sectionWord s k c f = some v) : fits s.prec v = true := by
  have hcoef := fits_coefficients h.config hc
  have hreg := fits_registers s.prec ((fileOk_iff s).mp h.file).2 k
  unfold sectionWord at hv
  split at hv <;> cases hv
  case h_6.refl => exact hreg.1
  case h_7.refl => exact hreg.2
  all_goals exact hcoef _ (by simp)

/-- An address of the FLT space answers a word of the format: the tag and the count are clipped, and so
are the words of a section (R24 (c)) and of the state file (R46). -/
theorem fits_fltWord {s : State} (h : WellFormed s) {a : Nat} {v : Word} (hv : fltWord s a = some v) :
    fits s.prec v = true := by
  unfold fltWord at hv
  split at hv
  · exact Option.some.inj hv ▸ fits_clip _ _
  split at hv
  · exact Option.some.inj hv ▸ fits_clip _ _
  split at hv
  · cases hv
  split at hv
  · cases hv
  next c hc => exact fits_sectionWord h (List.mem_of_getElem? hc) hv

/-- Every command a ready block accepts keeps the invariant. -/
theorem wellFormed_executes {i : Instr} {s t : State} (h : WellFormed s) (hp : s.phase = .idle)
    (hr : s.rsp = none) (he : Executes s i t) : WellFormed t := by
  obtain ⟨htb, hdata⟩ := (latchesOk_iff s).mp h.latches
  obtain ⟨hx, hy⟩ := (buffersOk_iff s).mp h.buffers
  cases he with
  | rst =>
    exact wellFormed_respond (s := clearState s)
      (wellFormed_row (s := s) h (fileOk_clearState s) htb h.phase) (fits_zero _)
  | proc =>
    obtain ⟨hout, f, d, hf, hu⟩ := cascadeStep_ok h.file hdata (Prod.mk.eta (p := cascadeStep _ s)).symm
    refine wellFormed_respond ?_ hout
    rw [realOperand, hu]
    exact wellFormed_row (s := s) h hf htb h.phase
  | ffilt n =>
    have ho : ffiltOutstanding (startFfilt n s) = true := by simp [ffiltOutstanding, hr]
    exact wellFormed_walk _
      ⟨h.config, h.file, h.buffers, h.latches, h.response, rfl, (phaseOk_check rfl).mpr ho⟩
  | @wrbuf i hi =>
    have hexposed := (exposedOk_xword (s := { s with exposed := .xword i (memRead s.xbuf i) }) rfl).mpr
      ⟨hi, fun _ hv => fits_memRead hx.2 hv⟩
    exact wellFormed_respond ⟨h.config, h.file, (buffersOk_iff _).mpr ⟨bufferOk_memWrite hx hi hdata, hy⟩,
      h.latches, h.response, hexposed, phaseOk_idle hp⟩ (fits_zero _)
  | wrbufOutside => exact wellFormed_raise h rfl
  | rdbuf b =>
    refine wellFormed_respond ?_ (by rw [readWord_prec]; exact readWord_fits h.buffers b _)
    rw [readWord_state]
    exact ⟨h.config, h.file, h.buffers, h.latches, h.response, h.exposed, h.phase⟩
  | rdbufOutside => exact wellFormed_raise h rfl
  | rdflt hv => exact wellFormed_respond h (fits_fltWord h hv)
  | rdfltInvalid => exact wellFormed_raise h rfl

/-! ### The step -/

theorem wellFormed_consumeInput {s : State} (h : WellFormed s) : WellFormed (consumeInput s) :=
  ⟨h.config, h.file, h.buffers, h.latches, h.response, h.exposed, h.phase⟩

theorem wellFormed_takeResponse {s : State} (h : WellFormed s) (hp : s.phase = .idle) :
    WellFormed (takeResponse s) :=
  ⟨h.config, h.file, h.buffers, h.latches, rfl, rfl, phaseOk_idle hp⟩

theorem wellFormed_accept {s : State} (pin : PortIn) (h : WellFormed s) (hp : s.phase = .idle) :
    WellFormed (accept pin s) :=
  ⟨h.config, h.file, h.buffers,
    (latchesOk_iff _).mpr ⟨((latchesOk_iff s).mp h.latches).1, fits_clip _ _⟩, h.response, rfl,
    phaseOk_idle hp⟩

/-- What an abandoned command leaves of the buffers is well-formed (R217). -/
theorem bufferOk_abandon {s : State} (h : WellFormed s) :
    BufferOk s.par (abandon s).xbuf ∧ BufferOk s.par (abandon s).ybuf := by
  have hb := (buffersOk_iff s).mp h.buffers
  rcases abandon_cases s with ⟨-, e⟩ | ⟨i, old, ho, e | e⟩ | ⟨n, -, e⟩ <;> rw [e]
  · exact hb
  · exact hb
  · obtain ⟨hi, hv⟩ := (exposedOk_xword (openNow_xword ho).2).mp h.exposed
    exact ⟨bufferOk_memRestore hb.1 hi hv, hb.2⟩
  · exact ⟨hb.1, bufferOk_memEraseBelow n hb.2⟩

theorem wellFormed_hardwareReset {s : State} (h : WellFormed s) : WellFormed (hardwareReset s) := by
  have hb := bufferOk_abandon h
  have ht : ((Config.freeWords (s.draws + 3)).map (clip s.prec)).all (fits s.prec) = true := by
    simp
  unfold hardwareReset
  rw [abandon_state]
  exact ⟨h.config, fileOk_clearState s, (buffersOk_iff _).mpr hb,
    (latchesOk_iff _).mpr ⟨ht, ((latchesOk_iff s).mp h.latches).2⟩, rfl, rfl, rfl⟩

/-- Every step keeps the invariant. -/
theorem wellFormed_step {s t : State} (h : WellFormed s) (hs : step s = .next t) : WellFormed t := by
  have hc := wellFormed_consumeInput h
  rcases step_cases hs with ⟨-, rfl⟩ | ⟨-, ⟨-, rfl⟩ | ⟨hp, -, -, rfl⟩ | ⟨-, -, -, rfl⟩
    | ⟨hp, hr, -, i, -, he⟩ | ⟨hp, -, -, -, -, rfl⟩ | ⟨-, -, -, rfl⟩⟩
  · exact wellFormed_hardwareReset hc
  · exact wellFormed_tick hc
  · exact wellFormed_takeResponse hc hp
  · exact hc
  · exact wellFormed_executes (wellFormed_accept _ hc hp) hp hr (executes_of_exec he)
  · exact wellFormed_raise (wellFormed_accept _ hc hp) rfl
  · exact hc

/-- Settles O48, from the invariant kept by a reset, a row of the controller, a response taken and every
command. -/
theorem stepKeepsTheInvariant : Obligations.StepKeepsTheInvariant := by
  intro s t h hs
  exact (stateOk_iff t).mpr (wellFormed_step ((stateOk_iff s).mp h) hs)

end Sys2Proof.Machine
end

section
/-! SUPPORT. Every command ends (spec 10_state R35, 42_filtfilt R156, 70_reset_and_hazards R231): a bound on
the rows a walk of the controller has left, and the response it ends with. -/

namespace Sys2Proof.Machine

/-- A bound on the rows of R156 a controller in this phase has left, for an extended length and a value of
`IDX`.  A row that filters is done at least once, hence the `+ 1` beside each subtraction. -/
def rowsOfPhase (ext idx : Nat) : Phase → Nat
  | .idle => 0
  | .check => 2 * ext + 4
  | .clear1 => 2 * (ext - 1) + 5
  | .fwd => (ext - 1 - idx) + (ext - 1) + 4
  | .clear2 => (ext - 1) + 3
  | .bwd => idx + 2
  | .done => 1

/-- A bound on the rows the controller has left before `PHASE` is `IDLE`. -/
def rowsLeft (s : State) : Nat := rowsOfPhase (extLen s s.len) s.idx s.phase

theorem idle_of_rowsLeft {s : State} (h : rowsLeft s = 0) : s.phase = .idle := by
  unfold rowsLeft at h
  cases hp : s.phase <;> rw [hp] at h <;> simp [rowsOfPhase] at h ⊢

/-- No row changes the extended length. -/
theorem extLen_tick (s : State) : extLen (tick s) (tick s).len = extLen s s.len := by
  obtain ⟨hpar, hrom, -, -, -, -, hlen, -⟩ := tick_frame s
  rw [hlen, extLen_congr _ hpar hrom]

/-- Every row of a working controller brings it nearer to `IDLE`. -/
theorem rowsLeft_tick {s : State} (h : s.phase ≠ .idle) : rowsLeft (tick s) < rowsLeft s := by
  have hpos : 0 < rowsLeft s := Nat.pos_of_ne_zero (mt idle_of_rowsLeft h)
  rw [rowsLeft, extLen_tick]
  rcases tick_cases s with ⟨hp, -⟩ | ⟨-, -, e⟩ | ⟨-, -, -, e⟩ | ⟨hp, -, hpad, e⟩ | ⟨hp, e⟩
    | ⟨hp, x, t, y, u, hr, hc, hrow⟩ | ⟨hp, e⟩ | ⟨hp, y, u, hc, hrow⟩ | ⟨-, e⟩
  · exact absurd hp h
  · rw [e]; exact hpos
  · rw [e]; exact hpos
  · have : 0 < extLen s s.len := by unfold extLen; omega
    rw [e, rowsLeft, hp]
    simp only [rowsOfPhase]
    omega
  · rw [e, rowsLeft, hp]
    simp only [rowsOfPhase]
    omega
  · obtain ⟨f, d, rfl⟩ := state_of_readWord_cascadeStep hr hc
    rcases hrow with ⟨_, e⟩ | ⟨_, e⟩ <;> rw [e, rowsLeft, hp] <;> simp only [rowsOfPhase] <;> omega
  · rw [e, rowsLeft, hp]
    simp only [rowsOfPhase]
    omega
  · obtain ⟨f, d, rfl⟩ := state_of_cascadeStep hc
    rcases hrow with ⟨_, e⟩ | ⟨_, e⟩ <;> rw [e, rowsLeft, hp] <;> simp only [rowsOfPhase] <;> omega
  · rw [e]; exact hpos

/-- A walk with enough fuel ends in `IDLE`. -/
theorem walk_phase {fuel : Nat} : ∀ {s : State}, rowsLeft s ≤ fuel → (walk fuel s).phase = .idle := by
  induction fuel with
  | zero => intro s h; exact idle_of_rowsLeft (Nat.le_zero.mp h)
  | succ k ih =>
    intro s h
    by_cases hp : s.phase = .idle
    · rw [walk_idle _ _ hp, hp]
    · rw [walk_succ _ _ hp]
      exact ih (Nat.le_of_lt_succ ((rowsLeft_tick hp).trans_le h))

/-- A row that ends in `IDLE` leaves a response. -/
theorem tick_answers {s : State} (h : s.phase ≠ .idle) (ht : (tick s).phase = .idle) :
    (tick s).rsp ≠ none := by
  rcases tick_cases s with ⟨hp, -⟩ | ⟨-, -, e⟩ | ⟨-, -, -, e⟩ | ⟨-, -, -, e⟩ | ⟨-, e⟩
    | ⟨hp, x, t, y, u, hr, hc, hrow⟩ | ⟨-, e⟩ | ⟨hp, y, u, hc, hrow⟩ | ⟨-, e⟩
  case inr.inr.inr.inr.inr.inl =>
    obtain ⟨f, d, rfl⟩ := state_of_readWord_cascadeStep hr hc
    rcases hrow with ⟨-, e⟩ | ⟨-, e⟩ <;> rw [e] at ht <;> simp [hp] at ht
  case inr.inr.inr.inr.inr.inr.inr.inl =>
    obtain ⟨f, d, rfl⟩ := state_of_cascadeStep hc
    rcases hrow with ⟨-, e⟩ | ⟨-, e⟩ <;> rw [e] at ht <;> simp [hp] at ht
  · exact absurd hp h
  all_goals rw [e] at ht ⊢; simp at ht ⊢

/-- So does a walk that ends in `IDLE` and began outside it. -/
theorem walk_answers {s : State} (h : s.phase ≠ .idle) (fuel : Nat) :
    (walk fuel s).phase = .idle → (walk fuel s).rsp ≠ none :=
  walk_induct (P := fun t => t.phase = .idle → t.rsp ≠ none) (fun _ hp _ => tick_answers hp) fuel s
    (fun hp => absurd hp h)

/-- The fuel of an `FFILT` is enough for its rows (R156). -/
theorem walk_startFfilt_phase (n : Nat) (s : State) :
    (walk (walkLength s n) (startFfilt n s)).phase = .idle :=
  walk_phase (Nat.le_refl (walkLength s n))

theorem executes_answers {i : Instr} {s t : State} (h : Executes s i t) :
    t.phase = .idle ∧ t.rsp ≠ none := by
  cases h with
  | ffilt n =>
    have hp := walk_startFfilt_phase n s
    exact ⟨hp, walk_answers (by simp) _ hp⟩
  | _ => exact ⟨rfl, nofun⟩

/-- Settles O8: the one command that walks, `FFILT`, walks with enough fuel, and the others answer at
once. -/
theorem everyCommandGetsOneResponse : Obligations.EveryCommandGetsOneResponse := by
  intro i s
  obtain ⟨t, ht, he⟩ := exec_executes i s
  obtain ⟨hp, hr⟩ := executes_answers he
  obtain ⟨r, hr⟩ := Option.ne_none_iff_exists'.mp hr
  exact ⟨t, r, ht, hr, hp⟩

end Sys2Proof.Machine
end

section
/-! SUPPORT. What no step and no command writes (spec 10_state R25, R27, R32, R33). -/

namespace Sys2Proof.Machine

/-! ### The configuration -/

theorem executes_sameConfig {i : Instr} {s t : State} (h : Executes s i t) : sameConfig s t := by
  cases h with
  | ffilt n =>
    obtain ⟨hpar, hrom, -⟩ := walk_frame (walkLength s n) (startFfilt n s)
    exact ⟨hpar, hrom⟩
  | rdbuf => exact ⟨readWord_par _ _ s, readWord_rom _ _ s⟩
  | _ => exact ⟨rfl, rfl⟩

theorem step_sameConfig {s t : State} (h : step s = .next t) : sameConfig s t := by
  rcases step_cases h with ⟨-, rfl⟩ | ⟨-, ⟨-, rfl⟩ | ⟨-, -, -, rfl⟩ | ⟨-, -, -, rfl⟩
    | ⟨-, -, -, i, -, he⟩ | ⟨-, -, -, -, -, rfl⟩ | ⟨-, -, -, rfl⟩⟩
  · exact ⟨hardwareReset_par _, hardwareReset_rom _⟩
  · obtain ⟨hpar, hrom, -⟩ := tick_frame (consumeInput s)
    exact ⟨hpar, hrom⟩
  · exact ⟨rfl, rfl⟩
  · exact ⟨rfl, rfl⟩
  · have hconfig := executes_sameConfig (executes_of_exec he)
    exact hconfig
  · exact ⟨rfl, rfl⟩
  · exact ⟨rfl, rfl⟩

/-- Settles O46, case by case over what a step can do. -/
theorem noStepWritesTheRom : Obligations.NoStepWritesTheRom :=
  fun _ _ h => (step_sameConfig h).symm

/-! ### The state file and the buffers -/

/-- A command other than `RST`, `PROC` and `FFILT` leaves the state file alone (R27). -/
theorem executes_file {i : Instr} {s t : State} (h : Executes s i t) :
    (i = .rst ∨ i = .proc ∨ ∃ n, i = .ffilt n) ∨ t.file = s.file := by
  cases h with
  | rst => exact .inl (.inl rfl)
  | proc => exact .inl (.inr (.inl rfl))
  | ffilt n => exact .inl (.inr (.inr ⟨n, rfl⟩))
  | rdbuf => exact .inr (readWord_file _ _ s)
  | _ => exact .inr rfl

/-- Only `WRBUF j` writes word `j` of XBUF (R32). -/
theorem executes_xbuf {i : Instr} {s t : State} (h : Executes s i t) (j : Nat) :
    i = .wrbuf j ∨ memRead t.xbuf j = memRead s.xbuf j := by
  cases h with
  | ffilt n =>
    obtain ⟨-, -, hx, -⟩ := walk_frame (walkLength s n) (startFfilt n s)
    exact .inr (by rw [hx, startFfilt_xbuf])
  | @wrbuf k =>
    by_cases hj : j = k
    · exact .inl (by rw [hj])
    · exact .inr (memRead_memWrite_other s.xbuf _ hj)
  | rdbuf => exact .inr (by simp)
  | _ => exact .inr rfl

/-- A row of the controller writes YBUF below `LEN` only (R150). -/
theorem tick_ybuf (s : State) {j : Nat} (hj : s.len ≤ j) :
    memRead (tick s).ybuf j = memRead s.ybuf j := by
  rcases tick_cases s with ⟨-, e⟩ | ⟨-, -, e⟩ | ⟨-, -, -, e⟩ | ⟨-, -, -, e⟩ | ⟨-, e⟩
    | ⟨-, x, t, y, u, hr, hc, hrow⟩ | ⟨-, e⟩ | ⟨-, y, u, hc, hrow⟩ | ⟨-, e⟩
  case inr.inr.inr.inr.inr.inl =>
    obtain ⟨f, d, rfl⟩ := state_of_readWord_cascadeStep hr hc
    rcases hrow with ⟨-, e⟩ | ⟨-, e⟩ <;> exact congrArg (memRead ·.ybuf j) e
  case inr.inr.inr.inr.inr.inr.inr.inl =>
    obtain ⟨f, d, rfl⟩ := state_of_cascadeStep hc
    rcases hrow with ⟨-, e⟩ | ⟨-, e⟩ <;> exact congrArg (memRead ·.ybuf j) e
  case inr.inr.inr.inr.inr.inr.inr.inr =>
    -- `DONE` writes `LEN` words from index 0 on
    have hlen := List.length_take_le s.len (s.tbuf.drop (padLen s))
    rw [e, respond_ybuf, memRead_memWriteAll, if_neg (by omega)]
  all_goals exact congrArg (memRead ·.ybuf j) e

theorem walk_ybuf (fuel : Nat) (s : State) {j : Nat} (hj : s.len ≤ j) :
    memRead (walk fuel s).ybuf j = memRead s.ybuf j := by
  refine (walk_induct (P := fun t => t.len = s.len ∧ memRead t.ybuf j = memRead s.ybuf j) ?_ fuel s
    ⟨rfl, rfl⟩).2
  rintro t - ⟨hlen, hread⟩
  obtain ⟨-, -, -, -, -, -, hlen', -⟩ := tick_frame t
  exact ⟨hlen'.trans hlen, (tick_ybuf t (by omega)).trans hread⟩

/-- Only `FFILT n` writes YBUF, and only below `n` (R33). -/
theorem executes_ybuf {i : Instr} {s t : State} (h : Executes s i t) (j : Nat) :
    (∃ n, i = .ffilt n ∧ j < n) ∨ memRead t.ybuf j = memRead s.ybuf j := by
  cases h with
  | ffilt n =>
    rcases Nat.lt_or_ge j n with hj | hj
    · exact .inl ⟨n, rfl, hj⟩
    · exact .inr (walk_ybuf (walkLength s n) (startFfilt n s) hj)
  | rdbuf => exact .inr (by simp)
  | _ => exact .inr rfl

/-- Settles O47, from what each command writes of the state file and of each buffer. -/
theorem commandsWriteOnlyTheirOwnState : Obligations.CommandsWriteOnlyTheirOwnState := by
  intro i s t h
  have he := executes_of_exec h
  exact ⟨executes_file he, executes_xbuf he, executes_ybuf he⟩

end Sys2Proof.Machine
end

section
/-! SUPPORT. The ports at one clock edge, and the state after reset (spec 10_state R29, R35, R36, R38,
70_reset_and_hazards R215, R216). -/

namespace Sys2Proof.Machine

/-! ### The ports -/

theorem cmdReady_iff (s : State) : cmdReady s = true ↔ s.phase = .idle ∧ s.rsp = none := by
  simp only [cmdReady, Bool.and_eq_true, decide_eq_true_eq, Option.isNone_iff_eq_none]

theorem cmdReady_of_waiting {s : State} {r : Response} (h : s.rsp = some r) : cmdReady s = false :=
  Bool.eq_false_iff.mpr fun hready => by
    rw [((cmdReady_iff s).mp hready).2] at h
    cases h

section
variable {s : State} {pin : PortIn} {rest : List PortIn}

/-- The inputs at the coming edge, and the state once it has passed. -/
theorem nextInput_cons (h : s.inputs = pin :: rest) : nextInput s = pin := by
  rw [nextInput, h, List.headD_cons]

theorem consumeInput_cons (h : s.inputs = pin :: rest) :
    consumeInput s = { s with inputs := rest } := by
  rw [consumeInput, h, List.tail_cons]

/-- With no reset, an idle block whose response waits loses it exactly where the host takes it (R35). -/
theorem step_waiting {r : Response} (hp : s.phase = .idle) (hi : s.inputs = pin :: rest)
    (hrst : pin.rst = false) (hr : s.rsp = some r) :
    step s = .next (if pin.rspReady then takeResponse { s with inputs := rest }
      else { s with inputs := rest }) := by
  simp [step, nextInput_cons hi, consumeInput_cons hi, hp, hrst, hr]

/-- With no reset and nothing presented, a ready block lets the edge pass. -/
theorem step_quiet (hp : s.phase = .idle) (hi : s.inputs = pin :: rest) (hrst : pin.rst = false)
    (hr : s.rsp = none) (hv : pin.cmdValid = false) : step s = .next { s with inputs := rest } := by
  simp [step, nextInput_cons hi, consumeInput_cons hi, hp, hrst, hr, hv]

/-- A presented command that decodes is executed in the state that has latched it (R35, R36, R74). -/
theorem step_presented {i : Instr} (h : presents s pin rest) (hd : decode pin.cmdWord = .ok i) :
    step s = exec i (accept pin { s with inputs := rest }) := by
  obtain ⟨hp, hr, hi, hrst, hv⟩ := h
  simp [step, nextInput_cons hi, consumeInput_cons hi, hp, hrst, hr, hv, fetch, hd]

end

/-- Settles O5: the state the command runs in is the one `accept` gives. -/
theorem stepRunsTheDecodedCommand : Obligations.StepRunsTheDecodedCommand :=
  fun _ _ _ _ h hd => step_presented h hd

/-- Settles O7, from `cmd_ready` and the edges of an idle block. -/
theorem portHoldsResponseUntilTaken : Obligations.PortHoldsResponseUntilTaken := by
  intro s
  refine ⟨cmdReady_iff s, fun r hr => ?_, fun hr => ?_, fun pin rest hp hi hrst =>
    ⟨fun r hr hrdy => ⟨cmdReady_of_waiting hr, ?_⟩, fun r hr hrdy => ⟨cmdReady_of_waiting hr, ?_⟩,
      fun hr hv => ⟨(cmdReady_iff s).mpr ⟨hp, hr⟩, step_quiet hp hi hrst hr hv⟩⟩⟩
  · rw [portOut, cmdReady_of_waiting hr, hr, Option.map_some]
  · rw [portOut, hr, Option.map_none]
  · rw [step_waiting hp hi hrst hr, hrdy]
    rfl
  · rw [step_waiting hp hi hrst hr, hrdy]
    rfl

/-! ### Right after reset -/

/-- The cleared state file reads `+0.0` in every register (R38). -/
theorem cleared_afterReset (par : Params) (rom : Image) : cleared (State.afterReset par rom) :=
  ⟨zeroFile_length _, fun k _ =>
    ⟨clearState_w1 (State.afterReset par rom) k, clearState_w2 (State.afterReset par rom) k⟩⟩

theorem memRead_buffer_afterReset (par : Params) (rom : Image) (b : Bank) (i : Nat) :
    memRead ((State.afterReset par rom).buffer b) i = none := by
  cases b <;> rfl

/-- Settles O12: the state after reset is written out field by field. -/
theorem resetStateIsClearedAndIdle : Obligations.ResetStateIsClearedAndIdle :=
  ⟨fun par rom => ⟨rfl, rfl, cleared_afterReset par rom, rfl, rfl, rfl, memRead_buffer_afterReset par rom⟩,
    rfl, rfl⟩

/-- The default parameters and the default image are well-formed (R9, R10, R24). -/
theorem defaultConfig_ok : paramsOk Config.defaultParams = true
    ∧ imageOk Config.defaultParams Config.defaultImage = true := by
  decide +kernel

/-- Settles O49: `State.reset` is the state after reset of a well-formed configuration. -/
theorem resetMeetsTheInvariant : Obligations.ResetMeetsTheInvariant :=
  stateOk_afterReset defaultConfig_ok.1 defaultConfig_ok.2

end Sys2Proof.Machine
end

section
/-! SUPPORT. What the check of one section means (spec 10_state R24 (c), (d)): its words are finite reals,
and its poles lie strictly inside the unit circle. -/

namespace Sys2Proof.Machine

/-! ### Finite words as rational numbers -/

theorem toRat_eq_signedUnits {p : Prec} {w : Word} (h : isFinite p w = true) :
    toRat p w = some ((signedUnits p w : ℚ) / 2 ^ unitBits p) := by
  rw [toRat, datum_of_isFinite h, signedUnits]
  cases isNeg p w <;> simp

theorem isFinite_iff_toRat (p : Prec) (w : Word) : isFinite p w = true ↔ ∃ q, toRat p w = some q := by
  refine ⟨fun h => ⟨_, toRat_eq_signedUnits h⟩, fun ⟨q, hq⟩ => ?_⟩
  unfold toRat at hq
  rcases datum_cases p w with ⟨hd, -⟩ | ⟨hd, -⟩ | ⟨-, -, hfin⟩
  · rw [hd] at hq; cases hq
  · rw [hd] at hq; cases hq
  · exact hfin

theorem coefficientOk_iff (p : Prec) (w : Word) :
    coefficientOk p w = true ↔ fits p w = true ∧ ∃ q, toRat p w = some q := by
  rw [coefficientOk, Bool.and_eq_true, isFinite_iff_toRat, and_comm]

theorem abs_signedUnits (p : Prec) (w : Word) : |signedUnits p w| = unitsOf p (magBits p w) := by
  unfold signedUnits
  split
  · rw [abs_neg, Nat.abs_cast]
  · rw [Nat.abs_cast]

/-- The five words of a section are finite reals of the format (R24 (c)). -/
def WordsOk (p : Prec) (c : Coeffs Word) : Prop :=
  ∀ w ∈ [c.b0, c.b1, c.b2, c.a1, c.a2], fits p w = true ∧ ∃ q, toRat p w = some q

theorem sectionOk_iff (p : Prec) (c : Coeffs Word) :
    sectionOk p c = true ↔ WordsOk p c ∧ polesInside p c.a1 c.a2 = true := by
  simp only [sectionOk, Bool.and_eq_true, coefficientOk_iff, WordsOk, List.forall_mem_cons,
    List.not_mem_nil, false_implies, implies_true, and_true, and_assoc]

/-! ### The triangle of the coefficients -/

/-- The comparison in units is the one of R24 (d) in rational numbers. -/
theorem polesInside_iff {p : Prec} {a1 a2 : Word} {x y : ℚ} (hx : toRat p a1 = some x)
    (hy : toRat p a2 = some y) : polesInside p a1 a2 = true ↔ |y| < 1 ∧ |x| < 1 + y := by
  have hU : (0 : ℚ) < 2 ^ unitBits p := by positivity
  have hx' := toRat_eq_signedUnits ((isFinite_iff_toRat p a1).mpr ⟨x, hx⟩)
  have hy' := toRat_eq_signedUnits ((isFinite_iff_toRat p a2).mpr ⟨y, hy⟩)
  rw [hx] at hx'
  rw [hy] at hy'
  have hm1 := abs_signedUnits p a1
  have hm2 := abs_signedUnits p a2
  have h2 : unitsOf p (magBits p a2) < 2 ^ unitBits p ↔ |(signedUnits p a2 : ℚ)| < 2 ^ unitBits p := by
    rw [← Int.cast_abs, abs_signedUnits]
    norm_cast
  have h1 : (unitsOf p (magBits p a1) : ℤ) < 2 ^ unitBits p + signedUnits p a2
      ↔ |(signedUnits p a1 : ℚ)| < 2 ^ unitBits p + (signedUnits p a2 : ℚ) := by
    rw [← Int.cast_abs, abs_signedUnits]
    norm_cast
  rw [polesInside, Bool.and_eq_true, decide_eq_true_eq, decide_eq_true_eq, h2, h1,
    Option.some.inj hx', Option.some.inj hy', abs_div, abs_div, abs_of_pos hU, div_lt_one hU,
    ← div_self hU.ne', ← add_div, div_lt_div_iff_of_pos_right hU]

/-- A root over the complex numbers, by its real and imaginary part. -/
theorem quadratic_eq_zero_iff (x y : ℝ) (z : ℂ) :
    z ^ 2 + (x : ℂ) * z + (y : ℂ) = 0
      ↔ z.re ^ 2 - z.im ^ 2 + x * z.re + y = 0 ∧ z.im * (2 * z.re + x) = 0 := by
  simp only [Complex.ext_iff, pow_two, Complex.add_re, Complex.add_im, Complex.mul_re, Complex.mul_im,
    Complex.ofReal_re, Complex.ofReal_im, Complex.zero_re, Complex.zero_im]
  constructor <;> rintro ⟨hre, him⟩ <;> constructor <;> linarith

theorem norm_lt_one_iff (z : ℂ) : ‖z‖ < 1 ↔ z.re ^ 2 + z.im ^ 2 < 1 := by
  rw [← sq_lt_one_iff₀ (norm_nonneg z), Complex.sq_norm, Complex.normSq_apply, pow_two, pow_two]

theorem exists_quadratic_root (x y : ℝ) : ∃ z : ℂ, z ^ 2 + (x : ℂ) * z + (y : ℂ) = 0 := by
  obtain ⟨d, hd⟩ := IsAlgClosed.exists_pow_nat_eq ((x : ℂ) ^ 2 - 4 * (y : ℂ)) (n := 2) (by norm_num)
  exact ⟨(-(x : ℂ) + d) / 2, by linear_combination hd / 4⟩

/-- Inside the triangle a real root has magnitude below 1: at and beyond 1, and at and below -1, the
quadratic is positive. -/
theorem real_root_inside {x y r : ℝ} (hy : |y| < 1) (hx : |x| < 1 + y) (hr : r ^ 2 + x * r + y = 0) :
    |r| < 1 := by
  rw [abs_lt] at hy hx ⊢
  constructor
  · by_contra hle
    nlinarith [mul_nonneg (show 0 ≤ -1 - r by linarith) (show 0 ≤ -r - y by linarith)]
  · by_contra hle
    nlinarith [mul_nonneg (show 0 ≤ r - 1 by linarith) (show 0 ≤ r - y by linarith)]

/-- Two real roots inside put the coefficients inside the triangle: `1 + x + y = (1 - r) * (1 - s)` and its
like for the other three sides. -/
theorem triangle_of_real_roots {r s : ℝ} (hr : |r| < 1) (hs : |s| < 1) :
    |r * s| < 1 ∧ |-(r + s)| < 1 + r * s := by
  rw [abs_lt] at hr hs
  have h1 := mul_pos (sub_pos.mpr hr.2) (sub_pos.mpr hs.2)
  have h2 := mul_pos (neg_lt_iff_pos_add'.mp hr.1) (neg_lt_iff_pos_add'.mp hs.1)
  have h3 := mul_pos (sub_pos.mpr hr.2) (neg_lt_iff_pos_add'.mp hs.1)
  have h4 := mul_pos (neg_lt_iff_pos_add'.mp hr.1) (sub_pos.mpr hs.2)
  constructor <;> rw [abs_lt] <;> constructor <;> linarith

/-- So does a root `a + b*i` inside with its conjugate: `1 + x + y = (1 - a)^2 + b^2` and its like. -/
theorem triangle_of_conjugate_roots {a b : ℝ} (h : a ^ 2 + b ^ 2 < 1) :
    |a ^ 2 + b ^ 2| < 1 ∧ |-2 * a| < 1 + (a ^ 2 + b ^ 2) := by
  have hb := sq_nonneg b
  have ha : |a| < 1 := (sq_lt_one_iff_abs_lt_one a).mp (by linarith)
  rw [abs_lt] at ha
  have h1 := pow_pos (sub_pos.mpr ha.2) 2
  have h2 := pow_pos (neg_lt_iff_pos_add'.mp ha.1) 2
  have h3 := sq_nonneg a
  constructor <;> rw [abs_lt] <;> constructor <;> linarith

/-- The stability triangle: both roots of `z^2 + x*z + y` lie strictly inside the unit circle exactly where
`|y| < 1` and `|x| < 1 + y` (R24 (d)). -/
theorem roots_inside_iff (x y : ℝ) :
    (∀ z : ℂ, z ^ 2 + (x : ℂ) * z + (y : ℂ) = 0 → ‖z‖ < 1) ↔ |y| < 1 ∧ |x| < 1 + y := by
  constructor
  · intro h
    obtain ⟨z, hz⟩ := exists_quadratic_root x y
    obtain ⟨hre, him⟩ := (quadratic_eq_zero_iff x y z).mp hz
    rcases mul_eq_zero.mp him with h0 | hsum
    · -- the root is real, and so is the other one
      have hreal : ∀ r : ℝ, r ^ 2 + x * r + y = 0 → |r| < 1 := fun r hr => by
        rw [← Real.norm_eq_abs, ← Complex.norm_real]
        exact h r (by exact_mod_cast congrArg Complex.ofReal hr)
      rw [h0] at hre
      have key := triangle_of_real_roots (hreal z.re (by linarith)) (hreal (-x - z.re) (by linarith))
      rwa [show z.re * (-x - z.re) = y by linarith, show -(z.re + (-x - z.re)) = x by ring] at key
    · -- the other root is the conjugate
      have key := triangle_of_conjugate_roots ((norm_lt_one_iff z).mp (h z hz))
      rw [show -2 * z.re = x by linarith] at key
      rwa [show z.re ^ 2 + z.im ^ 2 = y by rw [show x = -2 * z.re by linarith] at hre; linarith] at key
  · rintro ⟨hy, hx⟩ z hz
    obtain ⟨hre, him⟩ := (quadratic_eq_zero_iff x y z).mp hz
    rw [norm_lt_one_iff]
    rcases mul_eq_zero.mp him with h0 | hsum
    · rw [h0] at hre ⊢
      have hin := (sq_lt_one_iff_abs_lt_one z.re).mpr (real_root_inside hy hx (by linarith))
      linarith
    · -- a root that is not real has squared magnitude `y`
      rw [show x = -2 * z.re by linarith] at hre
      linarith [(abs_lt.mp hy).2]

theorem rational_roots_inside_iff (x y : ℚ) :
    (∀ z : ℂ, z ^ 2 + (x : ℂ) * z + (y : ℂ) = 0 → ‖z‖ < 1) ↔ |y| < 1 ∧ |x| < 1 + y := by
  have h := roots_inside_iff x y
  simp only [Complex.ofReal_ratCast] at h
  rw [h]
  norm_cast

/-- A section is well-formed exactly when its words are and its coefficients lie in the triangle. -/
theorem sectionOk_iff_triangle (p : Prec) (c : Coeffs Word) :
    sectionOk p c = true ↔ WordsOk p c ∧ ∃ x y : ℚ, toRat p c.a1 = some x ∧ toRat p c.a2 = some y
      ∧ |y| < 1 ∧ |x| < 1 + y := by
  rw [sectionOk_iff]
  refine and_congr_right fun hw => ?_
  obtain ⟨x, hx⟩ := (hw c.a1 (by simp)).2
  obtain ⟨y, hy⟩ := (hw c.a2 (by simp)).2
  rw [polesInside_iff hx hy]
  simp [hx, hy]

/-- Settles O18, from the comparison in units and the stability triangle. -/
theorem sectionOkMeansFiniteAndStable : Obligations.SectionOkMeansFiniteAndStable := by
  intro p c
  refine ⟨sectionOk_iff_triangle p c, ?_⟩
  simp only [rational_roots_inside_iff]
  exact sectionOk_iff_triangle p c

end Sys2Proof.Machine
end

section
/-! SUPPORT. The three spaces read and written by the access commands (spec 20_memory R46, R51, R52, R55,
43_access R175 to R184), and the step that rejects a host which reads an unwritten word (R224). -/

namespace Sys2Proof.Machine

/-! ### A command that only answers -/

theorem onlyAnswers_respond (v : Word) (s : State) : onlyAnswers s (respond v s) .ok v :=
  ⟨⟨rfl, rfl⟩, ⟨rfl, rfl⟩, rfl, fun _ => rfl, fun _ => rfl, ⟨rfl, rfl, rfl⟩, rfl, rfl, rfl⟩

/-! ### The sample buffers -/

theorem exec_wrbuf_inside {s : State} {i : Nat} (hi : i < s.par.nmax) :
    exec (.wrbuf i) s = .next (respond 0#64
      { s with xbuf := memWrite s.xbuf i s.cmdData, exposed := .xword i (memRead s.xbuf i) }) :=
  if_neg (Nat.not_le.mpr hi)

theorem exec_wrbuf_outside {s : State} {i : Nat} (hi : s.par.nmax ≤ i) :
    exec (.wrbuf i) s = .next (raise .badAddress s) :=
  if_pos hi

theorem exec_rdbuf_inside {s : State} (b : Bank) {i : Nat} (hi : i < s.par.nmax) :
    exec (.rdbuf b i) s = .next (respond (readWord b i s).1 (readWord b i s).2) :=
  if_neg (Nat.not_le.mpr hi)

theorem exec_rdbuf_outside {s : State} (b : Bank) {i : Nat} (hi : s.par.nmax ≤ i) :
    exec (.rdbuf b i) s = .next (raise .badAddress s) :=
  if_pos hi

/-- Settles O38: outside the buffer neither write does anything, and inside it the second write replaces
the word by itself. -/
theorem wrbufIsIdempotent : Obligations.WrbufIsIdempotent := by
  intro s t u i ht hu
  rcases Nat.lt_or_ge i s.par.nmax with hi | hi
  · obtain rfl := Host.Outcome.next.inj ((exec_wrbuf_inside hi).symm.trans ht)
    obtain rfl := Host.Outcome.next.inj ((exec_wrbuf_inside (by exact hi)).symm.trans hu)
    exact ⟨memWrite_memWrite s.xbuf i s.cmdData s.cmdData, rfl⟩
  · obtain rfl := Host.Outcome.next.inj ((exec_wrbuf_outside hi).symm.trans ht)
    obtain rfl := Host.Outcome.next.inj ((exec_wrbuf_outside (by exact hi)).symm.trans hu)
    exact ⟨rfl, rfl⟩

/-- Settles O40: the word read is a free value cut to the width, and only the draw counter moves. -/
theorem rdbufOfUnwrittenWordStillAnswersOk : Obligations.RdbufOfUnwrittenWordStillAnswersOk := by
  intro s b i hi hnone
  rcases readWord_cases b i s with ⟨v, hv, -⟩ | ⟨-, hread⟩
  · rw [hnone] at hv; cases hv
  · refine ⟨_, clip s.prec (Config.freeWord s.draws), exec_rdbuf_inside b hi, ?_, fits_clip _ _⟩
    rw [hread]
    exact onlyAnswers_respond _ { s with draws := s.draws + 1 }

/-- Settles O41: the read finds the word that the write put at its index. -/
theorem rdbufReadsWhatWrbufWrote : Obligations.RdbufReadsWhatWrbufWrote := by
  intro s i hi
  refine ⟨_, _, exec_wrbuf_inside hi, exec_rdbuf_inside .x (by exact hi), ?_⟩
  rw [readWord_written (by exact memRead_memWrite_same s.xbuf i s.cmdData)]
  exact ⟨rfl, rfl⟩

/-! ### The Filter value -/

theorem exec_rdflt_valid {s : State} {a : Nat} {v : Word} (h : fltWord s a = some v) :
    ∃ t, exec (.rdflt a) s = .next t ∧ onlyAnswers s t .ok v :=
  ⟨respond v s, by simp only [exec, execRdflt, h], onlyAnswers_respond v s⟩

/-- An integer below `2^W` is answered in full (R184). -/
theorem intWord_eq {s : State} {n : Nat} (h : n < 2 ^ wordWidth s.prec) :
    intWord s n = BitVec.ofNat 64 n := by
  refine clip_eq s.prec ?_
  rw [fits, decide_eq_true_eq, BitVec.toNat_ofNat]
  exact (Nat.mod_le _ _).trans_lt h

theorem fltWord_prec (s : State) :
    fltWord s 0 = some (if s.rom.prec = .single then 0#64 else 1#64) := by
  have hwidth : 1 < 2 ^ wordWidth s.prec := Nat.one_lt_two_pow (by cases s.prec <;> decide)
  have htag : precTag s.rom.prec < 2 ^ wordWidth s.prec :=
    (show precTag s.rom.prec ≤ 1 by cases s.rom.prec <;> decide).trans_lt hwidth
  rw [fltWord, if_pos rfl, intWord_eq htag]
  cases s.rom.prec <;> rfl

theorem fltWord_nsec {s : State} (h : s.nsec < 2 ^ wordWidth s.prec) :
    fltWord s 1 = some (BitVec.ofNat 64 s.nsec) := by
  rw [fltWord, if_neg Nat.one_ne_zero, if_pos rfl, intWord_eq h]

/-- Section `k` has the eight addresses from `8 * (k + 1)` on (R46). -/
theorem fltWord_section {s : State} {k f : Nat} {c : Coeffs Word} (hc : s.rom.sections[k]? = some c)
    (hf : f < 8) : fltWord s (8 * (k + 1) + f) = sectionWord s k c f := by
  have hk : (8 * (k + 1) + f) / 8 - 1 = k := by omega
  have hfield : (8 * (k + 1) + f) % 8 = f := by omega
  rw [fltWord, if_neg (by omega), if_neg (by omega), if_neg (by omega), hk, hc, hfield]

/-- Settles O42, from the word the Filter value layout holds at each address. -/
theorem rdfltReadsTheFilterValue : Obligations.RdfltReadsTheFilterValue := by
  intro s hnsec
  refine ⟨exec_rdflt_valid (fltWord_prec s), exec_rdflt_valid (fltWord_nsec hnsec), fun k c hc => ?_⟩
  have field : ∀ {f : Nat} {v : Word}, f < 8 → sectionWord s k c f = some v →
      ∃ t, exec (.rdflt (8 * (k + 1) + f)) s = .next t ∧ onlyAnswers s t .ok v :=
    fun hf hv => exec_rdflt_valid ((fltWord_section hc hf).trans hv)
  exact ⟨field (f := 0) (by decide) rfl, field (by decide) rfl, field (by decide) rfl,
    field (by decide) rfl, field (by decide) rfl, field (by decide) rfl, field (by decide) rfl⟩

/-! ### Reads of unwritten words -/

theorem exists_firstUnwritten_iff (m : Memory) (n : Nat) :
    (∃ k, firstUnwritten m n = some k) ↔ ∃ k, k < n ∧ memRead m k = none := by
  rw [← Option.isSome_iff_exists, firstUnwritten, List.find?_isSome]
  simp only [List.mem_range, Option.isNone_iff_eq_none]

/-- Which commands read an unwritten word: `RDBUF` at its index, and an `FFILT` that passes its checks
anywhere below its length (R52, R224). -/
theorem exists_unwrittenFault_iff (i : Instr) (s : State) :
    (∃ f, unwrittenFault i s = some f) ↔
      (∃ b k, i = .rdbuf b k ∧ k < s.par.nmax ∧ memRead (s.buffer b) k = none)
      ∨ ∃ n k, i = .ffilt n ∧ s.par.padk * s.nsec < n ∧ n ≤ s.par.nmax ∧ k < n
          ∧ memRead s.xbuf k = none := by
  cases i with
  | rdbuf b k => simp [unwrittenFault]
  | ffilt n =>
    have hfault : (∃ f, unwrittenFault (.ffilt n) s = some f) ↔
        (padLen s < n ∧ n ≤ s.par.nmax) ∧ ∃ k, firstUnwritten s.xbuf n = some k := by
      by_cases h : padLen s < n ∧ n ≤ s.par.nmax <;> simp [unwrittenFault, h]
    rw [hfault, exists_firstUnwritten_iff]
    simp [padLen, and_assoc]
  | _ => simp [unwrittenFault]

/-- A clock edge always has a next state (R231). -/
theorem exists_step_eq_next (s : State) : ∃ t, step s = .next t := by
  unfold step
  dsimp only
  split
  · exact ⟨_, rfl⟩
  split
  · exact ⟨_, rfl⟩
  split
  · exact ⟨_, rfl⟩
  split
  · split
    · exact (exec_executes _ _).imp fun _ h => h.1
    · exact ⟨_, rfl⟩
  · exact ⟨_, rfl⟩

/-- The strict step faults exactly where the accepted command reads an unwritten word. -/
theorem exists_stepStrict_fault_iff (s : State) :
    (∃ f, stepStrict s = .fault f) ↔
      ∃ i, acceptedNow s = some i ∧ ∃ f, unwrittenFault i s = some f := by
  obtain ⟨t, ht⟩ := exists_step_eq_next s
  unfold stepStrict
  cases acceptedNow s with
  | none => simp [ht]
  | some i => cases hf : unwrittenFault i s <;> simp [hf, ht]

theorem stepStrict_eq_step {s : State} (h : ¬ ∃ f, stepStrict s = .fault f) :
    stepStrict s = step s := by
  unfold stepStrict at h ⊢
  split
  · rename_i f hf
    exact absurd ⟨f, by rw [hf]⟩ h
  · rfl

/-- Settles O51, from the reads that `unwrittenFault` looks for. -/
theorem strictStepFaultsOnUnwrittenReads : Obligations.StrictStepFaultsOnUnwrittenReads := by
  intro s
  refine ⟨?_, or_iff_not_imp_left.mpr stepStrict_eq_step⟩
  simp only [exists_stepStrict_fault_iff, exists_unwrittenFault_iff]

end Sys2Proof.Machine
end

section
/-! SUPPORT. Operands that are the same reals give results that are the same reals, whatever the draws (spec
00_scope R13, 41_cascade R122, R126): the operations, a section, the cascade. -/

namespace Sys2Proof.Machine

theorem sameReal_refl (par : Params) (w : Word) : sameReal par w w := .inl rfl

/-! ### The operations -/

/-- A NaN operand gives a NaN, and the draw number decides nothing but the bits of a NaN (R126). -/
structure DrawsOnlyNaNs (p : Prec) (op : Nat → Word → Word → Word) : Prop where
  nan : ∀ d a b, isNaN p a = true ∨ isNaN p b = true → isNaN p (op d a b) = true
  draw : ∀ d d' a b, op d a b = op d' a b ∨ isNaN p (op d a b) = true ∧ isNaN p (op d' a b) = true

/-- A sum is a NaN at every draw or one word at every draw. -/
theorem ieeeAdd_drawn_or_fixed (p : Prec) (a b : Word) :
    (∀ d, ieeeAdd p d a b = drawnNaN p d) ∨ ∃ w, ∀ d, ieeeAdd p d a b = w := by
  unfold ieeeAdd
  cases datum p a with
  | nan => exact .inl fun _ => rfl
  | inf s =>
    cases datum p b with
    | nan => exact .inl fun _ => rfl
    | inf t =>
      by_cases h : s = t
      · exact .inr ⟨_, fun _ => if_pos h⟩
      · exact .inl fun _ => if_neg h
    | fin t y => exact .inr ⟨_, fun _ => rfl⟩
  | fin s x =>
    cases datum p b with
    | nan => exact .inl fun _ => rfl
    | inf t => exact .inr ⟨_, fun _ => rfl⟩
    | fin t y => exact .inr ⟨_, fun _ => rfl⟩

/-- So is a product. -/
theorem ieeeMul_drawn_or_fixed (p : Prec) (a b : Word) :
    (∀ d, ieeeMul p d a b = drawnNaN p d) ∨ ∃ w, ∀ d, ieeeMul p d a b = w := by
  unfold ieeeMul
  cases datum p a with
  | nan => exact .inl fun _ => rfl
  | inf s =>
    cases datum p b with
    | nan => exact .inl fun _ => rfl
    | inf t => exact .inr ⟨_, fun _ => rfl⟩
    | fin t y =>
      by_cases h : y = 0
      · exact .inl fun _ => if_pos h
      · exact .inr ⟨_, fun _ => if_neg h⟩
  | fin s x =>
    cases datum p b with
    | nan => exact .inl fun _ => rfl
    | inf t =>
      by_cases h : x = 0
      · exact .inl fun _ => if_pos h
      · exact .inr ⟨_, fun _ => if_neg h⟩
    | fin t y => exact .inr ⟨_, fun _ => rfl⟩

/-- A NaN operand makes a sum the NaN of its draw. -/
theorem ieeeAdd_of_isNaN {p : Prec} (d : Nat) {a b : Word}
    (h : isNaN p a = true ∨ isNaN p b = true) : ieeeAdd p d a b = drawnNaN p d := by
  unfold ieeeAdd
  rcases h with h | h
  · rw [datum_of_isNaN h]
  · rw [datum_of_isNaN h]; cases datum p a <;> rfl

/-- A NaN operand makes a product the NaN of its draw. -/
theorem ieeeMul_of_isNaN {p : Prec} (d : Nat) {a b : Word}
    (h : isNaN p a = true ∨ isNaN p b = true) : ieeeMul p d a b = drawnNaN p d := by
  unfold ieeeMul
  rcases h with h | h
  · rw [datum_of_isNaN h]
  · rw [datum_of_isNaN h]; cases datum p a <;> rfl

theorem drawsOnlyNaNs_of {p : Prec} {op : Nat → Word → Word → Word}
    (hnan : ∀ d {a b}, isNaN p a = true ∨ isNaN p b = true → op d a b = drawnNaN p d)
    (hdraw : ∀ a b, (∀ d, op d a b = drawnNaN p d) ∨ ∃ w, ∀ d, op d a b = w) :
    DrawsOnlyNaNs p op where
  nan d a b h := by rw [hnan d h]; exact isNaN_drawnNaN p d
  draw d d' a b := by
    rcases hdraw a b with h | ⟨w, h⟩
    · rw [h d, h d']
      exact .inr ⟨isNaN_drawnNaN p d, isNaN_drawnNaN p d'⟩
    · rw [h d, h d']
      exact .inl rfl

theorem drawsOnlyNaNs_ieeeMul (p : Prec) : DrawsOnlyNaNs p (ieeeMul p) :=
  drawsOnlyNaNs_of ieeeMul_of_isNaN (ieeeMul_drawn_or_fixed p)

theorem drawsOnlyNaNs_ieeeAdd (p : Prec) : DrawsOnlyNaNs p (ieeeAdd p) :=
  drawsOnlyNaNs_of ieeeAdd_of_isNaN (ieeeAdd_drawn_or_fixed p)

/-- A difference is a sum with the second sign turned over, which keeps NaNs NaNs. -/
theorem drawsOnlyNaNs_ieeeSub (p : Prec) : DrawsOnlyNaNs p (ieeeSub p) where
  nan d a b h := (drawsOnlyNaNs_ieeeAdd p).nan d a (negate p b) (by rwa [isNaN_negate])
  draw d d' a b := (drawsOnlyNaNs_ieeeAdd p).draw d d' a (negate p b)

/-- The operation takes operands that are the same reals to results that are, whatever its draws. -/
def KeepsReals (par : Params) (op : Nat → Word → Word → Word) : Prop :=
  ∀ ⦃d d' : Nat⦄ ⦃a a' b b' : Word⦄, sameReal par a a' → sameReal par b b' →
    sameReal par (op d a b) (op d' a' b')

theorem keepsReals_of_drawsOnlyNaNs {par : Params} {op : Nat → Word → Word → Word}
    (hpath : par.datapath = .ieee) (h : DrawsOnlyNaNs par.prec op) : KeepsReals par op := by
  intro d d' a a' b b' ha hb
  rcases ha with rfl | ⟨-, ha, ha'⟩
  · rcases hb with rfl | ⟨-, hb, hb'⟩
    · exact (h.draw d d' a b).imp_right fun hn => ⟨hpath, hn⟩
    · exact .inr ⟨hpath, h.nan d a b (.inr hb), h.nan d' a b' (.inr hb')⟩
  · exact .inr ⟨hpath, h.nan d a b (.inl ha), h.nan d' a' b' (.inl ha')⟩

/-- With another `NUMERICS` the same reals are the same words (U11). -/
theorem eq_of_sameReal {par : Params} {k : Nat} {a b : Word} (hpath : par.datapath = .other k)
    (h : sameReal par a b) : a = b := by
  rcases h with h | ⟨hieee, -⟩
  · exact h
  · rw [hpath] at hieee; cases hieee

theorem keepsReals_of_noDraws {par : Params} {op : Nat → Word → Word → Word} {k : Nat}
    (hpath : par.datapath = .other k) (h : ∀ d d', op d = op d') : KeepsReals par op := by
  intro d d' a a' b b' ha hb
  rw [eq_of_sameReal hpath ha, eq_of_sameReal hpath hb, h d d']
  exact sameReal_refl par _

/-! ### A section and the cascade -/

/-- All three operations keep the reals. -/
structure ArithKeepsReals (par : Params) (ar : Arith Word) : Prop where
  mul : KeepsReals par ar.mul
  add : KeepsReals par ar.add
  sub : KeepsReals par ar.sub

/-- The block's own operations do, for every `NUMERICS` (R13, R126). -/
theorem arithKeepsReals_machineArith (par : Params) : ArithKeepsReals par (machineArith par) := by
  unfold machineArith
  cases hpath : par.datapath with
  | ieee =>
    exact ⟨keepsReals_of_drawsOnlyNaNs hpath (drawsOnlyNaNs_ieeeMul _),
      keepsReals_of_drawsOnlyNaNs hpath (drawsOnlyNaNs_ieeeAdd _),
      keepsReals_of_drawsOnlyNaNs hpath (drawsOnlyNaNs_ieeeSub _)⟩
  | other k =>
    exact ⟨keepsReals_of_noDraws hpath fun _ _ => rfl, keepsReals_of_noDraws hpath fun _ _ => rfl,
      keepsReals_of_noDraws hpath fun _ _ => rfl⟩

/-- The registers of one section hold the same reals. -/
def sameDelay (par : Params) (u v : Delay Word) : Prop :=
  sameReal par u.w1 v.w1 ∧ sameReal par u.w2 v.w2

theorem simFile_iff (par : Params) (f f' : List (Delay Word)) :
    simFile par f f' ↔ List.Forall₂ (sameDelay par) f f' := Iff.rfl

theorem biquad_keepsReals {par : Params} {ar : Arith Word} (h : ArithKeepsReals par ar) (d d' : Nat)
    (c : Coeffs Word) {w w' : Delay Word} {v v' : Word} (hw : sameDelay par w w')
    (hv : sameReal par v v') :
    sameReal par (biquad ar d c w v).1 (biquad ar d' c w' v').1
      ∧ sameDelay par (biquad ar d c w v).2 (biquad ar d' c w' v').2 := by
  obtain ⟨h1, h2⟩ := hw
  have scaled : ∀ {e e' : Nat} {x x' : Word} (k : Word), sameReal par x x' →
      sameReal par (ar.mul e k x) (ar.mul e' k x') := fun k hx => h.mul (sameReal_refl par k) hx
  have hy : sameReal par (biquad ar d c w v).1 (biquad ar d' c w' v').1 := h.add (scaled c.b0 hv) h1
  exact ⟨hy, h.add (h.sub (scaled c.b1 hv) (scaled c.a1 hy)) h2,
    h.sub (scaled c.b2 hv) (scaled c.a2 hy)⟩

theorem cascade_keepsReals {par : Params} {ar : Arith Word} (h : ArithKeepsReals par ar)
    (cs : List (Coeffs Word)) {ws ws' : List (Delay Word)} {d d' : Nat} {v v' : Word}
    (hws : simFile par ws ws') (hv : sameReal par v v') :
    sameReal par (cascade ar cs ws d v).1 (cascade ar cs ws' d' v').1
      ∧ simFile par (cascade ar cs ws d v).2 (cascade ar cs ws' d' v').2 := by
  induction cs generalizing ws ws' d d' v v' with
  | nil => exact ⟨hv, hws⟩
  | cons c cs ih =>
    cases hws with
    | nil => exact ⟨hv, .nil⟩
    | cons hw hws =>
      obtain ⟨hy, hw⟩ := biquad_keepsReals h d d' c hw hv
      obtain ⟨hout, hrest⟩ := ih hws hy
      exact ⟨hout, .cons hw hrest⟩

/-- One sample through the cascade of two states of one configuration (R122). -/
theorem cascadeStep_keepsReals {s s' : State} {v v' : Word} (hc : sameConfig s s')
    (hf : simFile s.par s.file s'.file) (hv : sameReal s.par v v') :
    sameReal s.par (cascadeStep v s).1 (cascadeStep v' s').1
      ∧ simFile s.par (cascadeStep v s).2.file (cascadeStep v' s').2.file := by
  obtain ⟨hpar, hrom⟩ := hc
  unfold cascadeStep
  rw [hpar, hrom]
  exact cascade_keepsReals (arithKeepsReals_machineArith s.par) s.rom.sections hf hv

theorem simFile_zeroFile (par : Params) (n : Nat) : simFile par (zeroFile n) (zeroFile n) :=
  List.forall₂_same.mpr fun _ _ => ⟨sameReal_refl par _, sameReal_refl par _⟩

/-- Cleared state files of one configuration are the same. -/
theorem simFile_clearState {s s' : State} (hc : sameConfig s s') :
    simFile s.par (clearState s).file (clearState s').file := by
  rw [clearState_file, clearState_file, State.nsec, State.nsec, hc.2]
  exact simFile_zeroFile s.par _

end Sys2Proof.Machine
end

section
/-! SUPPORT. Two controllers of one configuration walk through an `FFILT` in step: from the same reals they
come to the same reals, row by row (spec 42_filtfilt R148 to R157). -/

namespace Sys2Proof.Machine

/-! ### Related lists -/

theorem forall₂_getD {α β : Type} {R : α → β → Prop} {l : List α} {l' : List β} {a : α} {b : β}
    (h : List.Forall₂ R l l') (hd : R a b) (k : Nat) : R (l.getD k a) (l'.getD k b) := by
  induction h generalizing k with
  | nil => exact hd
  | cons hx _ ih =>
    cases k with
    | zero => exact hx
    | succ k => exact ih k

theorem forall₂_set {α β : Type} {R : α → β → Prop} {l : List α} {l' : List β} {a : α} {b : β}
    (h : List.Forall₂ R l l') (hab : R a b) (k : Nat) : List.Forall₂ R (l.set k a) (l'.set k b) := by
  induction h generalizing k with
  | nil => exact .nil
  | cons hx hl ih =>
    cases k with
    | zero => exact .cons hab hl
    | succ k => exact .cons hx (ih k)

/-! ### Buffers that hold the same reals -/

theorem simMem_iff (par : Params) (m m' : Memory) :
    simMem par m m' ↔ ∀ i, Option.Rel (sameReal par) (memRead m i) (memRead m' i) := by
  unfold simMem
  refine forall_congr' fun i => ?_
  cases memRead m i <;> cases memRead m' i <;> simp

theorem simMem_written {par : Params} {m m' : Memory} {i : Nat} {v : Word} (h : simMem par m m')
    (hv : memRead m i = some v) : ∃ v', memRead m' i = some v' ∧ sameReal par v v' := by
  have hrel := (simMem_iff par m m').mp h i
  rw [hv] at hrel
  generalize memRead m' i = o at hrel ⊢
  cases hrel with
  | some hvv => exact ⟨_, rfl, hvv⟩

theorem simMem_memWrite {par : Params} {m m' : Memory} {v v' : Word} (i : Nat) (h : simMem par m m')
    (hv : sameReal par v v') : simMem par (memWrite m i v) (memWrite m' i v') := by
  rw [simMem_iff] at h ⊢
  intro j
  rw [memRead_memWrite, memRead_memWrite]
  by_cases hj : j = i
  · rw [if_pos hj, if_pos hj]; exact .some hv
  · rw [if_neg hj, if_neg hj]; exact h j

theorem simMem_memWriteAll {par : Params} {m m' : Memory} {vs vs' : List Word} (i : Nat)
    (h : simMem par m m') (hvs : List.Forall₂ (sameReal par) vs vs') :
    simMem par (memWriteAll m i vs) (memWriteAll m' i vs') := by
  induction hvs generalizing m m' i with
  | nil => exact h
  | cons hv _ ih => exact ih (i + 1) (simMem_memWrite i h hv)

/-! ### The rows of R156 as equations -/

section
variable {s : State}

theorem tick_clear2 (h : s.phase = .clear2) :
    tick s = { clearState s with idx := extLen s s.len - 1, phase := .bwd } := by
  simp only [tick, h]

theorem tick_fwd_written {v : Word} (h : s.phase = .fwd)
    (hv : memRead s.xbuf (xaddr s.len (padLen s) s.idx) = some v) :
    tick s = { (cascadeStep v s).2 with
      tbuf := s.tbuf ++ [(cascadeStep v s).1]
      idx := if s.idx + 1 < extLen s s.len then s.idx + 1 else s.idx
      phase := if s.idx + 1 < extLen s s.len then .fwd else .clear2 } := by
  simp only [tick, h, readWord_written (b := .x) hv]
  split
  · rw [cascadeStep_state]; simp [h]
  · rfl

theorem tick_bwd (h : s.phase = .bwd) :
    tick s = { (cascadeStep (s.tbuf.getD s.idx 0#64) s).2 with
      tbuf := s.tbuf.set s.idx (cascadeStep (s.tbuf.getD s.idx 0#64) s).1
      idx := s.idx - 1
      phase := if 0 < s.idx then .bwd else .done } := by
  simp only [tick, h]
  split
  · rw [cascadeStep_state]; simp [h]
  · rename_i hidx
    rw [cascadeStep_state, Nat.eq_zero_of_not_pos hidx]

theorem tick_done (h : s.phase = .done) :
    tick s = respond 0#64
      { s with ybuf := memWriteAll s.ybuf 0 ((s.tbuf.drop (padLen s)).take s.len) } := by
  simp only [tick, h]

/-- Only `DONE` writes YBUF (R150). -/
theorem tick_ybuf_of_ne_done (h : s.phase ≠ .done) : (tick s).ybuf = s.ybuf := by
  rcases tick_cases s with ⟨-, e⟩ | ⟨-, -, e⟩ | ⟨-, -, -, e⟩ | ⟨-, -, -, e⟩ | ⟨-, e⟩
    | ⟨-, x, t, y, u, hr, hc, hrow⟩ | ⟨-, e⟩ | ⟨-, y, u, hc, hrow⟩ | ⟨hp, -⟩
  case inr.inr.inr.inr.inr.inl =>
    obtain ⟨f, d, rfl⟩ := state_of_readWord_cascadeStep hr hc
    rcases hrow with ⟨-, e⟩ | ⟨-, e⟩ <;> exact congrArg (·.ybuf) e
  case inr.inr.inr.inr.inr.inr.inr.inl =>
    obtain ⟨f, d, rfl⟩ := state_of_cascadeStep hc
    rcases hrow with ⟨-, e⟩ | ⟨-, e⟩ <;> exact congrArg (·.ybuf) e
  case inr.inr.inr.inr.inr.inr.inr.inr => exact absurd hp h
  all_goals exact congrArg (·.ybuf) e

end

/-! ### An `FFILT` up to its forward pass -/

/-- The state in which `FFILT n` begins its forward pass, its length checks passed (R156). -/
def startPass (n : Nat) (s : State) : State :=
  { clearState (startFfilt n s) with idx := 0, tbuf := [], phase := .fwd }

theorem walk_startFfilt_succ (fuel n : Nat) (s : State) :
    walk (fuel + 1) (startFfilt n s) = walk fuel (tick (startFfilt n s)) := rfl

theorem exec_ffilt_tooLong {s : State} {n : Nat} (h : s.par.nmax < n) :
    exec (.ffilt n) s = .next (raise .lengthExceedsCapacity (startFfilt n s)) := by
  have htick : tick (startFfilt n s) = raise .lengthExceedsCapacity (startFfilt n s) := if_pos h
  rw [exec_ffilt, walkLength, walk_startFfilt_succ, htick, walk_idle _ _ rfl]

theorem exec_ffilt_tooShort {s : State} {n : Nat} (hmax : n ≤ s.par.nmax) (h : n ≤ padLen s) :
    exec (.ffilt n) s = .next (raise .insufficientSamples (startFfilt n s)) := by
  have htick : tick (startFfilt n s) = raise .insufficientSamples (startFfilt n s) :=
    (if_neg (Nat.not_lt.mpr hmax)).trans (if_pos h)
  rw [exec_ffilt, walkLength, walk_startFfilt_succ, htick, walk_idle _ _ rfl]

theorem exec_ffilt_passed {s : State} {n : Nat} (hmax : n ≤ s.par.nmax) (h : padLen s < n) :
    exec (.ffilt n) s = .next (walk (2 * extLen s n + 2) (startPass n s)) := by
  have hcheck : tick (startFfilt n s) = { startFfilt n s with phase := .clear1 } :=
    (if_neg (Nat.not_lt.mpr hmax)).trans (if_neg (Nat.not_le.mpr h))
  rw [exec_ffilt, walkLength, walk_startFfilt_succ, hcheck]
  rfl

/-- Every address of the extended sequence is below the length (R157). -/
theorem xaddr_lt {n p k : Nat} (hp : p < n) (hk : k < n + 2 * p) : xaddr n p k < n := by
  unfold xaddr
  split
  · omega
  · split <;> omega

/-! ### Two controllers in step -/

/-- What a controller past its length checks is about to read and write holds the same reals in both
states, and the words of XBUF the forward pass has still to read have been written. -/
structure InStep (s s' : State) : Prop where
  config : sameConfig s s'
  phase : s'.phase = s.phase
  len : s'.len = s.len
  idx : s'.idx = s.idx
  file : simFile s.par s.file s'.file
  tbuf : List.Forall₂ (sameReal s.par) s.tbuf s'.tbuf
  input : ∀ k, k < extLen s s.len → ∃ v v', memRead s.xbuf (xaddr s.len (padLen s) k) = some v
    ∧ memRead s'.xbuf (xaddr s.len (padLen s) k) = some v' ∧ sameReal s.par v v'
  passed : s.phase ≠ .check ∧ s.phase ≠ .clear1
  inside : s.phase = .fwd → s.idx < extLen s s.len
  response : s.phase = .idle → simResponse s.par s.rsp s'.rsp

section
variable {s s' : State}

/-- A row that writes only the state file, TBUF, `IDX`, `PHASE` and the draw counter. -/
theorem InStep.row (h : InStep s s') {f f' : List (Delay Word)} {tb tb' : List Word}
    {i i' d d' : Nat} {ph ph' : Phase} (hf : simFile s.par f f')
    (htb : List.Forall₂ (sameReal s.par) tb tb') (hi : i' = i) (hph : ph' = ph)
    (hpassed : (ph ≠ .check ∧ ph ≠ .clear1) ∧ ph ≠ .idle) (hinside : ph = .fwd → i < extLen s s.len) :
    InStep { s with file := f, tbuf := tb, idx := i, phase := ph, draws := d }
      { s' with file := f', tbuf := tb', idx := i', phase := ph', draws := d' } :=
  ⟨h.config, hph, h.len, hi, hf, htb, h.input, hpassed.1, hinside,
    fun hidle => absurd hidle hpassed.2⟩

theorem InStep.padLen_eq (h : InStep s s') : padLen s' = padLen s :=
  padLen_congr h.config.1 h.config.2

theorem InStep.extLen_eq (h : InStep s s') : extLen s' s'.len = extLen s s.len := by
  rw [h.len, extLen_congr _ h.config.1 h.config.2]

/-- Every row keeps two controllers in step. -/
theorem inStep_tick (h : InStep s s') (hp : s.phase ≠ .idle) : InStep (tick s) (tick s') := by
  have hp' := h.phase
  cases hs : s.phase <;> rw [hs] at hp'
  case idle => exact absurd hs hp
  case check => exact absurd hs h.passed.1
  case clear1 => exact absurd hs h.passed.2
  case fwd =>
    obtain ⟨v, v', hv, hv', hvv⟩ := h.input s.idx (h.inside hs)
    obtain ⟨hy, hf⟩ := cascadeStep_keepsReals h.config h.file hvv
    rw [tick_fwd_written hs hv, tick_fwd_written hp' (by rwa [h.len, h.idx, h.padLen_eq]),
      h.extLen_eq, h.idx]
    refine h.row hf (List.rel_append h.tbuf (.cons hy .nil)) rfl rfl (by split <;> decide) ?_
    split
    · exact fun _ => ‹_›
    · exact nofun
  case clear2 =>
    rw [tick_clear2 hs, tick_clear2 hp', h.extLen_eq]
    exact h.row (simFile_clearState h.config) h.tbuf rfl rfl (by decide) nofun
  case bwd =>
    obtain ⟨hy, hf⟩ := cascadeStep_keepsReals h.config h.file
      (forall₂_getD h.tbuf (sameReal_refl s.par 0#64) s.idx)
    rw [tick_bwd hs, tick_bwd hp', h.idx]
    refine h.row hf (forall₂_set h.tbuf hy s.idx) rfl rfl (by split <;> decide) ?_
    split <;> exact nofun
  case done =>
    rw [tick_done hs, tick_done hp']
    exact ⟨h.config, rfl, h.len, h.idx, h.file, h.tbuf, h.input, ⟨nofun, nofun⟩, nofun,
      fun _ => ⟨rfl, sameReal_refl s.par _⟩⟩

/-- The words `DONE` writes to YBUF are the same reals. -/
theorem InStep.result (h : InStep s s') :
    List.Forall₂ (sameReal s.par) ((s.tbuf.drop (padLen s)).take s.len)
      ((s'.tbuf.drop (padLen s')).take s'.len) := by
  rw [h.padLen_eq, h.len]
  exact List.forall₂_take _ (List.forall₂_drop _ h.tbuf)

end

/-- What two controllers in step keep from row to row holds after walks of equal length. -/
theorem walk_induct₂ {R : State → State → Prop} (hphase : ∀ s s', R s s' → s'.phase = s.phase)
    (hstep : ∀ s s', s.phase ≠ .idle → R s s' → R (tick s) (tick s')) (fuel : Nat) :
    ∀ s s', R s s' → R (walk fuel s) (walk fuel s') := by
  induction fuel with
  | zero => exact fun _ _ h => h
  | succ k ih =>
    intro s s' h
    by_cases hp : s.phase = .idle
    · rwa [walk_idle _ _ hp, walk_idle _ _ ((hphase s s' h).trans hp)]
    · rw [walk_succ _ _ hp, walk_succ _ _ (by rwa [hphase s s' h])]
      exact ih _ _ (hstep s s' hp h)

/-- Two states of one configuration with the same written reals in XBUF begin their forward passes in
step, whatever else they hold (R158). -/
theorem inStep_startPass {s s' : State} {n : Nat} (hc : sameConfig s s') (hn : padLen s < n)
    (hx : ∀ i, i < n → ∃ v v', memRead s.xbuf i = some v ∧ memRead s'.xbuf i = some v'
      ∧ sameReal s.par v v') : InStep (startPass n s) (startPass n s') where
  config := hc
  phase := rfl
  len := rfl
  idx := rfl
  file := simFile_clearState hc
  tbuf := .nil
  input := fun _ hk => hx _ (xaddr_lt hn hk)
  passed := ⟨nofun, nofun⟩
  inside := fun _ => Nat.lt_of_lt_of_le (Nat.zero_lt_of_lt hn) (Nat.le_add_right n _)
  response := nofun

end Sys2Proof.Machine
end

section
/-! SUPPORT. Determinism (spec 20_memory R57, 41_cascade R126): what a command answers and leaves depends on
the reals held and on nothing hidden. -/

namespace Sys2Proof.Machine

/-- In both states the command gives responses and states that hold the same reals. -/
def Determined (i : Instr) (s s' : State) : Prop :=
  ∃ t t', exec i s = .next t ∧ exec i s' = .next t' ∧ simState t t' ∧ simResponse s.par t.rsp t'.rsp

section
variable {s s' : State}

theorem determined_rst (h : simState s s') : Determined .rst s s' := by
  obtain ⟨hc, -, hx, hy, hd⟩ := h
  exact ⟨_, _, rfl, rfl, ⟨hc, simFile_clearState hc, hx, hy, hd⟩, rfl, sameReal_refl s.par _⟩

theorem determined_proc (h : simState s s') : Determined .proc s s' := by
  obtain ⟨hc, hf, hx, hy, hd⟩ := h
  obtain ⟨hout, hfile⟩ := cascadeStep_keepsReals hc hf hd
  exact ⟨_, _, rfl, rfl, ⟨hc, hfile, hx, hy, hd⟩, rfl, hout⟩

theorem determined_wrbuf (h : simState s s') (i : Nat) : Determined (.wrbuf i) s s' := by
  obtain ⟨hc, hf, hx, hy, hd⟩ := h
  rcases Nat.lt_or_ge i s.par.nmax with hi | hi
  · exact ⟨_, _, exec_wrbuf_inside hi, exec_wrbuf_inside (by rwa [hc.1]),
      ⟨hc, hf, simMem_memWrite i hx hd, hy, hd⟩, rfl, sameReal_refl s.par _⟩
  · exact ⟨_, _, exec_wrbuf_outside hi, exec_wrbuf_outside (by rwa [hc.1]),
      ⟨hc, hf, hx, hy, hd⟩, rfl, sameReal_refl s.par _⟩

theorem simMem_buffer (h : simState s s') (b : Bank) : simMem s.par (s.buffer b) (s'.buffer b) := by
  obtain ⟨-, -, hx, hy, -⟩ := h
  cases b with
  | x => exact hx
  | y => exact hy

theorem determined_rdbuf (h : simState s s') (b : Bank) (i : Nat)
    (hw : i < s.par.nmax → memRead (s.buffer b) i ≠ none) : Determined (.rdbuf b i) s s' := by
  have hpar : s'.par = s.par := h.1.1
  rcases Nat.lt_or_ge i s.par.nmax with hi | hi
  · obtain ⟨v, hv⟩ := Option.ne_none_iff_exists'.mp (hw hi)
    obtain ⟨v', hv', hvv⟩ := simMem_written (simMem_buffer h b) hv
    refine ⟨_, _, exec_rdbuf_inside b hi, exec_rdbuf_inside b (by rwa [hpar]), ?_⟩
    rw [readWord_written hv, readWord_written hv']
    exact ⟨h, rfl, hvv⟩
  · exact ⟨_, _, exec_rdbuf_outside b hi, exec_rdbuf_outside b (by rwa [hpar]), h, rfl,
      sameReal_refl s.par _⟩

/-- The registers of section `k` hold the same reals. -/
theorem sameReal_registers (hf : simFile s.par s.file s'.file) (k : Nat) :
    sameReal s.par (s.w1 k) (s'.w1 k) ∧ sameReal s.par (s.w2 k) (s'.w2 k) :=
  forall₂_getD ((simFile_iff s.par _ _).mp hf) ⟨sameReal_refl s.par _, sameReal_refl s.par _⟩ k

theorem sectionWord_rel (hf : simFile s.par s.file s'.file) (k : Nat) (c : Coeffs Word) (f : Nat) :
    Option.Rel (sameReal s.par) (sectionWord s k c f) (sectionWord s' k c f) := by
  obtain ⟨h1, h2⟩ := sameReal_registers hf k
  match f with
  | 0 | 1 | 2 | 3 | 4 => exact .some (sameReal_refl s.par _)
  | 5 => exact .some h1
  | 6 => exact .some h2
  | _ + 7 => exact .none

/-- The same addresses of the FLT space are valid and hold the same reals. -/
theorem fltWord_rel (h : simState s s') (a : Nat) :
    Option.Rel (sameReal s.par) (fltWord s a) (fltWord s' a) := by
  obtain ⟨⟨hpar, hrom⟩, hf, -⟩ := h
  unfold fltWord intWord State.prec State.nsec
  rw [hpar, hrom]
  split
  · exact .some (sameReal_refl s.par _)
  split
  · exact .some (sameReal_refl s.par _)
  split
  · exact .none
  split
  · exact .none
  · exact sectionWord_rel hf _ _ _

theorem determined_rdflt (h : simState s s') (a : Nat) : Determined (.rdflt a) s s' := by
  have hrel := fltWord_rel h a
  unfold Determined
  simp only [exec, execRdflt]
  generalize fltWord s a = o, fltWord s' a = o' at hrel
  cases hrel with
  | some hv => exact ⟨_, _, rfl, rfl, h, rfl, hv⟩
  | none => exact ⟨_, _, rfl, rfl, h, rfl, sameReal_refl s.par _⟩

/-- Controllers in step whose YBUFs hold the same reals. -/
def InStepWithOutput (t t' : State) : Prop := InStep t t' ∧ simMem t.par t.ybuf t'.ybuf

theorem inStepWithOutput_tick (h : InStepWithOutput s s') (hp : s.phase ≠ .idle) :
    InStepWithOutput (tick s) (tick s') := by
  obtain ⟨hstep, hy⟩ := h
  refine ⟨inStep_tick hstep hp, ?_⟩
  rw [(tick_frame s).1]
  by_cases hs : s.phase = .done
  · rw [tick_done hs, tick_done (hstep.phase.trans hs)]
    exact simMem_memWriteAll 0 hy hstep.result
  · rwa [tick_ybuf_of_ne_done hs, tick_ybuf_of_ne_done (by rwa [hstep.phase])]

theorem walk_inStepWithOutput (fuel : Nat) (h : InStepWithOutput s s') :
    InStepWithOutput (walk fuel s) (walk fuel s') :=
  walk_induct₂ (fun _ _ h => h.1.phase) (fun _ _ hp h => inStepWithOutput_tick h hp) fuel s s' h

/-- An `FFILT` that passes its checks and finds its input written walks both states to the same reals. -/
theorem determined_ffilt_passed {n : Nat} (h : simState s s') (hmax : n ≤ s.par.nmax)
    (hn : padLen s < n) (hw : ∀ k, k < n → memRead s.xbuf k ≠ none) : Determined (.ffilt n) s s' := by
  obtain ⟨hc, -, hx, hy, hd⟩ := h
  have hinput : ∀ k, k < n → ∃ v v', memRead s.xbuf k = some v ∧ memRead s'.xbuf k = some v'
      ∧ sameReal s.par v v' := fun k hk => by
    obtain ⟨v, hv⟩ := Option.ne_none_iff_exists'.mp (hw k hk)
    obtain ⟨v', hv', hvv⟩ := simMem_written hx hv
    exact ⟨v, v', hv, hv', hvv⟩
  have hexec := exec_ffilt_passed hmax hn
  have hexec' : exec (.ffilt n) s' = .next (walk (2 * extLen s n + 2) (startPass n s')) := by
    rw [← extLen_congr n hc.1 hc.2]
    exact exec_ffilt_passed (by rwa [hc.1]) (by rwa [padLen_congr hc.1 hc.2])
  have hidle := (executes_answers (executes_of_exec hexec)).1
  generalize 2 * extLen s n + 2 = fuel at hexec hexec' hidle
  obtain ⟨hstep, hout⟩ := walk_inStepWithOutput fuel ⟨inStep_startPass hc hn hinput, hy⟩
  obtain ⟨hpar, -, hwx, -, hwd, -⟩ := walk_frame fuel (startPass n s)
  obtain ⟨-, -, hwx', -, hwd', -⟩ := walk_frame fuel (startPass n s')
  have hresponse := hstep.response hidle
  rw [hpar] at hresponse
  refine ⟨_, _, hexec, hexec', ⟨hstep.config, hstep.file, ?_, hout, ?_⟩, hresponse⟩
  · rw [hpar, hwx, hwx']; exact hx
  · rw [hpar, hwd, hwd']; exact hd

theorem determined_ffilt (h : simState s s') (n : Nat)
    (hw : padLen s < n → n ≤ s.par.nmax → ∀ k, k < n → memRead s.xbuf k ≠ none) :
    Determined (.ffilt n) s s' := by
  have hpar : s'.par = s.par := h.1.1
  have hpad : padLen s' = padLen s := padLen_congr hpar h.1.2
  rcases Nat.lt_or_ge s.par.nmax n with hmax | hmax
  · exact ⟨_, _, exec_ffilt_tooLong hmax, exec_ffilt_tooLong (by rwa [hpar]), h, rfl,
      sameReal_refl s.par _⟩
  rcases Nat.lt_or_ge (padLen s) n with hn | hn
  · exact determined_ffilt_passed h hmax hn (hw hn hmax)
  · exact ⟨_, _, exec_ffilt_tooShort hmax hn, exec_ffilt_tooShort (by rwa [hpar]) (by rwa [hpad]), h,
      rfl, sameReal_refl s.par _⟩

end

/-- Settles O50, command by command: only `RDBUF` and `FFILT` need the premise that no unwritten word is
read. -/
theorem responsesAreDeterminedByTheReals : Obligations.ResponsesAreDeterminedByTheReals := by
  intro i s s' h hfault
  have hwritten : ¬ ∃ f, unwrittenFault i s = some f := by simp [hfault]
  rw [exists_unwrittenFault_iff] at hwritten
  cases i with
  | rst => exact determined_rst h
  | proc => exact determined_proc h
  | ffilt n =>
    exact determined_ffilt h n fun hn hmax k hk hnone =>
      hwritten (.inr ⟨n, k, rfl, hn, hmax, hk, hnone⟩)
  | wrbuf k => exact determined_wrbuf h k
  | rdbuf b k =>
    exact determined_rdbuf h b k fun hk hnone => hwritten (.inl ⟨b, k, rfl, hk, hnone⟩)
  | rdflt a => exact determined_rdflt h a

end Sys2Proof.Machine
end

section
/-! SUPPORT. The words of the command set (spec 30_encoding R66, R69, R70, R72, R74): what number the word
of each command is, and which words are no command's. -/

namespace Sys2Proof

/-! ### The number of a command's word -/

/-- The word is the one of the command in the opcode map, as a number, with every operand in the range its
field can carry (R69, R70). -/
def Carries (w : BitVec 32) : Instr → Prop
  | .rst => w.toNat = 0x10000000
  | .proc => w.toNat = 0x20000000
  | .ffilt n => n < 2 ^ 24 ∧ w.toNat = 0x30000000 + n
  | .wrbuf i => i < 2 ^ 23 ∧ w.toNat = 0x40000000 + i
  | .rdbuf b i => i < 2 ^ 23 ∧ w.toNat = 0x50000000 + bankBit b * 2 ^ 23 + i
  | .rdflt a => a < 2 ^ 24 ∧ w.toNat = 0x60000000 + a

theorem bankBit_lt_two (b : Bank) : bankBit b < 2 := by cases b <;> decide

@[simp] theorem bankOf_bankBit (b : Bank) : bankOf (bankBit b) = b := by cases b <;> rfl

theorem bankBit_bankOf {k : Nat} (hk : k < 2) : bankBit (bankOf k) = k := by
  obtain rfl | rfl : k = 0 ∨ k = 1 := by omega
  · rfl
  · rfl

/-- The encoder gives that number to every well-formed command, and a word is determined by its number. -/
theorem carries_iff_encode (w : BitVec 32) (i : Instr) :
    Carries w i ↔ i.wellFormed = true ∧ encode i = w := by
  cases i with
  | rst => simp [Carries, Instr.wellFormed, encode, ← BitVec.toNat_inj, eq_comm]
  | proc => simp [Carries, Instr.wellFormed, encode, ← BitVec.toNat_inj, eq_comm]
  | rdbuf b i =>
    have hb := bankBit_lt_two b
    simp only [Carries, Instr.wellFormed, encode, ← BitVec.toNat_inj, BitVec.toNat_ofNat,
      decide_eq_true_eq]
    omega
  | _ =>
    simp only [Carries, Instr.wellFormed, encode, ← BitVec.toNat_inj, BitVec.toNat_ofNat,
      decide_eq_true_eq]
    omega

/-- Each field of the number of a command's word is the one the decoder looks for (R66). -/
theorem decode_of_carries {w : BitVec 32} {i : Instr} (h : Carries w i) : decode w = .ok i := by
  cases i with
  | rst =>
    replace h : w.toNat = 0x10000000 := h
    exact decode_fields w (rsv := 0) (op := 1) (arg := 0) (by omega) (by omega) (by omega) rfl rfl
  | proc =>
    replace h : w.toNat = 0x20000000 := h
    exact decode_fields w (rsv := 0) (op := 2) (arg := 0) (by omega) (by omega) (by omega) rfl rfl
  | ffilt n =>
    obtain ⟨hn, hw⟩ := h
    exact decode_fields w (rsv := 0) (op := 3) (arg := n) (by omega) (by omega) (by omega) rfl rfl
  | wrbuf i =>
    obtain ⟨hi, hw⟩ := h
    exact decode_fields w (rsv := 0) (op := 4) (bank := 0) (idx := i) (by omega) (by omega) rfl (by omega)
      (by omega)
  | rdbuf b i =>
    obtain ⟨hi, hw⟩ := h
    have hb := bankBit_lt_two b
    have hd := decode_fields w (rsv := 0) (op := 5) (bank := bankBit b) (idx := i) (by omega) (by omega) rfl
      (by omega) (by omega)
    rwa [bankOf_bankBit] at hd
  | rdflt a =>
    obtain ⟨ha, hw⟩ := h
    exact decode_fields w (rsv := 0) (op := 6) (arg := a) (by omega) (by omega) (by omega) rfl rfl

/-- A word that decodes has the number of the command it decodes to: the fields the decoder has read are
all its bits (R74). -/
theorem carries_of_decode {w : BitVec 32} {i : Instr} (h : decode w = .ok i) : Carries w i := by
  rw [decode_fields w rfl rfl rfl rfl rfl] at h
  split at h
  · cases h
  next hrsv =>
    split at h
    next hop =>
      split at h <;> cases h
      change w.toNat = 0x10000000
      omega
    next hop =>
      split at h <;> cases h
      change w.toNat = 0x20000000
      omega
    next hop => cases h; exact ⟨by omega, by omega⟩
    next hop =>
      split at h <;> cases h
      exact ⟨by omega, by omega⟩
    next hop =>
      cases h
      refine ⟨by omega, ?_⟩
      rw [bankBit_bankOf (by omega)]
      omega
    next hop => cases h; exact ⟨by omega, by omega⟩
    · cases h

theorem decode_eq_ok_iff (w : BitVec 32) (i : Instr) : decode w = .ok i ↔ Carries w i :=
  ⟨carries_of_decode, decode_of_carries⟩

/-- Settles O2, by the number of the command's word. -/
theorem decodeOfEncodeIsTheCommand : Obligations.DecodeOfEncodeIsTheCommand :=
  fun i hi => decode_of_carries ((carries_iff_encode (encode i) i).mpr ⟨hi, rfl⟩)

/-- Settles O3, by the number of the word. -/
theorem encodeOfDecodeIsTheWord : Obligations.EncodeOfDecodeIsTheWord :=
  fun w i h => (carries_iff_encode w i).mp (carries_of_decode h)

/-- Settles O1: each word has the number of its command. -/
theorem writtenOutWordsDecode : Obligations.WrittenOutWordsDecode :=
  ⟨decode_of_carries rfl, decode_of_carries rfl, decode_of_carries ⟨by decide, rfl⟩,
    decode_of_carries ⟨by decide, rfl⟩, decode_of_carries ⟨by decide, rfl⟩,
    decode_of_carries ⟨by decide, rfl⟩, decode_of_carries ⟨by decide, rfl⟩⟩

/-! ### The rows of the opcode map -/

/-- A mask of the leading bits compares the leading part of the number. -/
theorem and_mask_eq_iff (k : Nat) {m : Nat} {p : BitVec 32} (w : BitVec 32) (hk : k ≤ 32 := by decide)
    (hm : m = 2 ^ 32 - 2 ^ k := by decide) (hp : p.toNat % 2 ^ k = 0 := by decide) :
    w &&& BitVec.ofNat 32 m = p ↔ w.toNat / 2 ^ k = p.toNat / 2 ^ k := by
  rw [← beq_iff_eq, Laws.OpcodeMap.and_mask k hk w p m hm hp, decide_eq_true_eq]

theorem toNat_extractLsb'_eq_mod (w : BitVec 32) (lo len : Nat) :
    (w.extractLsb' lo len).toNat = w.toNat / 2 ^ lo % 2 ^ len := by
  rw [BitVec.extractLsb'_toNat, Nat.shiftRight_eq_div_pow]

theorem getLsbD_eq_true_iff (w : BitVec 32) (k : Nat) :
    w.getLsbD k = true ↔ w.toNat / 2 ^ k % 2 = 1 := by
  rw [← BitVec.testBit_toNat, Nat.testBit_eq_decide_div_mod_eq, decide_eq_true_eq]

/-- The bank of a bit of the word, by its number (R66). -/
theorem eq_ite_getLsbD_iff (b : Bank) (w : BitVec 32) (k : Nat) :
    (b = if w.getLsbD k then Bank.y else Bank.x) ↔ bankBit b = w.toNat / 2 ^ k % 2 := by
  have hbit := getLsbD_eq_true_iff w k
  cases hk : w.getLsbD k with
  | true =>
    rw [hbit.mp hk]
    cases b <;> decide
  | false =>
    rw [show w.toNat / 2 ^ k % 2 = 0 by simp [hk] at hbit; omega]
    cases b <;> decide

section
variable (w : BitVec 32)

theorem carries_rst_iff : Carries w .rst ↔ w &&& 0xFFFFFFFF#32 = 0x10000000#32 := by
  rw [and_mask_eq_iff 0, pow_zero, Nat.div_one, Nat.div_one]
  rfl

theorem carries_proc_iff : Carries w .proc ↔ w &&& 0xFFFFFFFF#32 = 0x20000000#32 := by
  rw [and_mask_eq_iff 0, pow_zero, Nat.div_one, Nat.div_one]
  rfl

theorem carries_ffilt_iff (n : Nat) : Carries w (.ffilt n) ↔
    w &&& 0xFF000000#32 = 0x30000000#32 ∧ n = (w.extractLsb' 0 24).toNat := by
  rw [and_mask_eq_iff 24, toNat_extractLsb'_eq_mod, Carries, BitVec.toNat_ofNat]
  omega

theorem carries_wrbuf_iff (i : Nat) : Carries w (.wrbuf i) ↔
    w &&& 0xFF800000#32 = 0x40000000#32 ∧ i = (w.extractLsb' 0 23).toNat := by
  rw [and_mask_eq_iff 23, toNat_extractLsb'_eq_mod, Carries, BitVec.toNat_ofNat]
  omega

theorem carries_rdbuf_iff (b : Bank) (i : Nat) : Carries w (.rdbuf b i) ↔
    w &&& 0xFF000000#32 = 0x50000000#32 ∧ i = (w.extractLsb' 0 23).toNat
      ∧ b = if w.getLsbD 23 then Bank.y else Bank.x := by
  have hb := bankBit_lt_two b
  rw [and_mask_eq_iff 24, toNat_extractLsb'_eq_mod, eq_ite_getLsbD_iff, Carries, BitVec.toNat_ofNat]
  omega

theorem carries_rdflt_iff (a : Nat) : Carries w (.rdflt a) ↔
    w &&& 0xFF000000#32 = 0x60000000#32 ∧ a = (w.extractLsb' 0 24).toNat := by
  rw [and_mask_eq_iff 24, toNat_extractLsb'_eq_mod, Carries, BitVec.toNat_ofNat]
  omega

theorem exists_decode_eq_error_iff_not_ok :
    (∃ e, decode w = .error e) ↔ ∀ i, decode w ≠ .ok i := by
  cases decode w <;> simp

/-- The illegal words are those of no row. -/
theorem exists_decode_eq_error_iff_no_row : (∃ e, decode w = .error e) ↔
    w &&& 0xFFFFFFFF#32 ≠ 0x10000000#32 ∧ w &&& 0xFFFFFFFF#32 ≠ 0x20000000#32
      ∧ w &&& 0xFF000000#32 ≠ 0x30000000#32 ∧ w &&& 0xFF800000#32 ≠ 0x40000000#32
      ∧ w &&& 0xFF000000#32 ≠ 0x50000000#32 ∧ w &&& 0xFF000000#32 ≠ 0x60000000#32 := by
  simp only [exists_decode_eq_error_iff_not_ok, ne_eq, decode_eq_ok_iff]
  constructor
  · intro h
    exact ⟨mt (carries_rst_iff w).mpr (h _), mt (carries_proc_iff w).mpr (h _),
      fun hrow => h _ ((carries_ffilt_iff w _).mpr ⟨hrow, rfl⟩),
      fun hrow => h _ ((carries_wrbuf_iff w _).mpr ⟨hrow, rfl⟩),
      fun hrow => h _ ((carries_rdbuf_iff w _ _).mpr ⟨hrow, rfl, rfl⟩),
      fun hrow => h _ ((carries_rdflt_iff w _).mpr ⟨hrow, rfl⟩)⟩
  · rintro ⟨hrst, hproc, hffilt, hwrbuf, hrdbuf, hrdflt⟩ i hi
    cases i with
    | rst => exact hrst ((carries_rst_iff w).mp hi)
    | proc => exact hproc ((carries_proc_iff w).mp hi)
    | ffilt n => exact hffilt ((carries_ffilt_iff w n).mp hi).1
    | wrbuf k => exact hwrbuf ((carries_wrbuf_iff w k).mp hi).1
    | rdbuf b k => exact hrdbuf ((carries_rdbuf_iff w b k).mp hi).1
    | rdflt a => exact hrdflt ((carries_rdflt_iff w a).mp hi).1

/-- The illegal words by their fields: the list of R72. -/
theorem exists_decode_eq_error_iff_fields : (∃ e, decode w = .error e) ↔
    w.toNat / 2 ^ 28 = 0 ∨ 7 ≤ w.toNat / 2 ^ 28 ∨ w.toNat / 2 ^ 24 % 16 ≠ 0
      ∨ ((w.toNat / 2 ^ 28 = 1 ∨ w.toNat / 2 ^ 28 = 2) ∧ w.toNat % 2 ^ 24 ≠ 0)
      ∨ (w.toNat / 2 ^ 28 = 4 ∧ w.toNat / 2 ^ 23 % 2 = 1) := by
  rw [decode_fields w rfl rfl rfl rfl rfl]
  split
  next hrsv => exact iff_of_true ⟨_, rfl⟩ (.inr (.inr (.inl hrsv)))
  next hrsv =>
    split
    next hop =>
      split
      · exact iff_of_false nofun (by omega)
      · exact iff_of_true ⟨_, rfl⟩ (by omega)
    next hop =>
      split
      · exact iff_of_false nofun (by omega)
      · exact iff_of_true ⟨_, rfl⟩ (by omega)
    next hop => exact iff_of_false nofun (by omega)
    next hop =>
      split
      · exact iff_of_false nofun (by omega)
      · exact iff_of_true ⟨_, rfl⟩ (by omega)
    next hop => exact iff_of_false nofun (by omega)
    next hop => exact iff_of_false nofun (by omega)
    next h1 h2 h3 h4 h5 h6 =>
      simp only [imp_false] at h1 h2 h3 h4 h5 h6
      exact iff_of_true ⟨_, rfl⟩ (by omega)

end

/-- Settles O4, row by row. -/
theorem decodeFollowsOpcodeMap : Obligations.DecodeFollowsOpcodeMap := by
  intro w
  simp only [decode_eq_ok_iff]
  exact ⟨carries_rst_iff w, carries_proc_iff w, carries_ffilt_iff w, carries_wrbuf_iff w,
    carries_rdbuf_iff w, carries_rdflt_iff w, exists_decode_eq_error_iff_no_row w⟩

end Sys2Proof
end

section
/-! SUPPORT. The words and the commands the block answers with another status than `OK` (spec 30_encoding
R72, 60_exceptions R197, R203). -/

namespace Sys2Proof.Machine

/-! ### Illegal words -/

/-- A presented word that does not decode is accepted and answered (R72). -/
theorem step_illegal {s : State} {pin : PortIn} {rest : List PortIn} {e : IllegalWord}
    (h : presents s pin rest) (hd : decode pin.cmdWord = .error e) :
    step s = .next (raise .illegalCommand (accept pin { s with inputs := rest })) := by
  obtain ⟨hp, hr, hi, hrst, hv⟩ := h
  simp [step, nextInput_cons hi, consumeInput_cons hi, hp, hrst, hr, hv, fetch, hd]

/-- Settles O6, from the fields of the illegal words and the answer to one. -/
theorem illegalWordsAreAnsweredIllegalCommand : Obligations.IllegalWordsAreAnsweredIllegalCommand := by
  intro s pin rest h
  refine ⟨?_, fun ⟨e, hd⟩ => ⟨_, step_illegal h hd, ⟨rfl, rfl⟩, rfl, ⟨rfl, rfl⟩, rfl, fun _ => rfl,
    fun _ => rfl, ⟨rfl, rfl, rfl⟩, rfl⟩⟩
  have hlt := pin.cmdWord.isLt
  rw [exists_decode_eq_error_iff_fields, getLsbD_eq_true_iff]
  simp only [toNat_extractLsb'_eq_mod]
  omega

/-! ### Failures -/

/-- A controller past its length checks: nothing but an answer `OK` ends its walk. -/
def PastChecks (t : State) : Prop :=
  t.phase ≠ .check ∧ (t.phase = .idle → ∃ v, t.rsp = some { status := .ok, data := v })

theorem pastChecks_of_working {t : State} (hcheck : t.phase ≠ .check) (hidle : t.phase ≠ .idle) :
    PastChecks t := ⟨hcheck, fun h => absurd h hidle⟩

/-- No row but the checks answers a failure (R156). -/
theorem pastChecks_tick {s : State} (h : PastChecks s) : PastChecks (tick s) := by
  rcases tick_cases s with ⟨-, e⟩ | ⟨hp, -⟩ | ⟨hp, -⟩ | ⟨hp, -⟩ | ⟨-, e⟩
    | ⟨hp, x, t, y, u, hr, hc, hrow⟩ | ⟨-, e⟩ | ⟨hp, y, u, hc, hrow⟩ | ⟨-, e⟩
  · rwa [e]
  · exact absurd hp h.1
  · exact absurd hp h.1
  · exact absurd hp h.1
  · exact e ▸ pastChecks_of_working nofun nofun
  · obtain ⟨f, d, rfl⟩ := state_of_readWord_cascadeStep hr hc
    rcases hrow with ⟨-, e⟩ | ⟨-, e⟩
    · exact e ▸ pastChecks_of_working (by simp [hp]) (by simp [hp])
    · exact e ▸ pastChecks_of_working nofun nofun
  · exact e ▸ pastChecks_of_working nofun nofun
  · obtain ⟨f, d, rfl⟩ := state_of_cascadeStep hc
    rcases hrow with ⟨-, e⟩ | ⟨-, e⟩
    · exact e ▸ pastChecks_of_working (by simp [hp]) (by simp [hp])
    · exact e ▸ pastChecks_of_working nofun nofun
  · exact e ▸ ⟨nofun, fun _ => ⟨_, rfl⟩⟩

/-- An `FFILT` whose length passes the checks is answered `OK` (R146, R156). -/
theorem exec_ffilt_passed_answers_ok {s t : State} {n : Nat} (hmax : n ≤ s.par.nmax) (h : padLen s < n)
    (ht : exec (.ffilt n) s = .next t) : ∃ v, t.rsp = some { status := .ok, data := v } := by
  have hidle : t.phase = .idle := (executes_answers (executes_of_exec ht)).1
  rw [exec_ffilt_passed hmax h] at ht
  obtain rfl := Host.Outcome.next.inj ht
  exact (walk_induct (P := PastChecks) (fun _ _ => pastChecks_tick) _ _
    (pastChecks_of_working (by simp [startPass]) (by simp [startPass]))).2 hidle

theorem raise_eq_of_rsp {e : Status} {s : State} {r : Response} (hr : (raise e s).rsp = some r) :
    raise e s = raise r.status s := by
  obtain rfl := Option.some.inj hr
  rfl

theorem status_of_respond {v : Word} {s : State} {r : Response} (hr : (respond v s).rsp = some r) :
    r.status = .ok := by
  obtain rfl := Option.some.inj hr
  rfl

/-- An `FFILT` that fails has latched its length and raised its status (R146, R156). -/
theorem exec_ffilt_failed {n : Nat} {s t : State} {r : Response} (h : exec (.ffilt n) s = .next t)
    (hr : t.rsp = some r) (hfail : r.status ≠ .ok) : t = raise r.status (startFfilt n s) := by
  rcases Nat.lt_or_ge s.par.nmax n with hmax | hmax
  · rw [exec_ffilt_tooLong hmax] at h
    obtain rfl := Host.Outcome.next.inj h
    exact raise_eq_of_rsp hr
  rcases Nat.lt_or_ge (padLen s) n with hn | hn
  · obtain ⟨v, hv⟩ := exec_ffilt_passed_answers_ok hmax hn h
    obtain rfl := Option.some.inj (hv.symm.trans hr)
    exact absurd rfl hfail
  · rw [exec_ffilt_tooShort hmax hn] at h
    obtain rfl := Host.Outcome.next.inj h
    exact raise_eq_of_rsp hr

/-- A command that fails has only raised its status; only an `FFILT` has latched its length first (R203). -/
theorem exec_failed {i : Instr} {s t : State} {r : Response} (h : exec i s = .next t)
    (hr : t.rsp = some r) (hfail : r.status ≠ .ok) :
    t = raise r.status s ∨ ∃ n, i = .ffilt n ∧ t = raise r.status (startFfilt n s) := by
  cases executes_of_exec h with
  | ffilt n => exact .inr ⟨n, rfl, exec_ffilt_failed h hr hfail⟩
  | wrbufOutside => exact .inl (raise_eq_of_rsp hr)
  | rdbufOutside => exact .inl (raise_eq_of_rsp hr)
  | rdfltInvalid => exact .inl (raise_eq_of_rsp hr)
  | _ => exact absurd (status_of_respond hr) hfail

/-- Settles O44: raising a status and latching a length touch nothing that the statement speaks of. -/
theorem failureHasNoEffect : Obligations.FailureHasNoEffect := by
  intro i s t r h hr hfail
  rcases exec_failed h hr hfail with rfl | ⟨n, -, rfl⟩
  all_goals
    rw [← Option.some.inj hr]
    exact ⟨rfl, ⟨rfl, rfl⟩, rfl, fun _ => rfl, fun _ => rfl, ⟨rfl, rfl, rfl⟩, rfl⟩

end Sys2Proof.Machine
end

section
/-! SUPPORT. What the design operations check and what they return (spec 40_rom_design R87 to R89, R98,
R100, R104, R113): the outcome of each check, the number of sections, and the coefficients that are zero by
construction. -/

namespace Sys2Proof.Machine

/-! ### The outcome of a design operation -/

theorem design_of_error {par : Params} {spec : FilterSpec} {e : Status}
    (h : designError par.maxsec spec = some e) : design par spec = .error e := by
  simp only [design, h]

theorem design_of_none {par : Params} {spec : FilterSpec} (h : designError par.maxsec spec = none) :
    design par spec = .ok { prec := par.prec, sections := designSections par.prec spec } := by
  simp only [design, h]

theorem exists_design_of_none {par : Params} {spec : FilterSpec}
    (h : designError par.maxsec spec = none) : ∃ img, design par spec = .ok img :=
  ⟨_, design_of_none h⟩

/-- A design that succeeds passed its checks, and its image holds the stored sections (R85, R111). -/
theorem of_design_eq_ok {par : Params} {spec : FilterSpec} {img : Image}
    (h : design par spec = .ok img) :
    designError par.maxsec spec = none
      ∧ img = { prec := par.prec, sections := designSections par.prec spec } := by
  cases he : designError par.maxsec spec with
  | some e => rw [design_of_error he] at h; cases h
  | none => rw [design_of_none he] at h; exact ⟨rfl, (Except.ok.inj h).symm⟩

/-- The error of a design that fails is that of its first failing check. -/
theorem of_design_eq_error {par : Params} {spec : FilterSpec} {e : Status}
    (h : design par spec = .error e) : designError par.maxsec spec = some e := by
  cases he : designError par.maxsec spec with
  | some e' => rw [design_of_error he] at h; rw [Except.error.inj h]
  | none => rw [design_of_none he] at h; cases h

/-! ### The checks of a low-pass or high-pass (R87) -/

section
variable {maxsec : Nat} {ord : Int} {fc flow fhigh fs : Word}

theorem orderOk_eq_false (h : ord ≤ 0 ∨ 2 * (maxsec : Int) < ord) : orderOk maxsec ord = false := by
  rw [Bool.eq_false_iff, ne_eq, orderOk_iff]
  omega

theorem checkSingle_badOrder (h : orderOk maxsec ord = false) :
    checkSingle maxsec ord fc fs = some .invalidOrder := if_pos h

theorem checkSingle_badFrequency (ho : orderOk maxsec ord = true) (h : ¬ goodFrequency fc fs) :
    checkSingle maxsec ord fc fs = some .invalidFrequency := by
  rw [goodFrequency_iff, not_and_or, Bool.not_eq_true, Bool.not_eq_true] at h
  rw [checkSingle, if_neg (by rw [ho]; decide)]
  rcases h with h | h
  · exact if_pos h
  · rw [if_pos h, ite_self]

theorem checkSingle_passed (ho : orderOk maxsec ord = true) (h : goodFrequency fc fs) :
    checkSingle maxsec ord fc fs = none := by
  obtain ⟨hfs, hfc⟩ := (goodFrequency_iff fc fs).mp h
  simp only [checkSingle, ho, hfs, hfc, Bool.true_eq_false, if_false]

theorem orderOk_of_checkSingle (h : checkSingle maxsec ord fc fs = none) : orderOk maxsec ord = true := by
  by_contra ho
  rw [checkSingle_badOrder (Bool.eq_false_iff.mpr ho)] at h
  cases h

/-! ### The checks of a band-pass (R88) -/

/-- The two edges are frequencies `0 < f < Fs/2`, the lower one first. -/
def goodBand (flow fhigh fs : Word) : Prop :=
  goodFrequency flow fs ∧ goodFrequency fhigh fs
    ∧ ∃ l h : ℚ, toRat .double flow = some l ∧ toRat .double fhigh = some h ∧ l < h

/-- Of two positive words the smaller real has fewer units. -/
theorem exists_toRat_lt_iff {v w : Word} (hv : positive v = true) (hw : positive w = true) :
    (∃ l h : ℚ, toRat .double v = some l ∧ toRat .double w = some h ∧ l < h) ↔ dUnits v < dUnits w := by
  simp only [toRat_of_positive hv, toRat_of_positive hw, Option.some.injEq, exists_and_left,
    exists_eq_left', div_lt_div_iff_of_pos_right unitScale_pos, Nat.cast_lt]

/-- The checks on the edges are those frequencies and their order: the lower edge lies below `Fs/2` as it
lies below the upper one. -/
theorem goodBand_iff (flow fhigh fs : Word) :
    goodBand flow fhigh fs ↔ positive fs = true
      ∧ (positive flow && positive fhigh && belowNyquist fhigh fs
        && decide (dUnits flow < dUnits fhigh)) = true := by
  simp only [goodBand, goodFrequency_iff, Bool.and_eq_true, decide_eq_true_eq]
  constructor
  · rintro ⟨⟨hs, hl, -⟩, ⟨-, hh, hn⟩, hlt⟩
    exact ⟨hs, ⟨⟨hl, hh⟩, hn⟩, (exists_toRat_lt_iff hl hh).mp hlt⟩
  · rintro ⟨hs, ⟨⟨hl, hh⟩, hn⟩, hlt⟩
    refine ⟨⟨hs, hl, ?_⟩, ⟨hs, hh, hn⟩, (exists_toRat_lt_iff hl hh).mpr hlt⟩
    simp only [belowNyquist, decide_eq_true_eq] at hn ⊢
    omega

theorem checkBand_badOrder (h : orderOk maxsec ord = false) :
    checkBand maxsec ord flow fhigh fs = some .invalidOrder := if_pos h

theorem checkBand_badFrequency (ho : orderOk maxsec ord = true) (h : ¬ goodBand flow fhigh fs) :
    checkBand maxsec ord flow fhigh fs = some .invalidFrequency := by
  rw [goodBand_iff, not_and_or, Bool.not_eq_true, Bool.not_eq_true] at h
  rw [checkBand, if_neg (by rw [ho]; decide)]
  rcases h with h | h
  · exact if_pos h
  · rw [if_pos h, ite_self]

/-- Past the order and the edges the capacity alone decides. -/
theorem checkBand_goodBand (ho : orderOk maxsec ord = true) (h : goodBand flow fhigh fs) :
    checkBand maxsec ord flow fhigh fs = if (maxsec : Int) < ord then some .tooManySections else none := by
  obtain ⟨hs, hedges⟩ := (goodBand_iff flow fhigh fs).mp h
  simp only [checkBand, ho, hs, hedges, Bool.true_eq_false, if_false]

theorem order_of_checkBand (h : checkBand maxsec ord flow fhigh fs = none) :
    0 < ord ∧ ord ≤ (maxsec : Int) := by
  cases ho : orderOk maxsec ord with
  | false => rw [checkBand_badOrder ho] at h; cases h
  | true =>
    by_cases hb : goodBand flow fhigh fs
    · rw [checkBand_goodBand ho hb] at h
      split at h
      · cases h
      · exact ⟨((orderOk_iff _ _).mp ho).1, by omega⟩
    · rw [checkBand_badFrequency ho hb] at h; cases h

end

/-- Settles O52: both operations make the checks of checkSingle. -/
theorem singleBandDesignChecksInOrder : Obligations.SingleBandDesignChecksInOrder := by
  intro par ord fc fs spec hspec
  have herr : designError par.maxsec spec = checkSingle par.maxsec ord fc fs := by
    rcases hspec with rfl | rfl <;> rfl
  refine ⟨fun h => design_of_error ?_, fun h0 h1 hf => design_of_error ?_,
    fun h0 h1 hf => exists_design_of_none ?_⟩ <;> rw [herr]
  · exact checkSingle_badOrder (orderOk_eq_false h)
  · exact checkSingle_badFrequency ((orderOk_iff _ _).mpr ⟨h0, h1⟩) hf
  · exact checkSingle_passed ((orderOk_iff _ _).mpr ⟨h0, h1⟩) hf

/-- Settles O53: the checks of checkBand, the capacity last. -/
theorem bandpassDesignChecksInOrder : Obligations.BandpassDesignChecksInOrder := by
  intro par ord flow fhigh fs spec good
  refine ⟨fun h => design_of_error ?_, fun h0 h1 hb => design_of_error ?_,
    fun h0 h1 hb hcap => design_of_error ?_, fun h0 h1 hb => exists_design_of_none ?_⟩
  · exact checkBand_badOrder (orderOk_eq_false h)
  · exact checkBand_badFrequency ((orderOk_iff _ _).mpr ⟨h0, h1⟩) hb
  · exact (checkBand_goodBand ((orderOk_iff _ _).mpr ⟨h0, h1⟩) hb).trans (if_pos hcap)
  · exact (checkBand_goodBand ((orderOk_iff _ _).mpr ⟨h0, by omega⟩) hb).trans (if_neg (by omega))

/-! ### The number of sections (R89, R100) -/

theorem pairIndices_length (ord : Nat) : (pairIndices ord).length = ord / 2 := by
  simp only [pairIndices, List.length_map, List.length_range]

/-- The section of an odd order, if there is one. -/
theorem length_ite_singleton {α : Type} (ord : Nat) (c : α) :
    (if ord % 2 = 1 then [c] else []).length = ord % 2 := by
  rcases Nat.mod_two_eq_zero_or_one ord with h | h <;> simp only [h] <;> rfl

theorem lowpassSections_length (ord : Nat) (fc fs : Word) :
    (lowpassSections ord fc fs).length = (ord + 1) / 2 := by
  simp only [lowpassSections, List.length_append, List.length_map, pairIndices_length,
    length_ite_singleton]
  omega

theorem highpassSections_length (ord : Nat) (fc fs : Word) :
    (highpassSections ord fc fs).length = (ord + 1) / 2 := by
  simp only [highpassSections, List.length_append, List.length_map, pairIndices_length,
    length_ite_singleton]
  omega

theorem bandpassSections_length (ord : Nat) (flow fhigh fs : Word) :
    (bandpassSections ord flow fhigh fs).length = ord := by
  have htwo : ∀ F b pk, (bandpassTwo F b pk).length = 2 := fun _ _ _ => rfl
  simp only [bandpassSections, List.length_append, List.length_flatMap, htwo, List.map_const',
    List.sum_replicate, pairIndices_length, length_ite_singleton, smul_eq_mul]
  omega

@[simp] theorem designSections_length (p : Prec) (spec : FilterSpec) :
    (designSections p spec).length = (computedSections spec).length := List.length_map ..

/-- The number of sections R89 gives a FilterSpec. -/
def SectionCount (spec : FilterSpec) (n : Nat) : Prop :=
  match spec with
  | .lowpass ord _ _ => (n : Int) = (ord + 1) / 2
  | .highpass ord _ _ => (n : Int) = (ord + 1) / 2
  | .bandpass ord _ _ _ => (n : Int) = ord
  | .notch _ _ _ => n = 1

theorem sectionCount_computedSections {maxsec : Nat} {spec : FilterSpec}
    (h : designError maxsec spec = none) : SectionCount spec (computedSections spec).length := by
  cases spec with
  | lowpass ord fc fs =>
    have := ((orderOk_iff _ _).mp (orderOk_of_checkSingle h)).1
    simp only [SectionCount, computedSections, lowpassSections_length]
    omega
  | highpass ord fc fs =>
    have := ((orderOk_iff _ _).mp (orderOk_of_checkSingle h)).1
    simp only [SectionCount, computedSections, highpassSections_length]
    omega
  | bandpass ord flow fhigh fs =>
    have := (order_of_checkBand h).1
    simp only [SectionCount, computedSections, bandpassSections_length]
    omega
  | notch f0 q fs => rfl

/-- The sections of a valid FilterSpec fit every ROM that holds a section at all. -/
theorem sectionCount_bounds {maxsec n : Nat} {spec : FilterSpec} (h : designError maxsec spec = none)
    (hn : SectionCount spec n) : 1 ≤ n ∧ (1 ≤ maxsec → n ≤ maxsec) := by
  cases spec with
  | lowpass ord fc fs =>
    have := (orderOk_iff _ _).mp (orderOk_of_checkSingle h)
    simp only [SectionCount] at hn
    omega
  | highpass ord fc fs =>
    have := (orderOk_iff _ _).mp (orderOk_of_checkSingle h)
    simp only [SectionCount] at hn
    omega
  | bandpass ord flow fhigh fs =>
    have := order_of_checkBand h
    simp only [SectionCount] at hn
    omega
  | notch f0 q fs =>
    simp only [SectionCount] at hn
    omega

/-- Settles O55: the count of the computed sections, each of which is stored well-formed. -/
theorem designedSectionCounts : Obligations.DesignedSectionCounts := by
  intro par spec img himg
  obtain ⟨hpass, rfl⟩ := of_design_eq_ok himg
  have hcount := sectionCount_computedSections hpass
  obtain ⟨hmin, hmax⟩ := sectionCount_bounds hpass hcount
  refine ⟨rfl, fun hcap => (imageOk_iff _ _).mpr ⟨rfl, ?_, ?_, fun c hc => ?_⟩, ?_⟩
  · rwa [designSections_length]
  · rw [designSections_length]
    exact hmax hcap
  · obtain ⟨x, -, rfl⟩ := List.mem_map.mp hc
    exact sectionOk_storeSection _ x
  · rw [← designSections_length par.prec] at hcount
    cases spec <;> exact hcount

/-! ### The coefficients that are zero by construction (R98, R104) -/

/-- `+0.0` is finite and moves nowhere. -/
theorem finiteWord_zero (p : Prec) : finiteWord p 0#64 = 0#64 :=
  finiteWord_eq p (by cases p <;> decide)

theorem below_zero (p : Prec) {n : Nat} (h : 0 < n) : below p n 0#64 = 0#64 := by
  have hunits : unitsOf p (magBits p 0#64) = 0 := (unitsOf_eq_zero p _).mpr (by cases p <;> decide)
  rw [below, hunits, if_pos h]

/-- What a rounding tries for one coefficient: the number or an edge of its tolerance (R105). -/
def Tried (p : Prec) (x y : Fx) : Prop := y = x ∨ y = fxShrink x ∨ y = fxGrow p x

/-- A rounding stores each coefficient's number, or for `a1` and `a2` an edge of its tolerance. -/
theorem roundings_cases {p : Prec} {c : Coeffs Fx} {w : Coeffs Word} (h : w ∈ roundings p c) :
    ∃ c' : Coeffs Fx, w = nearestSection p c' ∧ c'.b0 = c.b0 ∧ c'.b1 = c.b1 ∧ c'.b2 = c.b2
      ∧ Tried p c.a1 c'.a1 ∧ Tried p c.a2 c'.a2 := by
  cases p with
  | double =>
    simp only [roundings, List.mem_singleton] at h
    exact ⟨c, h, rfl, rfl, rfl, .inl rfl, .inl rfl⟩
  | single =>
    obtain ⟨c', hc', rfl⟩ := List.mem_map.mp h
    refine ⟨c', rfl, ?_⟩
    simp only [List.mem_cons, List.not_mem_nil, or_false] at hc'
    rcases hc' with rfl | rfl | rfl | rfl | rfl | rfl <;> simp [Tried]

theorem tried_zero {p : Prec} {y : Fx} (h : Tried p .zero y) : y = .zero := by
  rcases h with h | h | h <;> exact h

/-- A coefficient that is zero by construction is stored as `+0.0`, whichever section is stored (R104). -/
theorem storeSection_zero (p : Prec) (c : Coeffs Fx) :
    (c.b1 = .zero → (storeSection p c).b1 = 0#64) ∧ (c.b2 = .zero → (storeSection p c).b2 = 0#64)
      ∧ (c.a2 = .zero → (storeSection p c).a2 = 0#64) := by
  rcases storeSection_cases p c with ⟨hmem, -⟩ | ⟨-, heq⟩
  · obtain ⟨c', hw, -, hb1, hb2, -, ha2⟩ := roundings_cases hmem
    rw [hw]
    refine ⟨fun h => ?_, fun h => ?_, fun h => ?_⟩
    · simp only [nearestSection, hb1, h, storeFx]
    · simp only [nearestSection, hb2, h, storeFx]
    · rw [h] at ha2
      simp only [nearestSection, tried_zero ha2, storeFx]
  · rw [heq]
    refine ⟨fun h => ?_, fun h => ?_, fun h => ?_⟩ <;>
      simp only [insideCircle, nearestSection, h, storeFx, finiteWord_zero,
        below_zero p (a2Room_pos p _ _)]

/-- Every band-pass section is computed with the numerator `(g, 0, -g)` (R96, R104). -/
theorem bandpassSections_b1 {ord : Nat} {flow fhigh fs : Word} {c : Coeffs Fx}
    (h : c ∈ bandpassSections ord flow fhigh fs) : c.b1 = .zero := by
  simp only [bandpassSections, List.mem_append, List.mem_flatMap] at h
  rcases h with ⟨k, -, hc⟩ | hc
  · simp only [bandpassTwo, List.mem_cons, List.not_mem_nil, or_false] at hc
    rcases hc with rfl | rfl <;> rfl
  · split at hc
    · obtain rfl := List.mem_singleton.mp hc
      unfold cancelA2 bandpassOdd
      split <;> dsimp only <;> split <;> rfl
    · cases hc

/-- The last section of an odd low-pass or high-pass is the first-order one, stored with its two zeros. -/
theorem getLast?_stored_zeros (p : Prec) (l : List (Coeffs Fx)) {c : Coeffs Fx} (hb2 : c.b2 = .zero)
    (ha2 : c.a2 = .zero) : ∃ w, ((l ++ [c]).map (storeSection p)).getLast? = some w
      ∧ w.b2 = 0#64 ∧ w.a2 = 0#64 := by
  obtain ⟨-, hzero2, hzeroA⟩ := storeSection_zero p c
  exact ⟨storeSection p c, by simp, hzero2 hb2, hzeroA ha2⟩

/-- Settles O56, from the zeros of the computed sections. -/
theorem structuralZerosAreStoredExactly : Obligations.StructuralZerosAreStoredExactly := by
  intro par spec img himg
  obtain ⟨hpass, rfl⟩ := of_design_eq_ok himg
  cases spec with
  | lowpass ord fc fs =>
    intro hodd
    have hnat : ord.toNat % 2 = 1 := by
      have := ((orderOk_iff _ _).mp (orderOk_of_checkSingle hpass)).1
      omega
    simp only [designSections, computedSections, lowpassSections, if_pos hnat]
    exact getLast?_stored_zeros _ _ rfl rfl
  | highpass ord fc fs =>
    intro hodd
    have hnat : ord.toNat % 2 = 1 := by
      have := ((orderOk_iff _ _).mp (orderOk_of_checkSingle hpass)).1
      omega
    simp only [designSections, computedSections, highpassSections, if_pos hnat]
    exact getLast?_stored_zeros _ _ rfl rfl
  | bandpass ord flow fhigh fs =>
    intro w hw
    obtain ⟨c, hc, rfl⟩ := List.mem_map.mp hw
    exact (storeSection_zero _ c).1 (bandpassSections_b1 hc)
  | notch f0 q fs => trivial

end Sys2Proof.Machine
end

section
/-! SUPPORT. A computed coefficient is stored as the word nearest to it, the even one of two (spec
40_rom_design R104). -/

namespace Sys2Proof.Machine

/-! ### The rounded quotient -/

/-- The rounded quotient is the whole number nearest to the exact one, the even one of two; both sides
are multiplied by the divisor. -/
theorem roundDiv_nearest (num sh : Nat) (t : ℤ) :
    |(roundDiv num sh : ℤ) * 2 ^ sh - num| ≤ |t * 2 ^ sh - num|
      ∧ (|(roundDiv num sh : ℤ) * 2 ^ sh - num| = |t * 2 ^ sh - num| → t ≠ roundDiv num sh →
        roundDiv num sh % 2 = 0) := by
  have hnum := Nat.div_add_mod num (2 ^ sh)
  have hmod := Nat.mod_lt num (Nat.two_pow_pos sh)
  unfold roundDiv
  dsimp only
  generalize num / 2 ^ sh = q at *
  generalize num % 2 ^ sh = r at *
  have hpow : ((2 ^ sh : ℕ) : ℤ) = 2 ^ sh := by push_cast; rfl
  rw [← hpow]
  generalize 2 ^ sh = d at *
  subst hnum
  -- another whole number is at or below `q`, or at or above `q + 1`
  obtain ⟨k, rfl⟩ : ∃ k : ℤ, t = q + k := ⟨t - q, by ring⟩
  have hdist : ∀ j : ℤ, (q + j) * (d : ℤ) - ((d * q + r : ℕ) : ℤ) = j * d - r := by
    intro j; push_cast; ring
  have hlow : ((q : ℕ) : ℤ) * (d : ℤ) - ((d * q + r : ℕ) : ℤ) = -r := by push_cast; ring
  have hhigh : ((q + 1 : ℕ) : ℤ) * (d : ℤ) - ((d * q + r : ℕ) : ℤ) = d - r := by push_cast; ring
  rw [hdist]
  have hd : (0 : ℤ) < d := by omega
  rcases lt_or_ge 0 k with hk | hk
  · have hkd : k = 1 ∨ 2 * (d : ℤ) ≤ k * d := by
      rcases eq_or_lt_of_le (show 1 ≤ k from hk) with h | h
      · exact .inl h.symm
      · exact .inr (mul_le_mul_of_nonneg_right h hd.le)
    have hone : (d : ℤ) ≤ k * d := le_mul_of_one_le_left hd.le hk
    rw [abs_of_nonneg (show 0 ≤ k * (d : ℤ) - r by omega)]
    split
    · rw [hhigh, abs_of_nonneg (by omega)]
      exact ⟨by omega, fun _ _ => by omega⟩
    · rw [hlow, abs_neg, Nat.abs_cast]
      exact ⟨by omega, fun _ _ => by omega⟩
  · have hkd : k = 0 ∨ k * (d : ℤ) ≤ -d := by
      rcases eq_or_lt_of_le hk with h | h
      · exact .inl h
      · exact .inr (by nlinarith)
    have hnonpos : k * (d : ℤ) ≤ 0 := mul_nonpos_of_nonpos_of_nonneg hk hd.le
    rw [abs_of_nonpos (show k * (d : ℤ) - r ≤ 0 by omega)]
    split
    · rw [hhigh, abs_of_nonneg (by omega)]
      exact ⟨by omega, fun _ _ => by omega⟩
    · rw [hlow, abs_neg, Nat.abs_cast]
      exact ⟨by omega, fun _ _ => by omega⟩

/-! ### The rounded magnitude -/

/-- A magnitude of at least `2^(e + fracBits)` units is a whole number of `2^e` units. -/
theorem pow_dvd_unitsOf {p : Prec} {e m : Nat} (h : 2 ^ (e + fracBits p) ≤ unitsOf p m) :
    2 ^ e ∣ unitsOf p m := by
  have hmod := Nat.mod_lt m (Nat.two_pow_pos (fracBits p))
  unfold unitsOf at h ⊢
  dsimp only at h ⊢
  split at h
  · -- a subnormal lies below the hidden bit, so that `e` is 0
    have hle : 2 ^ fracBits p ≤ 2 ^ (e + fracBits p) := Nat.pow_le_pow_right two_pos (by omega)
    omega
  · rename_i hnormal
    rw [if_neg hnormal]
    have hlt : 2 ^ (e + fracBits p) < 2 ^ (fracBits p + 1 + (m / 2 ^ fracBits p - 1)) := by
      rw [pow_add 2 (fracBits p + 1), pow_succ]
      exact h.trans_lt (Nat.mul_lt_mul_of_pos_right (by omega) (Nat.two_pow_pos _))
    have hexp := (Nat.pow_lt_pow_iff_right one_lt_two).mp hlt
    exact (pow_dvd_pow 2 (by omega)).mul_left _

/-- The magnitude a number is rounded to has the nearest units of all the finite reals, whatever their
sign, and is the even one of two. -/
theorem roundMag_nearest {p : Prec} {num sh : Nat} (hfin : roundMag p num sh < infBits p) {t : ℤ}
    {m : Nat} (ht : t.natAbs = unitsOf p m) :
    |(unitsOf p (roundMag p num sh) : ℤ) * 2 ^ sh - num| ≤ |t * 2 ^ sh - num|
      ∧ (|(unitsOf p (roundMag p num sh) : ℤ) * 2 ^ sh - num| = |t * 2 ^ sh - num| →
        t ≠ unitsOf p (roundMag p num sh) → roundMag p num sh % 2 = 0) := by
  obtain ⟨hsig, hhidden, -, hbinade⟩ := roundMag_parts p num sh
  generalize he : Nat.log2 num - (sh + fracBits p) = e at hsig hhidden hbinade
  have hmag : roundMag p num sh = e * 2 ^ fracBits p + roundDiv num (sh + e) := by
    unfold roundMag at hfin ⊢
    dsimp only at hfin ⊢
    rw [he] at hfin ⊢
    omega
  have hparity : roundMag p num sh % 2 = roundDiv num (sh + e) % 2 := by
    have heven : 2 ^ fracBits p % 2 = 0 := by cases p <;> decide
    rw [hmag, Nat.add_mod, Nat.mul_mod, heven, mul_zero, Nat.zero_mod, zero_add, Nat.mod_mod]
  have hunits : (unitsOf p (roundMag p num sh) : ℤ) * 2 ^ sh
      = (roundDiv num (sh + e) : ℤ) * 2 ^ (sh + e) := by
    rw [hmag, unitsOf_compose p e _ hsig hhidden]
    push_cast
    ring
  rw [hunits, hparity]
  by_cases hdvd : (2 : ℤ) ^ e ∣ t
  · obtain ⟨k, rfl⟩ := hdvd
    have hk : 2 ^ e * k * 2 ^ sh = k * 2 ^ (sh + e) := by ring
    have hquot := roundDiv_nearest num (sh + e) k
    rw [hk]
    refine ⟨hquot.1, fun htie hne => hquot.2 htie fun h => hne ?_⟩
    rw [hmag, unitsOf_compose p e _ hsig hhidden, h]
    push_cast
    ring
  · -- such a real lies below the binade, farther off than the binade's least number
    have hbelow : t < 2 ^ (e + fracBits p) := by
      by_contra hge
      rw [not_lt] at hge
      have hnat : (t.natAbs : ℤ) = t := Int.natAbs_of_nonneg (le_trans (by positivity) hge)
      refine hdvd ?_
      rw [← hnat, ht] at hge ⊢
      exact_mod_cast pow_dvd_unitsOf (by exact_mod_cast hge)
    have hleast : ((2 ^ fracBits p : ℕ) : ℤ) * 2 ^ (sh + e) ≤ num := by
      rcases hbinade with h0 | h
      · rw [h0, pow_zero] at hdvd
        exact absurd (one_dvd t) hdvd
      · refine le_trans (le_of_eq ?_) (Nat.cast_le.mpr h)
        push_cast
        ring
    have hfarther : t * 2 ^ sh < ((2 ^ fracBits p : ℕ) : ℤ) * 2 ^ (sh + e) := by
      calc t * 2 ^ sh < 2 ^ (e + fracBits p) * 2 ^ sh := mul_lt_mul_of_pos_right hbelow (by positivity)
        _ = ((2 ^ fracBits p : ℕ) : ℤ) * 2 ^ (sh + e) := by push_cast; ring
    have hstrict : |(roundDiv num (sh + e) : ℤ) * 2 ^ (sh + e) - num| < |t * 2 ^ sh - num| := by
      refine (roundDiv_nearest num (sh + e) ((2 ^ fracBits p : ℕ) : ℤ)).1.trans_lt ?_
      rw [abs_of_nonpos (by linarith), abs_of_nonpos (by linarith)]
      linarith
    exact ⟨hstrict.le, fun htie => absurd htie hstrict.ne⟩

/-! ### The stored word (R104) -/

/-- The real a word stands for, as long as it is finite. -/
noncomputable def wordReal (p : Prec) (w : Word) : ℝ := signedUnits p w / 2 ^ unitBits p

theorem toRat_of_isFinite_eq {p : Prec} {w : Word} (h : isFinite p w = true) :
    ∃ q : ℚ, toRat p w = some q ∧ (q : ℝ) = wordReal p w :=
  ⟨_, toRat_eq_signedUnits h, by rw [wordReal]; push_cast; rfl⟩

theorem wordReal_of_toRat {p : Prec} {w : Word} {q : ℚ} (h : toRat p w = some q) :
    isFinite p w = true ∧ (q : ℝ) = wordReal p w := by
  have hfin := (isFinite_iff_toRat p w).mpr ⟨q, h⟩
  obtain ⟨q', hq', hreal⟩ := toRat_of_isFinite_eq hfin
  rw [h] at hq'
  exact ⟨hfin, Option.some.inj hq' ▸ hreal⟩

/-- A coefficient that is zero by construction is stored as the number 0. -/
theorem storeFx_zero_eq (p : Prec) : storeFx p .zero = storeFx p (.dyadic 0 0) := by
  simp [storeFx, roundUnits, pack]

theorem magBits_storeFx (p : Prec) (num : Int) (frac : Nat) :
    magBits p (storeFx p (.dyadic num frac)) = roundMag p (num.natAbs * 2 ^ unitBits p) frac :=
  magBits_pack p _ (roundMag_lt p _ _)

theorem signedUnits_storeFx (p : Prec) (num : Int) (frac : Nat) :
    signedUnits p (storeFx p (.dyadic num frac))
      = if num < 0 then -(unitsOf p (roundMag p (num.natAbs * 2 ^ unitBits p) frac) : ℤ)
        else unitsOf p (roundMag p (num.natAbs * 2 ^ unitBits p) frac) := by
  rw [signedUnits, magBits_storeFx, storeFx, roundUnits, isNeg_pack p _ (roundMag_lt p _ _)]
  simp only [decide_eq_true_eq]

/-- The stored word has the units nearest to the number, the even one of two, among all finite words. -/
theorem storeFx_nearest {p : Prec} {num : Int} {frac : Nat}
    (hfin : isFinite p (storeFx p (.dyadic num frac)) = true) (w' : Word) :
    |signedUnits p (storeFx p (.dyadic num frac)) * 2 ^ frac - num * 2 ^ unitBits p|
        ≤ |signedUnits p w' * 2 ^ frac - num * 2 ^ unitBits p|
      ∧ (|signedUnits p (storeFx p (.dyadic num frac)) * 2 ^ frac - num * 2 ^ unitBits p|
          = |signedUnits p w' * 2 ^ frac - num * 2 ^ unitBits p| →
        signedUnits p w' ≠ signedUnits p (storeFx p (.dyadic num frac)) →
          magBits p (storeFx p (.dyadic num frac)) % 2 = 0) := by
  rw [isFinite, decide_eq_true_eq, magBits_storeFx] at hfin
  have habs : (signedUnits p w').natAbs = unitsOf p (magBits p w') := by
    exact_mod_cast (Int.natCast_natAbs _).trans (abs_signedUnits p w')
  rw [magBits_storeFx, signedUnits_storeFx]
  by_cases hneg : num < 0
  · have hnearest := roundMag_nearest hfin (t := -signedUnits p w')
      (by rw [Int.natAbs_neg]; exact habs)
    have hnum : ((num.natAbs * 2 ^ unitBits p : ℕ) : ℤ) = -num * 2 ^ unitBits p := by
      push_cast
      rw [abs_of_neg hneg]
    have hflip : ∀ x : ℤ, |x * 2 ^ frac - num * 2 ^ unitBits p|
        = |-x * 2 ^ frac - -num * 2 ^ unitBits p| :=
      fun x => by rw [← abs_neg]; congr 1; ring
    rw [hnum] at hnearest
    rw [if_pos hneg, hflip, hflip, neg_neg]
    exact ⟨hnearest.1, fun htie hne => hnearest.2 htie fun h => hne (by rw [← h, neg_neg])⟩
  · have hnearest := roundMag_nearest hfin habs
    have hnum : ((num.natAbs * 2 ^ unitBits p : ℕ) : ℤ) = num * 2 ^ unitBits p := by
      push_cast
      rw [abs_of_nonneg (not_lt.mp hneg)]
    rw [hnum] at hnearest
    rw [if_neg hneg]
    exact hnearest

/-- A distance from a computed number, in whole numbers. -/
theorem abs_wordReal_sub (p : Prec) (w : Word) (num : Int) (frac : Nat) :
    |wordReal p w - ((fxValue (.dyadic num frac) : ℚ) : ℝ)|
      = ((|signedUnits p w * 2 ^ frac - num * 2 ^ unitBits p| : ℤ) : ℝ)
        / (2 ^ unitBits p * 2 ^ frac) := by
  have hu : (0 : ℝ) < 2 ^ unitBits p := by positivity
  have hf : (0 : ℝ) < 2 ^ frac := by positivity
  rw [wordReal, fxValue]
  push_cast
  rw [div_sub_div _ _ hu.ne' hf.ne', abs_div, abs_of_pos (mul_pos hu hf),
    mul_comm (2 ^ unitBits p) (num : ℝ)]

/-- A finite stored word is the nearest one to its number (R104). -/
theorem isNearest_storeFx {p : Prec} {x : Fx} (hfin : isFinite p (storeFx p x) = true) :
    IsNearest p (storeFx p x) ((fxValue x : ℚ) : ℝ) := by
  obtain ⟨num, frac, hstore, hvalue⟩ : ∃ num frac, storeFx p x = storeFx p (.dyadic num frac)
      ∧ fxValue x = fxValue (.dyadic num frac) := by
    cases x with
    | zero => exact ⟨0, 0, storeFx_zero_eq p, by simp [fxValue]⟩
    | dyadic num frac => exact ⟨num, frac, rfl, rfl⟩
  rw [hstore] at hfin ⊢
  rw [hvalue]
  obtain ⟨q, hq, hreal⟩ := toRat_of_isFinite_eq hfin
  refine ⟨q, hq, fun w' q' hq' => ?_⟩
  obtain ⟨-, hreal'⟩ := wordReal_of_toRat hq'
  obtain ⟨hle, htie⟩ := storeFx_nearest hfin w'
  have hscale : (0 : ℝ) < 2 ^ unitBits p * 2 ^ frac := by positivity
  rw [hreal, hreal', abs_wordReal_sub, abs_wordReal_sub]
  refine ⟨(div_le_div_iff_of_pos_right hscale).mpr (by exact_mod_cast hle), fun heq hne => ?_⟩
  refine htie (by exact_mod_cast (div_left_inj' hscale.ne').mp heq) fun hunits => hne ?_
  have : (q : ℝ) = q' := by rw [hreal, hreal', wordReal, wordReal, hunits]
  exact_mod_cast this

end Sys2Proof.Machine
end

section
/-! SUPPORT. The check of a notch's pole radius (spec 40_rom_design R109, R110; log entry 25): how far
the computed `pi` and the computed radius lie from the exact ones. -/

namespace Sys2Proof.Machine

/-! ### The computed `pi` -/

/-- A whole quotient is less than 1 off. -/
theorem abs_intDiv_sub_le (a : ℤ) {b : ℤ} (hb : 0 < b) : |((a / b : ℤ) : ℝ) - a / b| ≤ 1 := by
  have hb' : (0 : ℝ) < b := by exact_mod_cast hb
  have hlow : ((a / b : ℤ) : ℝ) * b ≤ a := by exact_mod_cast Int.ediv_mul_le a hb.ne'
  have hhigh : (a : ℝ) < ((a / b : ℤ) + 1) * b := by exact_mod_cast Int.lt_ediv_add_one_mul_self a hb
  rw [abs_le, neg_le_sub_iff_le_add, sub_le_iff_le_add, div_le_iff₀ hb']
  have := (le_div_iff₀ hb').mpr hlow
  exact ⟨hhigh.le, by linarith⟩

/-- A whole quotient of a number 2 off at most, by a divisor of at least 2. -/
theorem abs_intDiv_sub_le_two {a b : ℤ} {x : ℝ} (hb : 2 ≤ b) (h : |(a : ℝ) - x| ≤ 2) :
    |((a / b : ℤ) : ℝ) - x / b| ≤ 2 := by
  have hb' : (2 : ℝ) ≤ b := by exact_mod_cast hb
  calc |((a / b : ℤ) : ℝ) - x / b| ≤ |((a / b : ℤ) : ℝ) - a / b| + |a / b - x / b| := abs_sub_le ..
    _ ≤ 1 + 1 := by
      refine add_le_add (abs_intDiv_sub_le a (by omega)) ?_
      rw [← sub_div, abs_div, abs_of_pos (show (0 : ℝ) < b by linarith), div_le_one (by linarith)]
      linarith
    _ = 2 := by norm_num

/-- The terms of arctanTerms without its roundings: `p` is `1/n^(2k+1)`, scaled. -/
noncomputable def exactArctanTerms (n : ℝ) : Nat → ℝ → ℝ → ℝ
  | 0, _, _ => 0
  | fuel + 1, p, odd => p / odd - exactArctanTerms n fuel (p / (n * n)) (odd + 2)

/-- Each term costs 3 units of the last place at most. -/
theorem abs_arctanTerms_sub_le {n : ℤ} (hn : 2 ≤ n) (fuel : Nat) {pow odd : ℤ} {p : ℝ}
    (hodd : 1 ≤ odd) (h : |(pow : ℝ) - p| ≤ 2) :
    |(arctanTerms n fuel pow odd : ℝ) - exactArctanTerms n fuel p odd| ≤ 3 * fuel := by
  induction fuel generalizing pow odd p with
  | zero => simp [arctanTerms, exactArctanTerms]
  | succ fuel ih =>
    have hodd' : (1 : ℝ) ≤ odd := by exact_mod_cast hodd
    have hterm : |((pow / odd : ℤ) : ℝ) - p / odd| ≤ 3 := by
      calc |((pow / odd : ℤ) : ℝ) - p / odd|
          ≤ |((pow / odd : ℤ) : ℝ) - pow / odd| + |(pow : ℝ) / odd - p / odd| := abs_sub_le ..
        _ ≤ 1 + 2 := by
          refine add_le_add (abs_intDiv_sub_le pow (by omega)) ?_
          rw [← sub_div, abs_div, abs_of_pos (show (0 : ℝ) < odd by linarith),
            div_le_iff₀ (by linarith)]
          linarith
        _ = 3 := by norm_num
    have hrest := ih (pow := pow / (n * n)) (odd := odd + 2) (p := p / ((n : ℝ) * n)) (by omega)
      (by exact_mod_cast abs_intDiv_sub_le_two (b := n * n) (by nlinarith) h)
    rw [arctanTerms, exactArctanTerms]
    push_cast at hrest ⊢
    rw [sub_sub_sub_comm]
    linarith [abs_sub (((pow / odd : ℤ) : ℝ) - p / odd)
      ((arctanTerms n fuel (pow / (n * n)) (odd + 2) : ℝ)
        - exactArctanTerms n fuel (p / ((n : ℝ) * n)) ((odd : ℝ) + 2))]

/-- A partial sum of the power series of the arctangent. -/
noncomputable def arctanSum (x : ℝ) (m : Nat) : ℝ :=
  ∑ j ∈ Finset.range m, (-1) ^ j * x ^ (2 * j + 1) / ((2 * j + 1 : ℕ) : ℝ)

/-- The terms from the `k`-th on are what the longer partial sum adds to the shorter one. -/
theorem exactArctanTerms_eq (n c : ℝ) (fuel : Nat) (k : Nat) :
    (-1) ^ k * exactArctanTerms n fuel (c * n⁻¹ ^ (2 * k + 1)) ((2 * k + 1 : ℕ) : ℝ)
      = c * (arctanSum n⁻¹ (k + fuel) - arctanSum n⁻¹ k) := by
  induction fuel generalizing k with
  | zero => simp [exactArctanTerms]
  | succ fuel ih =>
    have hpow : c * n⁻¹ ^ (2 * k + 1) / (n * n) = c * n⁻¹ ^ (2 * (k + 1) + 1) := by
      rw [div_eq_mul_inv, mul_inv]; ring
    have hodd : ((2 * k + 1 : ℕ) : ℝ) + 2 = ((2 * (k + 1) + 1 : ℕ) : ℝ) := by push_cast; ring
    have hsum : arctanSum n⁻¹ (k + 1)
        = arctanSum n⁻¹ k + (-1) ^ k * n⁻¹ ^ (2 * k + 1) / ((2 * k + 1 : ℕ) : ℝ) :=
      Finset.sum_range_succ ..
    have hrest := ih (k + 1)
    rw [pow_succ, Nat.succ_add_eq_add_succ] at hrest
    rw [exactArctanTerms, hpow, hodd]
    linear_combination hrest - c * hsum

/-- The partial sums converge by a factor of 25 a term. -/
theorem abs_arctanSum_sub_le {x : ℝ} (h0 : 0 < x) (h1 : x ≤ 1 / 5) (m : Nat) :
    |arctanSum x m - Real.arctan x| ≤ (1 / 25) ^ m := by
  have hconv : Filter.Tendsto (arctanSum x) Filter.atTop (nhds (Real.arctan x)) :=
    (Real.hasSum_arctan (by rw [Real.norm_eq_abs, abs_of_pos h0]; linarith)).tendsto_sum_nat
  have hstep : ∀ j, dist (arctanSum x j) (arctanSum x (j + 1)) ≤ 1 / 5 * (1 / 25) ^ j := by
    intro j
    have hdiv : x ^ (2 * j + 1) / ((2 * j + 1 : ℕ) : ℝ) ≤ x ^ (2 * j + 1) :=
      div_le_self (by positivity) (by exact_mod_cast Nat.le_add_left 1 (2 * j))
    have hpow : x ^ (2 * j + 1) ≤ (1 / 5) ^ (2 * j + 1) := pow_le_pow_left₀ h0.le h1 _
    have hterm : dist (arctanSum x j) (arctanSum x (j + 1))
        = x ^ (2 * j + 1) / ((2 * j + 1 : ℕ) : ℝ) := by
      rw [dist_comm, Real.dist_eq, arctanSum, Finset.sum_range_succ, arctanSum, add_sub_cancel_left,
        mul_div_assoc, abs_mul, abs_neg_one_pow, one_mul, abs_of_nonneg (by positivity)]
    calc dist (arctanSum x j) (arctanSum x (j + 1)) ≤ (1 / 5) ^ (2 * j + 1) := hterm ▸ hdiv.trans hpow
      _ = 1 / 5 * (1 / 25) ^ j := by rw [pow_succ, pow_mul]; norm_num [mul_comm]
  have hdist := dist_le_of_le_geometric_of_tendsto (1 / 25) (1 / 5) (by norm_num) hstep hconv m
  rw [Real.dist_eq] at hdist
  refine hdist.trans ?_
  rw [div_le_iff₀ (by norm_num)]
  linarith [show (0 : ℝ) < (1 / 25) ^ m by positivity]

/-- One arctangent of `fxPi`, with `m` terms that reach the last place. -/
theorem abs_arctanTerms_arctan_le {n : ℤ} (hn : 5 ≤ n) {F m : Nat} (hm : F ≤ 4 * m) :
    |(arctanTerms n m (2 ^ F / n) 1 : ℝ) - 2 ^ F * Real.arctan (n : ℝ)⁻¹| ≤ 3 * m + 1 := by
  have hn' : (5 : ℝ) ≤ n := by exact_mod_cast hn
  have hterms := abs_arctanTerms_sub_le (n := n) (by omega) m (pow := 2 ^ F / n) (odd := 1)
    (p := 2 ^ F * (n : ℝ)⁻¹) le_rfl
    (by
      have h := abs_intDiv_sub_le (2 ^ F) (b := n) (by omega)
      rw [← div_eq_mul_inv]
      push_cast at h ⊢
      linarith)
  have hsum : exactArctanTerms n m (2 ^ F * (n : ℝ)⁻¹) 1 = 2 ^ F * arctanSum (n : ℝ)⁻¹ m := by
    have h := exactArctanTerms_eq n (2 ^ F) m 0
    simpa [arctanSum] using h
  have hsmall : (2 : ℝ) ^ F * (1 / 25) ^ m ≤ 1 := by
    have h16 : (2 : ℝ) ^ F ≤ 25 ^ m := by
      calc (2 : ℝ) ^ F ≤ 2 ^ (4 * m) := pow_le_pow_right₀ one_le_two hm
        _ = 16 ^ m := by rw [pow_mul]; norm_num
        _ ≤ 25 ^ m := pow_le_pow_left₀ (by norm_num) (by norm_num) m
    rw [one_div, inv_pow, ← div_eq_mul_inv, div_le_one (by positivity)]
    exact h16
  have htail : |2 ^ F * arctanSum (n : ℝ)⁻¹ m - 2 ^ F * Real.arctan (n : ℝ)⁻¹| ≤ 1 := by
    rw [← mul_sub, abs_mul, abs_of_pos (by positivity)]
    refine (mul_le_mul_of_nonneg_left (abs_arctanSum_sub_le (by positivity) ?_ m) (by positivity)).trans
      hsmall
    rw [one_div]
    exact inv_anti₀ (by norm_num) hn'
  push_cast at hterms
  rw [hsum] at hterms
  linarith [abs_sub_le (arctanTerms n m (2 ^ F / n) 1 : ℝ) (2 ^ F * arctanSum (n : ℝ)⁻¹ m)
    (2 ^ F * Real.arctan (n : ℝ)⁻¹)]

/-- `fxPi` is `pi` to within a few units of the last place for each fraction bit, by Machin's formula. -/
theorem abs_fxPi_sub_le (F : Nat) : |(fxPi F : ℝ) - 2 ^ F * Real.pi| ≤ 15 * F + 500 := by
  have hm : F ≤ 4 * (F / 4 + 8) := by omega
  have h5 := abs_le.mp (abs_arctanTerms_arctan_le (n := 5) (by norm_num) hm)
  have h239 := abs_le.mp (abs_arctanTerms_arctan_le (n := 239) (by norm_num) hm)
  have hmachin := Real.four_mul_arctan_inv_5_sub_arctan_inv_239
  have hquarter : ((F / 4 + 8 : ℕ) : ℝ) ≤ F / 4 + 8 := by
    push_cast
    linarith [Nat.cast_div_le (α := ℝ) (m := F) (n := 4)]
  have hpi : (2 : ℝ) ^ F * Real.pi
      = 16 * (2 ^ F * Real.arctan 5⁻¹) - 4 * (2 ^ F * Real.arctan 239⁻¹) := by
    linear_combination (-4 * 2 ^ F : ℝ) * hmachin
  rw [fxPi, hpi, abs_le]
  push_cast at h5 h239 hquarter ⊢
  constructor <;> linarith

/-! ### The computed radius -/

/-- The margin around a radius of zero in which its sign is not decided (log entry 25). -/
noncomputable def radiusMargin : ℝ := 1 / 2 ^ 2500

theorem radiusMargin_pos : 0 < radiusMargin := by unfold radiusMargin; positivity

theorem radiusMargin_lt_one : radiusMargin < 1 := by
  rw [radiusMargin, div_lt_one (by positivity)]
  exact one_lt_pow₀ one_lt_two (by omega)

/-- With the fraction bits of a notch the error of `fxPi` is far below the margin. -/
theorem abs_fxPi_div_sub_le {F : Nat} (hF : 2576 ≤ F) :
    |(fxPi F : ℝ) / 2 ^ F - Real.pi| ≤ radiusMargin := by
  obtain ⟨k, rfl⟩ := Nat.exists_eq_add_of_le hF
  have hpow : (0 : ℝ) < 2 ^ (2576 + k) := by positivity
  have hk : ((k : ℕ) : ℝ) ≤ 2 ^ k := by exact_mod_cast Nat.lt_two_pow_self.le
  have hone : (1 : ℝ) ≤ 2 ^ k := one_le_pow₀ one_le_two
  have hsplit : (2 : ℝ) ^ (2576 + k) * radiusMargin = 2 ^ 76 * 2 ^ k := by
    rw [radiusMargin, show 2576 + k = 2500 + (76 + k) by omega, pow_add, pow_add, mul_one_div,
      mul_div_cancel_left₀ _ (by positivity)]
  have herr := abs_fxPi_sub_le (2576 + k)
  rw [← mul_le_mul_iff_right₀ hpow, hsplit, ← abs_of_pos hpow, ← abs_mul, abs_of_pos hpow, mul_sub,
    mul_div_cancel₀ _ hpow.ne']
  push_cast at herr
  linarith

/-- A notch is computed with enough fraction bits for the margin. -/
theorem le_notchBits (f0 fs : Word) : 2576 ≤ notchBits f0 fs := by
  unfold notchBits workBits bitsBelow
  omega

theorem dUnits_pos {w : Word} (h : positive w = true) : 0 < dUnits w := by
  obtain ⟨x, hx, hpos⟩ := (positive_iff w).mp h
  rw [toRat_of_positive h] at hx
  rw [← Option.some.inj hx, div_pos_iff_of_pos_right unitScale_pos] at hpos
  exact_mod_cast hpos

theorem wordReal_of_positive {w : Word} (h : positive w = true) :
    wordReal .double w = dUnits w / 2 ^ unitBits .double := by
  have hreal := (wordReal_of_toRat (toRat_of_positive h)).2
  rw [← hreal, unitScale]
  push_cast
  rfl

theorem wordReal_pos {w : Word} (h : positive w = true) : 0 < wordReal .double w := by
  rw [wordReal_of_positive h]
  exact div_pos (by exact_mod_cast dUnits_pos h) (by positivity)

/-- The computed radius is positive unless the computed `pi` times `(f0/Q)/Fs` reaches 1: the quotient is
cut to a whole number below, but 1 is one. -/
theorem notchRadius_nonpos_iff (F : Nat) {f0 q fs : Word} (hf : positive f0 = true)
    (hq : positive q = true) (hfs : positive fs = true) :
    notchRadius F f0 q fs ≤ 0
      ↔ 1 ≤ (fxPi F : ℝ) / 2 ^ F
        * (wordReal .double f0 / wordReal .double q / wordReal .double fs) := by
  have hq' : (0 : ℝ) < dUnits q := by exact_mod_cast dUnits_pos hq
  have hfs' : (0 : ℝ) < dUnits fs := by exact_mod_cast dUnits_pos hfs
  have hden : (0 : ℤ) < (dUnits q : ℤ) * (dUnits fs : ℤ) := by
    exact_mod_cast Nat.mul_pos (dUnits_pos hq) (dUnits_pos hfs)
  have hratio :
      (fxPi F : ℝ) / 2 ^ F * (wordReal .double f0 / wordReal .double q / wordReal .double fs)
      = fxPi F * (dUnits f0 * 2 ^ unitBits .double) / (2 ^ F * (dUnits q * dUnits fs)) := by
    have hu : (0 : ℝ) < 2 ^ unitBits .double := by positivity
    rw [wordReal_of_positive hf, wordReal_of_positive hq, wordReal_of_positive hfs]
    generalize (2 : ℝ) ^ unitBits .double = u at hu ⊢
    field_simp
  rw [notchRadius, sub_nonpos, Int.le_ediv_iff_mul_le hden, hratio, le_div_iff₀ (by positivity), one_mul]
  exact_mod_cast Iff.rfl

/-- The exact pole radius of a notch (R109). -/
noncomputable def exactRadius (f0 q fs : Word) : ℝ :=
  1 - Real.pi * (wordReal .double f0 / wordReal .double q) / wordReal .double fs

/-- Of the computed radius only its sign matters, and outside the margin it is that of the exact one. -/
theorem notchRadius_sign {f0 q fs : Word} (hf : positive f0 = true) (hq : positive q = true)
    (hfs : positive fs = true) :
    (radiusMargin < exactRadius f0 q fs →
        ¬ notchRadius (notchBits f0 fs) f0 q fs ≤ 0)
      ∧ (exactRadius f0 q fs < -radiusMargin →
        notchRadius (notchBits f0 fs) f0 q fs ≤ 0) := by
  have hx : 0 < wordReal .double f0 / wordReal .double q / wordReal .double fs :=
    div_pos (div_pos (wordReal_pos hf) (wordReal_pos hq)) (wordReal_pos hfs)
  obtain ⟨hlow, hhigh⟩ := abs_le.mp (abs_fxPi_div_sub_le (le_notchBits f0 fs))
  have hm := radiusMargin_pos
  have hpi := Real.pi_gt_three
  rw [notchRadius_nonpos_iff _ hf hq hfs, exactRadius, mul_div_assoc, not_le]
  generalize wordReal .double f0 / wordReal .double q / wordReal .double fs = x at *
  generalize (fxPi (notchBits f0 fs) : ℝ) / 2 ^ notchBits f0 fs = P at *
  constructor
  · intro hr
    have hx1 : x < 1 := by nlinarith
    nlinarith [mul_le_mul_of_nonneg_right hhigh hx.le]
  · intro hr
    rcases le_total x 1 with hx1 | hx1
    · nlinarith [mul_le_mul_of_nonneg_right hlow hx.le]
    · nlinarith [radiusMargin_lt_one]

/-- A binary64 number has fewer than `2^2500` units. -/
theorem dUnits_lt {w : Word} (h : positive w = true) : dUnits w < 2 ^ 2500 := by
  simp only [positive, isFinite, Bool.and_eq_true, decide_eq_true_eq] at h
  have hexp : magBits .double w / 2 ^ fracBits .double < 2 ^ expBits .double - 1 :=
    Nat.div_lt_of_lt_mul (by rw [mul_comm]; exact h.1.1)
  have hfrac : magBits .double w % 2 ^ fracBits .double < 2 ^ fracBits .double :=
    Nat.mod_lt _ (Nat.two_pow_pos _)
  have hfield : unitsOf .double (magBits .double w) ≤ 2 ^ (fracBits .double + 1)
      * 2 ^ (magBits .double w / 2 ^ fracBits .double - 1) := by
    unfold unitsOf
    dsimp only
    rw [pow_succ]
    split
    · exact hfrac.le.trans (by rw [mul_assoc]; exact Nat.le_mul_of_pos_right _ (by positivity))
    · exact Nat.mul_le_mul_right _ (by omega)
  have hbits : fracBits .double + 1 + (magBits .double w / 2 ^ fracBits .double - 1) < 2500 := by
    simp only [fracBits, expBits] at hexp ⊢
    omega
  rw [← pow_add] at hfield
  exact hfield.trans_lt (pow_lt_pow_right₀ one_lt_two hbits)

/-- With `Q >= pi/2` the exact radius is positive, by at least a unit over the units of `Fs`. -/
theorem radiusMargin_lt_of_le {f0 q fs : Word} (hf : positive f0 = true)
    (hnyquist : belowNyquist f0 fs = true) (hq : positive q = true) (hfs : positive fs = true)
    (h : Real.pi / 2 ≤ wordReal .double q) :
    radiusMargin < exactRadius f0 q fs := by
  have hpi := Real.pi_pos
  have hq' := wordReal_pos hq
  have hfs' : (0 : ℝ) < dUnits fs := by exact_mod_cast dUnits_pos hfs
  have hunit : 2 * (dUnits f0 : ℝ) + 1 ≤ dUnits fs := by
    rw [belowNyquist, decide_eq_true_eq] at hnyquist
    exact_mod_cast hnyquist
  have hloss : Real.pi * (wordReal .double f0 / wordReal .double q) / wordReal .double fs
      ≤ 2 * dUnits f0 / dUnits fs := by
    have hfraction :
        2 * (dUnits f0 : ℝ) / dUnits fs = 2 * wordReal .double f0 / wordReal .double fs := by
      rw [wordReal_of_positive hf, wordReal_of_positive hfs, ← mul_div_assoc,
        div_div_div_cancel_right₀ (by positivity)]
    have hpos := wordReal_pos hf
    rw [hfraction, div_le_div_iff_of_pos_right (wordReal_pos hfs), ← mul_div_assoc, div_le_iff₀ hq']
    nlinarith
  have hmargin : radiusMargin < 1 / dUnits fs :=
    one_div_lt_one_div_of_lt hfs' (by exact_mod_cast dUnits_lt hfs)
  calc radiusMargin < 1 / dUnits fs := hmargin
    _ ≤ 1 - 2 * dUnits f0 / dUnits fs := by
      rw [le_sub_iff_add_le, ← add_div, div_le_one hfs']
      linarith
    _ ≤ exactRadius f0 q fs := sub_le_sub_left hloss 1

/-! ### The checks of a notch (R110) -/

theorem checkNotch_eq_some {f0 q fs : Word} {e : Status} (h : checkNotch f0 q fs = some e) :
    e = .invalidParameter := by
  unfold checkNotch at h
  split_ifs at h <;> exact (Option.some.inj h).symm

theorem checkNotch_bad {f0 q fs : Word} (h : ¬ goodFrequency f0 fs ∨ ¬ positive q = true) :
    checkNotch f0 q fs = some .invalidParameter := by
  rw [goodFrequency_iff, not_and_or, Bool.not_eq_true, Bool.not_eq_true, Bool.not_eq_true] at h
  unfold checkNotch
  rcases h with (h | h) | h
  · exact if_pos h
  · rw [if_pos h, ite_self]
  · rw [if_pos h, ite_self, ite_self]

theorem checkNotch_good {f0 q fs : Word} (hf : goodFrequency f0 fs) (hq : positive q = true) :
    checkNotch f0 q fs
      = if notchRadius (notchBits f0 fs) f0 q fs ≤ 0 then some .invalidParameter else none := by
  obtain ⟨hs, hf0⟩ := (goodFrequency_iff f0 fs).mp hf
  simp only [checkNotch, hs, hf0, hq, Bool.true_eq_false, if_false]

/-- Settles O54, from the sign of the computed radius. -/
theorem notchDesignRejectsBadParameters : Obligations.NotchDesignRejectsBadParameters := by
  intro par f0 q fs
  refine ⟨fun e h => checkNotch_eq_some (of_design_eq_error h), fun h => design_of_error ?_, ?_⟩
  · rw [← positive_iff] at h
    exact checkNotch_bad h
  · intro f d g hgood hf hd hg hdpos r
    obtain ⟨hs, hf0⟩ := (goodFrequency_iff f0 fs).mp hgood
    obtain ⟨hp, hn⟩ := Bool.and_eq_true_iff.mp hf0
    have hq := (positive_iff q).mpr ⟨d, hd, hdpos⟩
    have hr : r = exactRadius f0 q fs := by
      rw [exactRadius, ← (wordReal_of_toRat hf).2, ← (wordReal_of_toRat hd).2,
        ← (wordReal_of_toRat hg).2]
    obtain ⟨hposi, hneg⟩ := notchRadius_sign hp hq hs
    rw [← hr] at hposi hneg
    have hdesign : radiusMargin < r → ∃ img, design par (.notch f0 q fs) = .ok img := fun h =>
      exists_design_of_none ((checkNotch_good hgood hq).trans (if_neg (hposi h)))
    refine ⟨fun h => hdesign ?_, hdesign, fun h => design_of_error ?_⟩
    · rw [hr]
      exact radiusMargin_lt_of_le hp hn hq hs (by rwa [← (wordReal_of_toRat hd).2])
    · exact (checkNotch_good hgood hq).trans (if_pos (hneg h))

end Sys2Proof.Machine
end

section
/-! SUPPORT. The section stored where the rounding to nearest is not stable (spec 40_rom_design R104, R105,
R113 (a); log entry 26): in `SINGLE` a rounding tried within the tolerance, in `DOUBLE` a move of a few
units in the last place. -/

namespace Sys2Proof.Machine

/-! ### The edges of the tolerance -/

/-- A truncated part in `10^9` is one at most. -/
theorem abs_tdiv_le (a : ℤ) : ((|a.tdiv (10 ^ 9)| : ℤ) : ℝ) ≤ 1e-9 * |(a : ℝ)| := by
  have hnat : |a.tdiv (10 ^ 9)| * 10 ^ 9 ≤ |a| := by
    rw [← Int.natCast_natAbs, ← Int.natCast_natAbs, Int.natAbs_tdiv]
    exact_mod_cast Nat.div_mul_le_self a.natAbs (10 ^ 9)
  rw [show (1e-9 : ℝ) = 1 / 10 ^ 9 by norm_num, one_div_mul_eq_div, le_div_iff₀ (by positivity)]
  exact_mod_cast hnat

/-- A number moved by a part in `10^9` of it, with more fraction bits, is within the tolerance. -/
theorem withinTolerance_of_move {num move : ℤ} (frac : Nat)
    (h : ((|move| : ℤ) : ℝ) ≤ 1e-9 * |((fxFine num : ℤ) : ℝ)|) :
    WithinTolerance ((fxValue (.dyadic (fxFine num + move) (frac + 180)) : ℚ) : ℝ)
      ((fxValue (.dyadic num frac) : ℚ) : ℝ) := by
  have hfine : ((fxValue (.dyadic num frac) : ℚ) : ℝ) = (fxFine num : ℝ) / 2 ^ (frac + 180) := by
    rw [fxValue, fxFine, pow_add, Int.cast_mul, Int.cast_pow, Int.cast_ofNat,
      mul_div_mul_right _ _ (by positivity), Rat.cast_div, Rat.cast_intCast, Rat.cast_pow,
      Rat.cast_ofNat]
  have hscale : (0 : ℝ) < 2 ^ (frac + 180) := by positivity
  left
  rw [hfine, fxValue]
  push_cast at h ⊢
  rw [add_div, add_sub_cancel_left, abs_div, abs_div, abs_of_pos hscale, ← mul_div_assoc]
  exact (div_le_div_iff_of_pos_right hscale).mpr h

theorem withinTolerance_refl (x : ℝ) : WithinTolerance x x :=
  .inl (by rw [sub_self, abs_zero]; positivity)

/-- What `SINGLE` tries for a coefficient is within the tolerance of it (R105). -/
theorem withinTolerance_of_tried {x y : Fx} (h : Tried .single x y) :
    WithinTolerance ((fxValue y : ℚ) : ℝ) ((fxValue x : ℚ) : ℝ) := by
  rcases h with rfl | rfl | rfl
  · exact withinTolerance_refl _
  · cases x with
    | zero => exact withinTolerance_refl _
    | dyadic num frac =>
      have hmove := withinTolerance_of_move (num := num) (move := -(fxFine num).tdiv (10 ^ 9)) frac
        (by rw [abs_neg]; exact abs_tdiv_le _)
      rwa [← sub_eq_add_neg] at hmove
  · cases x with
    | zero => exact withinTolerance_refl _
    | dyadic num frac =>
      by_cases hzero : num = 0
      · -- an `a2` that cancels: the smallest positive real is within `10^-9`
        rw [show fxGrow .single (.dyadic num frac) = .dyadic 1 (unitBits .single) from if_pos hzero,
          hzero]
        right
        simp only [fxValue, unitBits]
        norm_num
      · rw [show fxGrow .single (.dyadic num frac)
          = .dyadic (fxFine num + (fxFine num).tdiv (10 ^ 9)) (frac + 180) from if_neg hzero]
        exact withinTolerance_of_move frac (abs_tdiv_le _)

/-! ### `SINGLE` -/

theorem coefficientConforms_single {x y : Fx} (h : Tried .single x y)
    (hok : coefficientOk .single (storeFx .single y) = true) :
    CoefficientConforms .single (storeFx .single y) ((fxValue x : ℚ) : ℝ) := by
  rw [coefficientOk, Bool.and_eq_true] at hok
  exact ⟨_, withinTolerance_of_tried h, isNearest_storeFx hok.1⟩

/-- The computed numbers of a section. -/
noncomputable def valueOf (c : Coeffs Fx) : Coeffs ℝ :=
  { b0 := (fxValue c.b0 : ℚ), b1 := (fxValue c.b1 : ℚ), b2 := (fxValue c.b2 : ℚ),
    a1 := (fxValue c.a1 : ℚ), a2 := (fxValue c.a2 : ℚ) }

/-- A stable rounding that was tried meets the computed numbers. -/
theorem sectionConforms_of_rounding {c : Coeffs Fx} {w : Coeffs Word} (hw : w ∈ roundings .single c)
    (hok : sectionOk .single w = true) : SectionConforms .single w (valueOf c) := by
  obtain ⟨c', rfl, h0, h1, h2, ha1, ha2⟩ := roundings_cases hw
  simp only [sectionOk, nearestSection, Bool.and_eq_true] at hok
  obtain ⟨⟨⟨⟨⟨ok0, ok1⟩, ok2⟩, okA1⟩, okA2⟩, -⟩ := hok
  exact ⟨coefficientConforms_single (.inl h0) ok0, coefficientConforms_single (.inl h1) ok1,
    coefficientConforms_single (.inl h2) ok2, coefficientConforms_single ha1 okA1,
    coefficientConforms_single ha2 okA2⟩

theorem storeSection_conforms_single {c : Coeffs Fx}
    (h : ∃ w ∈ roundings .single c, sectionOk .single w = true) :
    SectionConforms .single (storeSection .single c) (valueOf c) := by
  rcases storeSection_cases .single c with ⟨hmem, hok⟩ | ⟨hnone, -⟩
  · exact sectionConforms_of_rounding hmem hok
  · obtain ⟨w, hw, hok⟩ := h
    rw [hnone w hw] at hok
    cases hok

/-! ### `DOUBLE`: a word moved below a bound -/

/-- The last place of a `DOUBLE` between 1 and 2. -/
noncomputable def ulp : ℝ := 1 / 2 ^ 52

theorem abs_wordReal (p : Prec) (w : Word) :
    |wordReal p w| = (unitsOf p (magBits p w) : ℝ) / 2 ^ unitBits p := by
  rw [wordReal, abs_div, abs_of_pos (show (0 : ℝ) < 2 ^ unitBits p by positivity), ← Int.cast_abs,
    abs_signedUnits, Int.cast_natCast]

/-- A word's sign. -/
theorem wordReal_eq (p : Prec) (w : Word) :
    wordReal p w = if isNeg p w then -|wordReal p w| else |wordReal p w| := by
  rw [abs_wordReal, wordReal, signedUnits]
  split
  · push_cast; rw [neg_div]
  · push_cast; rfl

/-- Everything `below` can do, over the reals: nothing to a word below the bound, else the word of the same
sign that is one last place under the bound or nearer. -/
theorem below_real {w : Word} (hok : coefficientOk .double w = true) {n : Nat} (h0 : 0 < n)
    (hn : n ≤ 2 ^ (unitBits .double + 1)) {B : ℝ} (hB : B = n / 2 ^ unitBits .double) :
    coefficientOk .double (below .double n w) = true
      ∧ |wordReal .double (below .double n w)| < B
      ∧ isNeg .double (below .double n w) = isNeg .double w
      ∧ (below .double n w = w
        ∨ B ≤ |wordReal .double w| ∧ B - ulp ≤ |wordReal .double (below .double n w)|
          ∧ |wordReal .double (below .double n w) - wordReal .double w|
            = |wordReal .double w| - |wordReal .double (below .double n w)|) := by
  have hscale : (0 : ℝ) < 2 ^ unitBits .double := by positivity
  obtain ⟨hok', hlt, hsign, hcases⟩ := below_cases .double hok h0 hn
  have hlt' : |wordReal .double (below .double n w)| < B := by
    rw [abs_wordReal, hB, div_lt_div_iff_of_pos_right hscale]
    exact_mod_cast hlt
  refine ⟨hok', hlt', hsign, ?_⟩
  rcases hcases with ⟨-, h⟩ | ⟨hge, hplace⟩
  · exact .inl h
  right
  have hge' : B ≤ |wordReal .double w| := by
    rw [abs_wordReal, hB, div_le_div_iff_of_pos_right hscale]
    exact_mod_cast hge
  refine ⟨hge', ?_, ?_⟩
  · -- the last place of a number below 2
    have hlog : Nat.log2 (n - 1) - fracBits .double ≤ 1022 := by
      by_cases hzero : n - 1 = 0
      · rw [hzero]; simp
      · have hlog2 : Nat.log2 (n - 1) < unitBits .double + 1 := (Nat.log2_lt hzero).mpr (by omega)
        simp only [unitBits, fracBits] at hlog2 ⊢
        omega
    have hpow : (2 : ℝ) ^ (Nat.log2 (n - 1) - fracBits .double) ≤ 2 ^ 1022 :=
      pow_le_pow_right₀ one_le_two hlog
    have hplace' : (n : ℝ) ≤ unitsOf .double (magBits .double (below .double n w))
        + 2 ^ (Nat.log2 (n - 1) - fracBits .double) := by exact_mod_cast hplace
    have hulp : ulp = 2 ^ 1022 / 2 ^ unitBits .double := by
      rw [ulp, unitBits, show 1074 = 52 + 1022 by rfl, pow_add, div_mul_cancel_right₀ (by positivity),
        one_div]
    rw [abs_wordReal, hB, hulp, sub_le_iff_le_add, ← add_div, div_le_div_iff_of_pos_right hscale]
    exact hplace'.trans (add_le_add_right hpow _)
  · have hle := hlt'.le.trans hge'
    rw [wordReal_eq .double (below .double n w), wordReal_eq .double w, hsign]
    split
    · rw [neg_sub_neg, abs_neg, abs_neg, abs_abs, abs_abs, abs_of_nonneg (sub_nonneg.mpr hle)]
    · rw [abs_abs, abs_abs, abs_sub_comm, abs_of_nonneg (sub_nonneg.mpr hle)]

theorem a2Room_le_two (p : Prec) (a1 a2 : Word) : a2Room p a1 a2 ≤ 2 ^ (unitBits p + 1) :=
  (a2Room_le p a1 a2).trans (Nat.pow_le_pow_right two_pos (Nat.le_succ _))

/-- The bound `below` is given for `a2`: `1 - |a1|` for a negative `a2` beside a small `a1`, else 1. -/
theorem a2Room_real (a1 a2 : Word) :
    (isNeg .double a2 = true ∧ |wordReal .double a1| < 1 / 2
        ∧ (a2Room .double a1 a2 : ℝ) / 2 ^ unitBits .double = 1 - |wordReal .double a1|)
      ∨ ((isNeg .double a2 = false ∨ 1 / 2 ≤ |wordReal .double a1|)
        ∧ (a2Room .double a1 a2 : ℝ) / 2 ^ unitBits .double = 1) := by
  have hscale : (0 : ℝ) < 2 ^ unitBits .double := by positivity
  have hhalf : |wordReal .double a1| < 1 / 2
      ↔ 2 * unitsOf .double (magBits .double a1) < 2 ^ unitBits .double := by
    rw [abs_wordReal, div_lt_iff₀ hscale, one_div_mul_eq_div, lt_div_iff₀ two_pos, mul_comm]
    exact_mod_cast Iff.rfl
  unfold a2Room
  dsimp only
  split
  · rename_i h
    rw [Bool.and_eq_true, decide_eq_true_eq] at h
    refine .inl ⟨h.1, hhalf.mpr h.2, ?_⟩
    rw [Nat.cast_sub (by omega), sub_div, abs_wordReal, Nat.cast_pow, Nat.cast_ofNat, div_self hscale.ne']
  · rename_i h
    rw [Bool.and_eq_true, decide_eq_true_eq, ← hhalf, not_and_or, Bool.not_eq_true, not_lt] at h
    exact .inr ⟨h, by rw [Nat.cast_pow, Nat.cast_ofNat, div_self hscale.ne']⟩

/-! ### A move is within the tolerance -/

/-- A word `x` at or above the bound, which lies near the exact number `e`, and the word `x'` just under the
bound: if `e` is hardly beyond the bound, `x'` lies near it. -/
theorem abs_moved_sub_le {x x' e B γ : ℝ} (hx' : B - ulp ≤ |x'|) (hmove : |x' - x| = |x| - |x'|)
    (hxe : |x - e| ≤ 2 * ulp) (he : |e| ≤ B + γ) : |x' - e| ≤ γ + 5 * ulp := by
  have h1 := abs_sub_le x' x e
  have h2 := abs_sub_abs_le_abs_sub x e
  linarith

/-- A few units in the last place are a small part of a number of about 1/2 or more. -/
theorem withinTolerance_of_ulps {x x' e : ℝ} (hx : 1 / 2 ≤ |x|) (hxe : |x - e| ≤ 2 * ulp)
    (h : |x' - e| ≤ 12 * ulp) : WithinTolerance x' e := by
  have habs := abs_sub_abs_le_abs_sub x e
  have hulp : ulp = 1 / 2 ^ 52 := rfl
  left
  norm_num at hulp ⊢
  linarith

/-- A rounding half a unit in the last place off lies within the last place of a bound on the exact
number's magnitude. -/
theorem abs_sub_le_of_rounds {x e b : ℝ} (hb : |e| ≤ b) (h1 : 1 ≤ b)
    (h : |x - e| ≤ max (|e| / 2 ^ 52) (1 / 2 ^ 1074)) : |x - e| ≤ b * ulp := by
  refine h.trans (max_le ?_ ?_)
  · rw [ulp, mul_one_div]
    gcongr
  · rw [ulp, mul_one_div]
    gcongr
    · norm_num
    · omega

theorem ulp_pos : 0 < ulp := by unfold ulp; positivity

section
variable {a1 a2 : Word} {e1 e2 : ℝ}

/-- A word that reaches the bound of `a2Room` has a magnitude of at least 1/2, and the exact `a2` is hardly
beyond the bound: inside the triangle it is below 1, and where it is negative below `1 - |a1|`. -/
theorem abs_le_a2Room (h2 : |e2| < 1) (h1 : |e1| < 1 + e2) (hr1 : |wordReal .double a1 - e1| ≤ 2 * ulp)
    (hr2 : |wordReal .double a2 - e2| ≤ 2 * ulp)
    (hge : (a2Room .double a1 a2 : ℝ) / 2 ^ unitBits .double ≤ |wordReal .double a2|) :
    1 / 2 ≤ |wordReal .double a2|
      ∧ |e2| ≤ (a2Room .double a1 a2 : ℝ) / 2 ^ unitBits .double + 2 * ulp := by
  have hulp := ulp_pos
  rcases a2Room_real a1 a2 with ⟨hneg, hsmall, hroom⟩ | ⟨-, hroom⟩
  · rw [hroom] at hge ⊢
    refine ⟨by linarith, ?_⟩
    have hx2 := wordReal_eq .double a2
    rw [if_pos hneg] at hx2
    have hulp' : ulp < 1 / 8 := by unfold ulp; norm_num
    have he2 : |e2| = -e2 := abs_of_neg (by linarith [(abs_le.mp hr2).1])
    linarith [abs_sub_abs_le_abs_sub (wordReal .double a1) e1]
  · rw [hroom] at hge ⊢
    exact ⟨by linarith, by linarith⟩

/-- The `a2` that `insideCircle` stores: near the exact one, and within the tolerance where it moved. -/
theorem moved_a2 (hok : coefficientOk .double a2 = true) (h2 : |e2| < 1) (h1 : |e1| < 1 + e2)
    (hr1 : |wordReal .double a1 - e1| ≤ 2 * ulp) (hr2 : |wordReal .double a2 - e2| ≤ 2 * ulp) :
    |wordReal .double (below .double (a2Room .double a1 a2) a2) - e2| ≤ 7 * ulp
      ∧ (below .double (a2Room .double a1 a2) a2 = a2
        ∨ WithinTolerance (wordReal .double (below .double (a2Room .double a1 a2) a2)) e2) := by
  have hulp := ulp_pos
  obtain ⟨-, -, -, hsame | ⟨hge, hplace, hmove⟩⟩ :=
    below_real hok (a2Room_pos .double a1 a2) (a2Room_le_two .double a1 a2) rfl
  · rw [hsame]
    exact ⟨by linarith, .inl rfl⟩
  · obtain ⟨hhalf, hroom⟩ := abs_le_a2Room h2 h1 hr1 hr2 hge
    have hnear := abs_moved_sub_le hplace hmove hr2 hroom
    exact ⟨by linarith, .inr (withinTolerance_of_ulps hhalf hr2 (by linarith))⟩

/-- A word `a1` that reaches `1 + a2` has a magnitude of at least 1/2: beside a small `a1` a negative `a2`
stays below `1 - |a1|`, and a positive one leaves `1 + a2` at 1 or more. -/
theorem half_le_of_moved_a1 {a2' : Word} (hsign : isNeg .double a2' = isNeg .double a2)
    (hroom : |wordReal .double a2'| < (a2Room .double a1 a2 : ℝ) / 2 ^ unitBits .double)
    (hge : 1 + wordReal .double a2' ≤ |wordReal .double a1|) : 1 / 2 ≤ |wordReal .double a1| := by
  rcases a2Room_real a1 a2 with ⟨-, -, hvalue⟩ | ⟨hpos | hhalf, -⟩
  · rw [hvalue] at hroom
    linarith [neg_abs_le (wordReal .double a2')]
  · have hx2 := wordReal_eq .double a2'
    rw [hsign, hpos, if_neg Bool.false_ne_true] at hx2
    linarith [abs_nonneg (wordReal .double a2')]
  · exact hhalf

/-- The `a1` that `insideCircle` stores is the rounded one or within the tolerance. -/
theorem moved_a1 {a2' : Word} (hok : coefficientOk .double a1 = true) (h1 : |e1| < 1 + e2)
    (hr1 : |wordReal .double a1 - e1| ≤ 2 * ulp) (hnear : |wordReal .double a2' - e2| ≤ 7 * ulp)
    (hsign : isNeg .double a2' = isNeg .double a2)
    (hroom : |wordReal .double a2'| < (a2Room .double a1 a2 : ℝ) / 2 ^ unitBits .double)
    (hunits : unitsOf .double (magBits .double a2') < 2 ^ unitBits .double) :
    below .double (2 ^ unitBits .double + signedUnits .double a2').toNat a1 = a1
      ∨ WithinTolerance
        (wordReal .double (below .double (2 ^ unitBits .double + signedUnits .double a2').toNat a1)) e1 := by
  have hscale : (0 : ℝ) < 2 ^ unitBits .double := by positivity
  obtain ⟨hpos, hle, hcast⟩ := one_add_signedUnits hunits
  have hB : 1 + wordReal .double a2'
      = (((2 ^ unitBits .double + signedUnits .double a2').toNat : ℕ) : ℝ) / 2 ^ unitBits .double := by
    rw [← Int.cast_natCast, hcast, Int.cast_add, Int.cast_pow, Int.cast_ofNat, add_div,
      div_self hscale.ne', wordReal]
  obtain ⟨-, -, -, hsame | ⟨hge, hplace, hmove⟩⟩ := below_real hok (by omega) hle hB
  · exact .inl hsame
  · have hbeyond : |e1| ≤ 1 + wordReal .double a2' + 7 * ulp := by linarith [(abs_le.mp hnear).1]
    have hmoved := abs_moved_sub_le hplace hmove hr1 hbeyond
    exact .inr (withinTolerance_of_ulps (half_le_of_moved_a1 hsign hroom hge) hr1 (by linarith))

end

/-! ### `DOUBLE`: a section moved inside the unit circle -/

/-- A coefficient that meets the tolerance is a finite word. -/
theorem coefficientOk_of_conforms {x : Fx} {e : ℝ}
    (h : CoefficientConforms .double (storeFx .double x) e) :
    coefficientOk .double (storeFx .double x) = true := by
  obtain ⟨q, hq, -⟩ := h
  refine (coefficientOk_iff _ _).mpr ⟨?_, q, hq⟩
  cases x with
  | zero => exact fits_zero _
  | dyadic num frac => exact fits_roundUnits ..

theorem coefficientConforms_of_moved {w w' : Word} {e : ℝ} (h : CoefficientConforms .double w e)
    (hok : coefficientOk .double w' = true) (hmove : w' = w ∨ WithinTolerance (wordReal .double w') e) :
    CoefficientConforms .double w' e := by
  rcases hmove with rfl | hmove
  · exact h
  · rw [coefficientOk, Bool.and_eq_true] at hok
    obtain ⟨q, hq, hreal⟩ := toRat_of_isFinite_eq hok.1
    exact ⟨q, hq, hreal ▸ hmove⟩

/-- The rounding of a coefficient to `DOUBLE`, as the statement supposes it of `a1` and `a2`. -/
def RoundsTo (x : Fx) (e : ℝ) : Prop :=
  ∃ q : ℚ, toRat .double (storeFx .double x) = some q ∧ |q - e| ≤ max (|e| / 2 ^ 52) (1 / 2 ^ 1074)

theorem RoundsTo.abs_sub_le {x : Fx} {e b : ℝ} (h : RoundsTo x e) (hb : |e| ≤ b) (h1 : 1 ≤ b) :
    |wordReal .double (storeFx .double x) - e| ≤ b * ulp := by
  obtain ⟨q, hq, hround⟩ := h
  rw [(wordReal_of_toRat hq).2] at hround
  exact abs_sub_le_of_rounds hb h1 hround

/-- The section `insideCircle` makes of one that meets the tolerance meets it too. -/
theorem sectionConforms_insideCircle {c : Coeffs Fx} {e : Coeffs ℝ} (h2 : |e.a2| < 1)
    (h1 : |e.a1| < 1 + e.a2) (h : SectionConforms .double (nearestSection .double c) e)
    (hr1 : RoundsTo c.a1 e.a1) (hr2 : RoundsTo c.a2 e.a2) :
    SectionConforms .double (insideCircle .double (nearestSection .double c)) e := by
  obtain ⟨hb0, hb1, hb2, ha1, ha2⟩ := h
  have ok1 := coefficientOk_of_conforms ha1
  have ok2 := coefficientOk_of_conforms ha2
  have hd1 := hr1.abs_sub_le (b := 2) (by linarith [(abs_lt.mp h2).2]) one_le_two
  have hd2 : |wordReal .double (storeFx .double c.a2) - e.a2| ≤ 2 * ulp :=
    hr2.abs_sub_le (h2.le.trans one_le_two) one_le_two
  obtain ⟨hnear, hmoved2⟩ := moved_a2 ok2 h2 h1 hd1 hd2
  have hpos := a2Room_pos .double (storeFx .double c.a1) (storeFx .double c.a2)
  have hle := a2Room_le_two .double (storeFx .double c.a1) (storeFx .double c.a2)
  obtain ⟨okM2, hroom, hsign, -⟩ := below_real ok2 hpos hle rfl
  obtain ⟨-, hunits, -, -⟩ := below_cases .double ok2 hpos hle
  replace hunits := hunits.trans_le (a2Room_le .double _ _)
  have hmoved1 := moved_a1 ok1 h1 hd1 hnear hsign hroom hunits
  obtain ⟨hpos1, hbound, hcast⟩ := one_add_signedUnits hunits
  obtain ⟨okM1, -⟩ := below_cases .double ok1 (by omega) hbound
  have kept : ∀ {x : Fx} {r : ℝ}, CoefficientConforms .double (storeFx .double x) r →
      finiteWord .double (storeFx .double x) = storeFx .double x :=
    fun hx => finiteWord_eq .double (coefficientOk_of_conforms hx)
  simp only [SectionConforms, insideCircle, nearestSection, kept hb0, kept hb1, kept hb2,
    kept ha1, kept ha2]
  exact ⟨hb0, hb1, hb2, coefficientConforms_of_moved ha1 okM1 hmoved1,
    coefficientConforms_of_moved ha2 okM2 hmoved2⟩

theorem storeSection_conforms_double {c : Coeffs Fx} {e : Coeffs ℝ} (h2 : |e.a2| < 1)
    (h1 : |e.a1| < 1 + e.a2) (h : SectionConforms .double (nearestSection .double c) e)
    (hr1 : RoundsTo c.a1 e.a1) (hr2 : RoundsTo c.a2 e.a2) : SectionConforms .double (storeSection .double c) e := by
  rcases storeSection_cases .double c with ⟨hmem, -⟩ | ⟨-, heq⟩
  · rwa [List.mem_singleton.mp hmem]
  · rw [heq]
    exact sectionConforms_insideCircle h2 h1 h hr1 hr2

/-- Settles O57: the stored section is stable, and within the tolerance in the two precisions. -/
theorem stableSectionsAreStoredWithinTolerance :
    Obligations.StableSectionsAreStoredWithinTolerance := by
  intro c
  exact ⟨fun p => ⟨sectionOk_storeSection p c, storeSection_eq p⟩,
    fun _ h2 h1 h hr1 hr2 => storeSection_conforms_double h2 h1 h hr1 hr2,
    storeSection_conforms_single⟩

end Sys2Proof.Machine
end

section
/-! SUPPORT. The exact sections (spec 40_rom_design R90 to R103, R107, R109): poles left of the imaginary
axis go inside the unit circle, and what the numerators do at the points their gains are fixed at. -/

namespace Sys2Proof.Machine

/-! ### Stable sections -/

/-- The denominator of an exact section lies strictly inside the triangle of R24 (d). -/
def IsStable (c : Coeffs ℝ) : Prop := |c.a2| < 1 ∧ |c.a1| < 1 + c.a2

/-- So its value is positive at DC and at Nyquist. -/
theorem IsStable.denominator_pos {c : Coeffs ℝ} (h : IsStable c) :
    0 < 1 + c.a1 + c.a2 ∧ 0 < 1 - c.a1 + c.a2 := by
  have h1 := abs_lt.mp h.2
  exact ⟨by linarith, by linarith⟩

/-- And it has no zero on the unit circle. -/
theorem IsStable.denominator_ne_zero {c : Coeffs ℝ} (h : IsStable c) {z : ℂ} (hz : ‖z‖ = 1) :
    z ^ 2 + (c.a1 : ℂ) * z + (c.a2 : ℂ) ≠ 0 := fun h0 =>
  absurd ((roots_inside_iff c.a1 c.a2).mpr h z h0) (by rw [hz]; exact lt_irrefl 1)

theorem isStable_of_polePair {z : ℂ} {c : Coeffs ℝ} (hz : ‖z‖ < 1) (h : HasPolePair z c) :
    IsStable c := by
  obtain ⟨h1, h2⟩ := h
  rw [IsStable, h1, h2]
  exact triangle_of_conjugate_roots ((norm_lt_one_iff z).mp hz)

/-- Two digital poles inside the unit circle with a real sum and a real product make a stable section. -/
theorem isStable_of_two_poles {z1 z2 : ℂ} {c : Coeffs ℝ} (hz1 : ‖z1‖ < 1) (hz2 : ‖z2‖ < 1)
    (h1 : (c.a1 : ℂ) = -(z1 + z2)) (h2 : (c.a2 : ℂ) = z1 * z2) : IsStable c := by
  refine (roots_inside_iff c.a1 c.a2).mp fun z hz => ?_
  have hprod : (z - z1) * (z - z2) = 0 := by
    rw [h1, h2] at hz
    linear_combination hz
  rcases mul_eq_zero.mp hprod with h | h
  · rwa [sub_eq_zero.mp h]
  · rwa [sub_eq_zero.mp h]

/-- The bilinear transform takes the left half plane into the unit circle (R95). -/
theorem norm_bilinear_lt_one {fs : ℝ} {s z : ℂ} (hfs : 0 < fs) (hs : s.re < 0) (h : IsBilinear fs s z) :
    ‖z‖ < 1 := by
  have hre : 0 < fs * -s.re := mul_pos hfs (neg_pos.mpr hs)
  have hsq : ‖2 * (fs : ℂ) + s‖ ^ 2 < ‖2 * (fs : ℂ) - s‖ ^ 2 := by
    simp only [Complex.sq_norm, Complex.normSq_apply, Complex.add_re, Complex.add_im, Complex.sub_re,
      Complex.sub_im, Complex.mul_re, Complex.mul_im, Complex.ofReal_re, Complex.ofReal_im,
      Complex.re_ofNat, Complex.im_ofNat]
    linarith
  have hlt := lt_of_pow_lt_pow_left₀ 2 (norm_nonneg _) hsq
  rw [h, norm_div, div_lt_one ((norm_nonneg _).trans_lt hlt)]
  exact hlt

/-- A prototype pole lies on the unit circle, left of the imaginary axis (R90). -/
theorem prototypePole_left {ord k : ℕ} {p : ℂ} (hk : 1 ≤ k) (hko : k ≤ ord)
    (h : IsPrototypePole ord k p) :
    p.re < 0 ∧ Complex.normSq p = 1 := by
  have hk' : (1 : ℝ) ≤ k := by exact_mod_cast hk
  have hko' : (k : ℝ) ≤ ord := by exact_mod_cast hko
  have hpi := Real.pi_pos
  have hsin : 0 < Real.sin (Real.pi * (2 * k - 1) / (2 * ord)) := by
    apply Real.sin_pos_of_pos_of_lt_pi
    · exact div_pos (mul_pos hpi (by linarith)) (by linarith)
    · rw [div_lt_iff₀ (by linarith)]
      exact mul_lt_mul_of_pos_left (by linarith) hpi
  rw [h, Complex.normSq_apply]
  exact ⟨neg_neg_of_pos hsin, by linarith [Real.sin_sq_add_cos_sq (Real.pi * (2 * k - 1) / (2 * ord))]⟩

/-! ### Low-pass and high-pass sections (R98, R101, R102, R107) -/

section
variable {ord k : ℕ} {fc fs : ℝ} {c c' : Coeffs ℝ}

theorem isStable_of_realPole (h0 : 0 < fc) (h1 : fc < fs / 2) (h : HasRealPole fc fs c) : IsStable c := by
  obtain ⟨omega, hw, ha1, ha2⟩ := h
  have hom := prewarped_pos h0 h1 hw
  have hsum : 0 < 2 * fs + omega := by linarith
  rw [IsStable, ha1, ha2, abs_zero, abs_neg, abs_div, abs_of_pos hsum, add_zero, div_lt_one hsum, abs_lt]
  exact ⟨one_pos, by linarith, by linarith⟩

theorem isStable_of_lowpassPair (hk : 1 ≤ k) (hko : k ≤ ord) (h0 : 0 < fc) (h1 : fc < fs / 2)
    (h : IsLowpassPair ord k fc fs c) : IsStable c := by
  obtain ⟨p, z, omega, hp, hw, hz, hc, -⟩ := h
  have hleft : ((omega : ℂ) * p).re < 0 := by
    rw [Complex.re_ofReal_mul]
    exact mul_neg_of_pos_of_neg (prewarped_pos h0 h1 hw) (prototypePole_left hk hko hp).1
  exact isStable_of_polePair (norm_bilinear_lt_one (by linarith) hleft hz) hc

/-- The analog pole of the high-pass is the conjugate of the low-pass one: `1/p` is the conjugate of `p`. -/
theorem div_prototypePole (hk : 1 ≤ k) (hko : k ≤ ord) {p : ℂ} (hp : IsPrototypePole ord k p)
    (omega : ℝ) :
    (omega : ℂ) / p = (starRingEnd ℂ) ((omega : ℂ) * p) := by
  rw [div_eq_mul_inv, Complex.inv_def, (prototypePole_left hk hko hp).2, map_mul, Complex.conj_ofReal,
    inv_one, Complex.ofReal_one, mul_one]

/-- The denominator of a high-pass section is that of the low-pass of its order and frequency (R107). -/
theorem denominator_highpassPair_eq (hk : 1 ≤ k) (hko : k ≤ ord) (h : IsLowpassPair ord k fc fs c)
    (h' : IsHighpassPair ord k fc fs c') : c.a1 = c'.a1 ∧ c.a2 = c'.a2 := by
  obtain ⟨p, z, omega, hp, hw, hz, ⟨ha1, ha2⟩, -⟩ := h
  obtain ⟨p', z', omega', hp', hw', hz', ⟨ha1', ha2'⟩, -⟩ := h'
  obtain rfl : p' = p := hp'.trans hp.symm
  obtain rfl : omega' = omega := hw'.trans hw.symm
  have hconj : z' = (starRingEnd ℂ) z := by
    rw [hz', hz, div_prototypePole hk hko hp]
    simp only [map_div₀, map_add, map_sub, map_mul, Complex.conj_ofReal, Complex.conj_ofNat]
  rw [ha1, ha2, ha1', ha2', hconj, Complex.conj_re, Complex.conj_im, neg_sq]
  exact ⟨rfl, rfl⟩

theorem denominator_highpassFirst_eq (h : IsLowpassFirst fc fs c) (h' : IsHighpassFirst fc fs c') :
    c.a1 = c'.a1 ∧ c.a2 = c'.a2 := by
  obtain ⟨⟨omega, hw, ha1, ha2⟩, -⟩ := h
  obtain ⟨⟨omega', hw', ha1', ha2'⟩, -⟩ := h'
  rw [ha1, ha2, ha1', ha2', hw, hw']
  exact ⟨rfl, rfl⟩

theorem isStable_of_highpassPair (hk : 1 ≤ k) (hko : k ≤ ord) (h0 : 0 < fc) (h1 : fc < fs / 2)
    (h : IsHighpassPair ord k fc fs c) : IsStable c := by
  obtain ⟨p, z, omega, hp, hw, hz, hc, -⟩ := h
  have hleft : ((omega : ℂ) / p).re < 0 := by
    rw [div_prototypePole hk hko hp, Complex.conj_re, Complex.re_ofReal_mul]
    exact mul_neg_of_pos_of_neg (prewarped_pos h0 h1 hw) (prototypePole_left hk hko hp).1
  exact isStable_of_polePair (norm_bilinear_lt_one (by linarith) hleft hz) hc

/-- The gain of a low-pass section is 1 at DC (R101). -/
theorem lowpass_numerator (h : IsLowpassPair ord k fc fs c ∨ IsLowpassFirst fc fs c) :
    c.b0 + c.b1 + c.b2 = 1 + c.a1 + c.a2 := by
  rcases h with ⟨p, z, omega, -, -, -, -, h0, h1, h2⟩ | ⟨⟨omega, -, -, ha2⟩, h0, h1, h2⟩
  · rw [h0, h1, h2]; ring
  · rw [h0, h1, h2, ha2]; ring

/-- The gain of a high-pass section is 1 at Nyquist and 0 at DC (R102). -/
theorem highpass_numerator (h : IsHighpassPair ord k fc fs c ∨ IsHighpassFirst fc fs c) :
    c.b0 - c.b1 + c.b2 = 1 - c.a1 + c.a2 ∧ c.b0 + c.b1 + c.b2 = 0 := by
  rcases h with ⟨p, z, omega, -, -, -, -, h0, h1, h2⟩ | ⟨⟨omega, -, -, ha2⟩, h0, h1, h2⟩
  · rw [h0, h1, h2]; constructor <;> ring
  · rw [h0, h1, h2, ha2]; constructor <;> ring

end

/-- Settles O58, from the stability of each kind of section, its gain and the shared denominators. -/
theorem exactSingleBandSectionsAreStable : Obligations.ExactSingleBandSectionsAreStable := by
  intro ord k fc fs c c' hk hko h0 h1
  refine ⟨fun h => ?_, fun h => ?_, fun h => ?_⟩
  · have hstable : IsStable c := h.elim (isStable_of_lowpassPair hk hko h0 h1)
      fun hfirst => isStable_of_realPole h0 h1 hfirst.1
    exact ⟨hstable.1, hstable.2, hstable.denominator_pos.1, lowpass_numerator h⟩
  · have hstable : IsStable c := h.elim (isStable_of_highpassPair hk hko h0 h1)
      fun hfirst => isStable_of_realPole h0 h1 hfirst.1
    exact ⟨hstable.1, hstable.2, hstable.denominator_pos.2, highpass_numerator h⟩
  · exact h.elim (fun hpair => denominator_highpassPair_eq hk hko hpair.1 hpair.2)
      fun hfirst => denominator_highpassFirst_eq hfirst.1 hfirst.2

/-! ### Band-pass sections (R94, R99, R103) -/

/-- Of two analog poles with a positive product and a sum left of the imaginary axis each lies there. -/
theorem pole_left {s1 s2 : ℂ} {centre : ℝ} (hc : 0 < centre) (hm : s1 * s2 = (centre : ℂ))
    (hs : (s1 + s2).re < 0) : s1.re < 0 := by
  have hre := congrArg Complex.re hm
  have him := congrArg Complex.im hm
  rw [Complex.mul_re, Complex.ofReal_re] at hre
  rw [Complex.mul_im, Complex.ofReal_im] at him
  rw [Complex.add_re] at hs
  by_contra hge
  have hsame : s2.re * (s1.re ^ 2 + s1.im ^ 2) = centre * s1.re := by
    linear_combination s1.re * hre + s1.im * him
  have hright : 0 ≤ centre * s1.re := mul_nonneg hc.le (not_lt.mp hge)
  have hzero : s1.re ^ 2 + s1.im ^ 2 = 0 := by
    by_contra hne
    have hpos : 0 < s1.re ^ 2 + s1.im ^ 2 := lt_of_le_of_ne (by positivity) (Ne.symm hne)
    linarith [mul_neg_of_neg_of_pos (show s2.re < 0 by linarith) hpos]
  obtain ⟨h1, h2⟩ := (add_eq_zero_iff_of_nonneg (sq_nonneg _) (sq_nonneg _)).mp hzero
  rw [pow_eq_zero_iff two_ne_zero] at h1 h2
  rw [h1, h2] at hre
  linarith

section
variable {ord k : ℕ} {flow fhigh fs width centre : ℝ} {c d : Coeffs ℝ}

/-- A band has a positive width and a positive centre (R91). -/
theorem band_pos (h0 : 0 < flow) (h1 : flow < fhigh) (h2 : fhigh < fs / 2)
    (h : IsBand flow fhigh fs width centre) : 0 < width ∧ 0 < centre := by
  obtain ⟨ol, oh, hl, hh, rfl, rfl⟩ := h
  exact ⟨sub_pos.mpr (prewarped_lt h0 h1 h2 hl hh),
    mul_pos (prewarped_pos h0 (h1.trans h2) hl) (prewarped_pos (h0.trans h1) h2 hh)⟩

theorem bandpassPair_stable {s : ℂ} (hfs : 0 < fs) (hs : s.re < 0) (h : IsBandpassPair fs centre s c) :
    IsStable c := by
  obtain ⟨z, g, hz, hc, -, -⟩ := h
  exact isStable_of_polePair (norm_bilinear_lt_one hfs hs hz) hc

/-- Both sections of a prototype pole come from analog poles left of the imaginary axis: `u + d` and `u - d`
have the sum `2*u` and the product `Omega0^2` (R94). -/
theorem isStable_of_bandpassTwo (hk : 1 ≤ k) (hko : k ≤ ord) (h0 : 0 < flow) (h1 : flow < fhigh)
    (h2 : fhigh < fs / 2) (h : IsBandpassTwo ord k flow fhigh fs c d) : IsStable c ∧ IsStable d := by
  obtain ⟨p, u, r, width, centre, hp, hband, hu, ⟨hsq, -⟩, hc, hd⟩ := h
  obtain ⟨hwidth, hcentre⟩ := band_pos h0 h1 h2 hband
  have hfs : 0 < fs := by linarith
  have hsum : ((u + r) + (u - r)).re < 0 := by
    rw [show (u + r) + (u - r) = (width : ℂ) * p by rw [hu]; ring, Complex.re_ofReal_mul]
    exact mul_neg_of_pos_of_neg hwidth (prototypePole_left hk hko hp).1
  have hprod : (u + r) * (u - r) = (centre : ℂ) := by linear_combination -hsq
  exact ⟨bandpassPair_stable hfs (pole_left hcentre hprod hsum) hc,
    bandpassPair_stable hfs (pole_left hcentre (by rwa [mul_comm]) (by rwa [add_comm])) hd⟩

theorem isStable_of_bandpassOdd (h0 : 0 < flow) (h1 : flow < fhigh) (h2 : fhigh < fs / 2)
    (h : IsBandpassOdd flow fhigh fs c) : IsStable c := by
  obtain ⟨s1, s2, z1, z2, width, centre, g, hband, hs, hm, hz1, hz2, ha1, ha2, -, -⟩ := h
  obtain ⟨hwidth, hcentre⟩ := band_pos h0 h1 h2 hband
  have hfs : 0 < fs := by linarith
  have hsum : (s1 + s2).re < 0 := by
    rw [hs, Complex.neg_re, Complex.ofReal_re]
    exact neg_neg_of_pos hwidth
  have hleft1 := pole_left hcentre hm hsum
  have hleft2 := pole_left (s1 := s2) (s2 := s1) hcentre (by rwa [mul_comm]) (by rwa [add_comm])
  exact isStable_of_two_poles (norm_bilinear_lt_one hfs hleft1 hz1) (norm_bilinear_lt_one hfs hleft2 hz2)
    ha1 ha2

/-- A band-pass section, of either kind, has a numerator `(g, 0, -g)` whose gain is fixed at the centre of
its band (R103). -/
theorem bandGain_of_bandpass
    (h : (∃ d, IsBandpassTwo ord k flow fhigh fs c d) ∨ (∃ d, IsBandpassTwo ord k flow fhigh fs d c)
      ∨ IsBandpassOdd flow fhigh fs c) :
    ∃ width centre g, IsBand flow fhigh fs width centre ∧ IsBandGain fs centre c g
      ∧ HasNumerator g 1 0 (-1) c := by
  rcases h with ⟨d, h⟩ | ⟨d, h⟩ | h
  · obtain ⟨p, u, r, width, centre, -, hband, -, -, ⟨z, g, -, -, hgain, hnum⟩, -⟩ := h
    exact ⟨width, centre, g, hband, hgain, hnum⟩
  · obtain ⟨p, u, r, width, centre, -, hband, -, -, -, ⟨z, g, -, -, hgain, hnum⟩⟩ := h
    exact ⟨width, centre, g, hband, hgain, hnum⟩
  · obtain ⟨s1, s2, z1, z2, width, centre, g, hband, -, -, -, -, -, -, hgain, hnum⟩ := h
    exact ⟨width, centre, g, hband, hgain, hnum⟩

end

/-- A point `e^(jw)` lies on the unit circle. -/
theorem norm_cos_sin (w : ℝ) : ‖(⟨Real.cos w, Real.sin w⟩ : ℂ)‖ = 1 := by
  rw [← sq_eq_sq₀ (norm_nonneg _) zero_le_one, Complex.sq_norm, Complex.normSq_apply]
  linarith [Real.sin_sq_add_cos_sq w]

/-- The digital image of a positive analog frequency is neither 1 nor -1 (R103). -/
theorem digitalCentre_sq_ne_one {t : ℝ} (ht : 0 < t) :
    (⟨Real.cos (2 * Real.arctan t), Real.sin (2 * Real.arctan t)⟩ : ℂ) ^ 2 - 1 ≠ 0 := by
  have hsin : 0 < Real.sin (2 * Real.arctan t) :=
    Real.sin_pos_of_pos_of_lt_pi (by linarith [Real.arctan_pos.mpr ht])
      (by linarith [Real.arctan_lt_pi_div_two t])
  intro h
  rcases mul_self_eq_one_iff.mp (pow_two (M := ℂ) _ ▸ sub_eq_zero.mp h) with h | h
  · exact hsin.ne' (congrArg Complex.im h)
  · exact hsin.ne' ((congrArg Complex.im h).trans (by simp))

/-- Where the gain is fixed, numerator and denominator have the same magnitude (R103). -/
theorem norm_numerator_of_bandGain {c : Coeffs ℝ} {g : ℝ} {zc : ℂ}
    (hg : g = ‖zc ^ 2 + (c.a1 : ℂ) * zc + (c.a2 : ℂ)‖ / ‖zc ^ 2 - 1‖) (hzc : zc ^ 2 - 1 ≠ 0)
    (hn : HasNumerator g 1 0 (-1) c) :
    ‖(c.b0 : ℂ) * zc ^ 2 + (c.b1 : ℂ) * zc + (c.b2 : ℂ)‖
      = ‖zc ^ 2 + (c.a1 : ℂ) * zc + (c.a2 : ℂ)‖ := by
  obtain ⟨h0, h1, h2⟩ := hn
  have hfactor : (c.b0 : ℂ) * zc ^ 2 + (c.b1 : ℂ) * zc + (c.b2 : ℂ) = (g : ℂ) * (zc ^ 2 - 1) := by
    rw [h0, h1, h2]
    push_cast
    ring
  have hgain : 0 ≤ g := hg ▸ div_nonneg (norm_nonneg _) (norm_nonneg _)
  rw [hfactor, norm_mul, Complex.norm_of_nonneg hgain, hg, div_mul_cancel₀ _ (norm_ne_zero_iff.mpr hzc)]

/-- Settles O59, from the stability of each kind of section and the gain both are given. -/
theorem exactBandpassSectionsAreStable : Obligations.ExactBandpassSectionsAreStable := by
  intro ord k flow fhigh fs ol oh w zc c hk hko h0 h1 h2 hl hh hw hz h
  have hstable : IsStable c := by
    rcases h with ⟨d, h⟩ | ⟨d, h⟩ | h
    · exact (isStable_of_bandpassTwo hk hko h0 h1 h2 h).1
    · exact (isStable_of_bandpassTwo hk hko h0 h1 h2 h).2
    · exact isStable_of_bandpassOdd h0 h1 h2 h
  obtain ⟨width, centre, g, hband, ⟨w', zc', hw', hz', hg⟩, hn⟩ := bandGain_of_bandpass h
  have hcentre := (band_pos h0 h1 h2 hband).2
  obtain ⟨ol', oh', hl', hh', -, rfl⟩ := hband
  obtain rfl : w' = w := by rw [hw', hw, hl', hh', hl, hh]
  obtain rfl : zc' = zc := hz'.trans hz.symm
  have hne : zc' ^ 2 - 1 ≠ 0 := by
    rw [hz, hw']
    exact digitalCentre_sq_ne_one (div_pos (Real.sqrt_pos.mpr hcentre) (by linarith))
  exact ⟨hstable.1, hstable.2, hstable.denominator_ne_zero (by rw [hz]; exact norm_cos_sin w'),
    norm_numerator_of_bandGain hg hne hn⟩

/-! ### Notch sections (R109) -/

/-- A point of the unit circle is a root of the quadratic with its own angle. -/
theorem unitCircle_quadratic (t : ℝ) :
    (⟨Real.cos t, Real.sin t⟩ : ℂ) ^ 2 - 2 * (Real.cos t : ℂ) * ⟨Real.cos t, Real.sin t⟩ + 1 = 0 := by
  have hpyth := Real.sin_sq_add_cos_sq t
  apply Complex.ext
  · simp only [pow_two, Complex.add_re, Complex.sub_re, Complex.mul_re, Complex.mul_im, Complex.ofReal_re,
      Complex.ofReal_im, Complex.re_ofNat, Complex.im_ofNat, Complex.one_re, Complex.zero_re]
    linarith
  · simp only [pow_two, Complex.add_im, Complex.sub_im, Complex.mul_re, Complex.mul_im, Complex.ofReal_re,
      Complex.ofReal_im, Complex.re_ofNat, Complex.im_ofNat, Complex.one_im, Complex.zero_im]
    ring

/-- The poles of a notch have the radius `r`, below 1. -/
theorem isStable_of_notch {f0 q fs : ℝ} {c : Coeffs ℝ} (h0 : 0 < f0) (h1 : f0 < fs / 2) (hq : 0 < q)
    (hr : 0 < 1 - Real.pi * (f0 / q) / fs) (h : IsNotch f0 q fs c) : IsStable c := by
  obtain ⟨r, theta, rfl, -, -, -, -, ha1, ha2⟩ := h
  have hfs : 0 < fs := by linarith
  have hr1 : 1 - Real.pi * (f0 / q) / fs < 1 := sub_lt_self 1 (by have := Real.pi_pos; positivity)
  generalize 1 - Real.pi * (f0 / q) / fs = r at *
  have hin : (r * Real.cos theta) ^ 2 + (r * Real.sin theta) ^ 2 < 1 := by
    have hpyth : (r * Real.cos theta) ^ 2 + (r * Real.sin theta) ^ 2 = r ^ 2 := by
      linear_combination r ^ 2 * Real.sin_sq_add_cos_sq theta
    rw [hpyth]
    exact pow_lt_one₀ hr.le hr1 two_ne_zero
  refine isStable_of_polePair (z := ⟨r * Real.cos theta, r * Real.sin theta⟩)
    ((norm_lt_one_iff _).mpr hin) ⟨?_, ?_⟩
  · rw [ha1]; ring
  · rw [ha2]; linear_combination -r ^ 2 * Real.sin_sq_add_cos_sq theta

/-- Settles O60: the numerator is `(1 + r)/2` times the quadratic whose root is `e^(j theta)`. -/
theorem exactNotchRejectsItsFrequency : Obligations.ExactNotchRejectsItsFrequency := by
  intro f0 q fs c h0 h1 hq hr h
  obtain ⟨ha2, ha1⟩ := isStable_of_notch h0 h1 hq hr h
  obtain ⟨r, theta, -, htheta, hb0, hb1, hb2, -, -⟩ := h
  refine ⟨ha2, ha1, fun z hz => ?_⟩
  rw [← htheta] at hz
  have hroot := unitCircle_quadratic theta
  rw [← hz] at hroot
  rw [hb0, hb1, hb2]
  push_cast at hroot ⊢
  linear_combination (1 + (r : ℂ)) / 2 * hroot

end Sys2Proof.Machine
end

section
/-! SUPPORT. The commands `RST` and `PROC` (spec 41_cascade R120 to R123, R126): their frames, the cascade
section by section, and how a NaN spreads through it. -/

namespace Sys2Proof.Machine

/-! ### `RST` -/

theorem exec_rst (s : State) : exec .rst s = .next (respond 0#64 (clearState s)) := rfl

/-- Settles O19: `clearState` writes the state file alone, and `respond` the response and `PHASE`. -/
theorem rstClearsOnlyTheStateFile : Obligations.RstClearsOnlyTheStateFile := fun s =>
  ⟨_, exec_rst s, ⟨rfl, rfl⟩, ⟨zeroFile_length _, fun k _ => ⟨clearState_w1 s k, clearState_w2 s k⟩⟩,
    ⟨rfl, rfl⟩, fun _ => rfl, fun _ => rfl, ⟨rfl, rfl, rfl⟩, ⟨rfl, rfl, rfl⟩⟩

/-! ### `PROC` -/

theorem exec_proc (s : State) : exec .proc s
    = .next (respond (cascadeStep s.cmdData s).1 (cascadeStep s.cmdData s).2) := rfl

/-- Settles O21: a cascade step writes the state file and the draw counter alone. -/
theorem procChangesOnlyTheStateFile : Obligations.ProcChangesOnlyTheStateFile := fun s =>
  ⟨_, _, exec_proc s, ⟨rfl, rfl⟩, cascadeStep_file_length s.cmdData s, ⟨rfl, rfl⟩, fun _ => rfl,
    fun _ => rfl, ⟨rfl, rfl, rfl⟩, ⟨rfl, rfl, rfl⟩, rfl⟩

/-- Section `k` of a cascade is one biquad: its input is the output of the sections before it, and its
draws are numbered from the nine of each of them on (R122). -/
theorem cascade_section {α : Type} (ar : Arith α) {cs : List (Coeffs α)} {ws : List (Delay α)} {k : Nat}
    {c : Coeffs α} {w : Delay α} (hc : cs[k]? = some c) (hw : ws[k]? = some w) (d : Nat) (x : α) :
    (cascade ar (cs.take (k + 1)) ws d x).1
        = (biquad ar (d + 9 * k) c w (cascade ar (cs.take k) ws d x).1).1
      ∧ (cascade ar cs ws d x).2[k]?
        = some (biquad ar (d + 9 * k) c w (cascade ar (cs.take k) ws d x).1).2 := by
  induction cs generalizing ws k d x with
  | nil => simp at hc
  | cons c' cs ih =>
    cases ws with
    | nil => simp at hw
    | cons w' ws =>
      cases k with
      | zero =>
        obtain rfl : c' = c := by simpa using hc
        obtain rfl : w' = w := by simpa using hw
        exact ⟨rfl, rfl⟩
      | succ k =>
        have hrest := ih (by simpa using hc) (by simpa using hw) (d + 9) (biquad ar d c' w' x).1
        rwa [show d + 9 + 9 * k = d + 9 * (k + 1) by omega] at hrest

/-- The registers of section `k` are those of entry `k` of the state file. -/
theorem registers_of_getElem? {s : State} {k : Nat} {w : Delay Word} (h : s.file[k]? = some w) :
    s.w1 k = w.w1 ∧ s.w2 k = w.w2 := by
  simp only [State.w1, State.w2, List.getD, h, Option.getD_some, and_self]

/-- The word that enters section `k` when `PROC` runs: what the sections before it make of the sample. -/
def sectionInput (s : State) (k : Nat) : Word :=
  (cascade (machineArith s.par) (s.rom.sections.take k) s.file s.draws s.cmdData).1

/-- What enters past the last section is the output of the cascade. -/
theorem sectionInput_nsec (s : State) : sectionInput s s.nsec = (cascadeStep s.cmdData s).1 := by
  rw [sectionInput, State.nsec, List.take_length]
  rfl

/-- Settles O20: the word entering a section is the output of the sections before it. -/
theorem procEvaluatesEverySection : Obligations.ProcEvaluatesEverySection := by
  intro s hlen
  refine ⟨_, sectionInput s, exec_proc s, rfl, ⟨by rw [sectionInput_nsec]; rfl, rfl⟩,
    (cascadeStep_file_length s.cmdData s).trans hlen, fun k c hc => ?_⟩
  have hk : k < s.file.length := hlen ▸ (List.getElem?_eq_some_iff.mp hc).1
  have hw := List.getElem?_eq_getElem hk
  obtain ⟨hout, hfile⟩ := cascade_section (machineArith s.par) hc hw s.draws s.cmdData
  obtain ⟨h1, h2⟩ := registers_of_getElem? hw
  obtain ⟨h1', h2'⟩ := registers_of_getElem?
    (s := respond (cascadeStep s.cmdData s).1 (cascadeStep s.cmdData s).2) hfile
  dsimp only
  rw [h1, h2, h1', h2', sectionInput, hout]
  exact ⟨rfl, rfl, rfl⟩

/-- With the default `NUMERICS` an operation with a NaN operand returns a NaN (R126). -/
theorem isNaN_numerics (p : Prec) (d : Nat) {a b : Word} (h : isNaN p a = true ∨ isNaN p b = true) :
    isNaN p (numerics.fmul p d a b) = true ∧ isNaN p (numerics.fadd p d a b) = true
      ∧ isNaN p (numerics.fsub p d a b) = true :=
  ⟨(drawsOnlyNaNs_ieeeMul p).nan d a b h, (drawsOnlyNaNs_ieeeAdd p).nan d a b h,
    (drawsOnlyNaNs_ieeeSub p).nan d a b h⟩

/-- Settles O22: a NaN output makes its section's registers NaN and is the next section's input, whose
output is NaN again. -/
theorem naNStaysUntilCleared : Obligations.NaNStaysUntilCleared := by
  intro s t k hpath hlen hk hexec
  obtain ⟨t', v, ht', -, hans, -, hsec⟩ := procEvaluatesEverySection s hlen
  obtain rfl := Host.Outcome.next.inj (hexec.symm.trans ht')
  simp only [hpath, numericsOf] at hsec
  have mul {d : Nat} {a b : Word} (h : isNaN s.prec b = true) :=
    (isNaN_numerics s.prec d (a := a) (.inr h)).1
  have add {d : Nat} {a b : Word} (h : isNaN s.prec a = true ∨ isNaN s.prec b = true) :=
    (isNaN_numerics s.prec d h).2.1
  have sub {d : Nat} {a b : Word} (h : isNaN s.prec a = true ∨ isNaN s.prec b = true) :=
    (isNaN_numerics s.prec d h).2.2
  have registers : ∀ j, j < s.nsec → isNaN s.prec (v (j + 1)) = true →
      isNaN s.prec (t.w1 j) = true ∧ isNaN s.prec (t.w2 j) = true := by
    intro j hj hy
    obtain ⟨-, hw1, hw2⟩ := hsec j _ (List.getElem?_eq_getElem hj)
    rw [hw1, hw2]
    exact ⟨add (.inl (sub (.inr (mul hy)))), sub (.inr (mul hy))⟩
  obtain ⟨hout, hw1, -⟩ := hsec k _ (List.getElem?_eq_getElem hk)
  refine ⟨fun hnan => ?_, fun hnan => by rw [hw1]; exact add (.inr hnan)⟩
  have outputs : ∀ j, k ≤ j → j < s.nsec → isNaN s.prec (v (j + 1)) = true := by
    intro j hkj
    induction j, hkj using Nat.le_induction with
    | base => intro _; rw [hout]; exact add (.inr hnan)
    | succ j _ ih =>
      intro hj
      rw [(hsec (j + 1) _ (List.getElem?_eq_getElem hj)).1]
      exact add (.inl (mul (ih (by omega))))
  refine ⟨⟨_, hans, ?_⟩, fun j hkj hj => registers j hj (outputs j hkj hj)⟩
  have hlast := outputs (s.nsec - 1) (by omega) (by omega)
  rwa [Nat.sub_add_cancel (by omega)] at hlast

/-! ### One section in exact arithmetic -/

/-- What a section in exact arithmetic answers and keeps (R122, R123). -/
theorem biquad_exactArith {α : Type} [Mul α] [Add α] [Sub α] (d : Nat) (c : Coeffs α) (w : Delay α)
    (x : α) : biquad exactArith d c w x
      = (c.b0 * x + w.w1, { w1 := c.b1 * x - c.a1 * (c.b0 * x + w.w1) + w.w2
                            w2 := c.b2 * x - c.a2 * (c.b0 * x + w.w1) }) := rfl

/-- Settles O23: the registers carry the terms of the two samples before. -/
theorem exactSectionIsTheTransferFunction : Obligations.ExactSectionIsTheTransferFunction := by
  intro c w x0 x1 x2 d
  simp only [biquad_exactArith]
  ring

end Sys2Proof.Machine
end

section
/-! SUPPORT. The default `NUMERICS` operand by operand (spec 41_cascade R124, R126, R127): the sum, the
difference and the product of infinities and finite reals, NaN results and signed zeros. -/

namespace Sys2Proof.Machine

/-! ### A number of units with a sign -/

/-- A whole number with a sign bit. -/
def withSign (neg : Bool) (n : Nat) : Int := if neg then -(n : Int) else n

theorem signedUnits_eq_withSign (p : Prec) (w : Word) :
    signedUnits p w = withSign (isNeg p w) (unitsOf p (magBits p w)) := rfl

@[simp] theorem withSign_zero (neg : Bool) : withSign neg 0 = 0 := by cases neg <;> rfl

@[simp] theorem withSign_not (neg : Bool) (n : Nat) : withSign (!neg) n = -withSign neg n := by
  cases neg <;> simp [withSign]

@[simp] theorem abs_withSign (neg : Bool) (n : Nat) : |withSign neg n| = n := by
  cases neg <;> simp [withSign]

@[simp] theorem withSign_eq_zero (neg : Bool) (n : Nat) : withSign neg n = 0 ↔ n = 0 := by
  cases neg <;> simp [withSign]

theorem withSign_add (neg : Bool) (m n : Nat) : withSign neg m + withSign neg n = withSign neg (m + n) := by
  cases neg <;> simp [withSign, add_comm]

/-- The sign of a product is the exclusive-or of the signs (R127). -/
theorem withSign_mul (s t : Bool) (m n : Nat) : withSign s m * withSign t n = withSign (s != t) (m * n) := by
  cases s <;> cases t <;> simp [withSign]

/-- A number other than zero is below zero exactly when its sign bit says so. -/
theorem decide_withSign_neg {neg : Bool} {n : Nat} (hn : n ≠ 0) : decide (withSign neg n < 0) = neg := by
  cases neg
  · simp [withSign]
  · simpa [withSign] using Nat.pos_of_ne_zero hn

/-! ### The sign turned over -/

@[simp] theorem magBits_negate (p : Prec) (w : Word) : magBits p (negate p w) = magBits p w :=
  magBits_pack p _ (magBits_lt p w)

@[simp] theorem isNeg_negate (p : Prec) (w : Word) : isNeg p (negate p w) = !isNeg p w :=
  isNeg_pack p _ (magBits_lt p w)

@[simp] theorem isFinite_negate (p : Prec) (w : Word) : isFinite p (negate p w) = isFinite p w := by
  rw [isFinite, magBits_negate, isFinite]

@[simp] theorem signedUnits_negate (p : Prec) (w : Word) : signedUnits p (negate p w) = -signedUnits p w := by
  rw [signedUnits_eq_withSign, isNeg_negate, magBits_negate, withSign_not, signedUnits_eq_withSign]

@[simp] theorem negate_infWord (p : Prec) (neg : Bool) : negate p (infWord p neg) = infWord p (!neg) := by
  have h := infBits_lt_signBit p
  rw [negate, infWord, isNeg_pack p neg h, magBits_pack p neg h, infWord]

/-! ### Sums and differences -/

section
variable {p : Prec} {a b : Word}

theorem ieeeAdd_infWord_infWord (p : Prec) (d : Nat) (s t : Bool) :
    ieeeAdd p d (infWord p s) (infWord p t) = if s = t then infWord p s else drawnNaN p d := by
  simp only [ieeeAdd, datum_infWord]

theorem ieeeAdd_infWord_finite (d : Nat) (s : Bool) (ha : isFinite p a = true) :
    ieeeAdd p d (infWord p s) a = infWord p s := by
  simp only [ieeeAdd, datum_infWord, datum_of_isFinite ha]

theorem ieeeAdd_finite_infWord (d : Nat) (s : Bool) (ha : isFinite p a = true) :
    ieeeAdd p d a (infWord p s) = infWord p s := by
  simp only [ieeeAdd, datum_infWord, datum_of_isFinite ha]

theorem ieeeAdd_finite (d : Nat) (ha : isFinite p a = true) (hb : isFinite p b = true) :
    ieeeAdd p d a b = addFinite p (isNeg p a) (unitsOf p (magBits p a)) (isNeg p b)
      (unitsOf p (magBits p b)) := by
  simp only [ieeeAdd, datum_of_isFinite ha, datum_of_isFinite hb]

/-! ### Products -/

theorem ieeeMul_infWord_infWord (p : Prec) (d : Nat) (s t : Bool) :
    ieeeMul p d (infWord p s) (infWord p t) = infWord p (s != t) := by
  simp only [ieeeMul, datum_infWord]

theorem ieeeMul_infWord_finite (d : Nat) (s : Bool) (ha : isFinite p a = true) :
    ieeeMul p d (infWord p s) a
      = if magBits p a = 0 then drawnNaN p d else infWord p (s != isNeg p a) := by
  simp only [ieeeMul, datum_infWord, datum_of_isFinite ha, unitsOf_eq_zero]

theorem ieeeMul_finite_infWord (d : Nat) (s : Bool) (ha : isFinite p a = true) :
    ieeeMul p d a (infWord p s)
      = if magBits p a = 0 then drawnNaN p d else infWord p (isNeg p a != s) := by
  simp only [ieeeMul, datum_infWord, datum_of_isFinite ha, unitsOf_eq_zero]

theorem ieeeMul_finite (d : Nat) (ha : isFinite p a = true) (hb : isFinite p b = true) :
    ieeeMul p d a b = roundUnits p (isNeg p a != isNeg p b)
      (unitsOf p (magBits p a) * unitsOf p (magBits p b)) (unitBits p) := by
  simp only [ieeeMul, datum_of_isFinite ha, datum_of_isFinite hb]

end

/-! ### Infinities and NaNs (R126) -/

/-- Settles O26: `numerics` is the three IEEE operations, and a difference is a sum with the second sign
turned over. -/
theorem specialValuesFollowIEEE : Obligations.SpecialValuesFollowIEEE := by
  intro p d a b s t
  simp only [numerics, ieeeSub, negate_infWord, Bool.not_not]
  refine ⟨isNaN_numerics p d, ?_, ?_, ?_, ieeeMul_infWord_infWord p d s t,
    fun ha => ⟨fun h0 => ?_, fun h0 => ?_, ieeeAdd_infWord_finite d s ha, ieeeAdd_finite_infWord d s ha,
      ieeeAdd_infWord_finite d s (by rwa [isFinite_negate]), ieeeAdd_finite_infWord d (!s) ha⟩, ?_⟩
  · rw [ieeeAdd_infWord_infWord, if_neg (by simp)]
    exact isNaN_drawnNaN p d
  · rw [ieeeAdd_infWord_infWord, if_neg (by simp)]
    exact isNaN_drawnNaN p d
  · rw [ieeeAdd_infWord_infWord, if_pos rfl]
  · rw [ieeeMul_finite_infWord d s ha, ieeeMul_infWord_finite d s ha, if_pos h0, if_pos h0]
    exact ⟨isNaN_drawnNaN p d, isNaN_drawnNaN p d⟩
  · rw [ieeeMul_finite_infWord d s ha, ieeeMul_infWord_finite d s ha, if_neg h0, if_neg h0]
    exact ⟨rfl, rfl⟩
  · rw [ieeeAdd_infWord_infWord, if_pos rfl]

/-! ### Signed zeros (R125, R127) -/

@[simp] theorem roundUnits_zero (p : Prec) (neg : Bool) (sh : Nat) : roundUnits p neg 0 sh = pack p neg 0 := by
  rw [roundUnits, roundMag_zero]

@[simp] theorem isNeg_roundUnits (p : Prec) (neg : Bool) (num sh : Nat) :
    isNeg p (roundUnits p neg num sh) = neg :=
  isNeg_pack p neg (roundMag_lt p num sh)

@[simp] theorem magBits_roundUnits (p : Prec) (neg : Bool) (num sh : Nat) :
    magBits p (roundUnits p neg num sh) = roundMag p num sh :=
  magBits_pack p neg (roundMag_lt p num sh)

@[simp] theorem isFinite_pack_zero (p : Prec) (neg : Bool) : isFinite p (pack p neg 0) = true := by
  rw [isFinite, magBits_pack p neg (signBit_pos p)]
  cases p <;> decide

@[simp] theorem isNeg_pack_zero (p : Prec) (neg : Bool) : isNeg p (pack p neg 0) = neg :=
  isNeg_pack p neg (signBit_pos p)

@[simp] theorem signedUnits_pack_zero (p : Prec) (neg : Bool) : signedUnits p (pack p neg 0) = 0 := by
  rw [signedUnits_eq_withSign, magBits_pack p _ (signBit_pos p), (unitsOf_eq_zero p 0).mpr rfl,
    withSign_zero]

/-- A sum of two signed numbers is a third one, rounded with its own sign; a zero sum is `-0` where both
are negative, that is `-0`, and `+0` in every other case (R127). -/
theorem addFinite_cases (p : Prec) (s : Bool) (x : Nat) (t : Bool) (y : Nat) :
    ∃ neg num, addFinite p s x t y = roundUnits p neg num 0 ∧ withSign neg num = withSign s x + withSign t y
      ∧ (num = 0 → neg = (s && t)) := by
  unfold addFinite
  by_cases hst : s = t
  · subst hst
    exact ⟨s, x + y, if_pos rfl, (withSign_add s x y).symm, fun _ => (Bool.and_self s).symm⟩
  · obtain rfl : (!s) = t := Bool.not_eq_iff.mpr hst
    rw [if_neg hst, withSign_not]
    rcases Nat.lt_trichotomy y x with h | h | h
    · refine ⟨s, x - y, if_pos h, ?_, fun h0 => by omega⟩
      cases s <;> simp [withSign] <;> omega
    · subst h
      exact ⟨false, 0, by simp, by simp, fun _ => by simp⟩
    · refine ⟨!s, y - x, by rw [if_neg (by omega), if_pos h], ?_, fun h0 => by omega⟩
      cases s <;> simp [withSign] <;> omega

/-- A sum of finite reals is the exact sum of their units, rounded (R124). -/
theorem ieeeAdd_finite_cases {p : Prec} {a b : Word} (d : Nat) (ha : isFinite p a = true)
    (hb : isFinite p b = true) :
    ∃ neg num, ieeeAdd p d a b = roundUnits p neg num 0
      ∧ withSign neg num = signedUnits p a + signedUnits p b
      ∧ (num = 0 → neg = (isNeg p a && isNeg p b)) := by
  rw [ieeeAdd_finite d ha hb]
  exact addFinite_cases ..

theorem ieeeAdd_eq_zero {p : Prec} {a b : Word} (d : Nat) (ha : isFinite p a = true)
    (hb : isFinite p b = true) (hsum : signedUnits p a + signedUnits p b = 0) :
    ieeeAdd p d a b = pack p (isNeg p a && isNeg p b) 0 := by
  obtain ⟨neg, num, hround, hexact, hsign⟩ := ieeeAdd_finite_cases d ha hb
  obtain rfl := (withSign_eq_zero neg num).mp (hexact.trans hsum)
  rw [hround, roundUnits_zero, hsign rfl]

theorem ieeeSub_eq_zero {p : Prec} {a b : Word} (d : Nat) (ha : isFinite p a = true)
    (hb : isFinite p b = true) (hdiff : signedUnits p a - signedUnits p b = 0) :
    ieeeSub p d a b = pack p (isNeg p a && !isNeg p b) 0 := by
  rw [ieeeSub, ieeeAdd_eq_zero d ha (by rwa [isFinite_negate]) (by rwa [signedUnits_negate]), isNeg_negate]

/-- Settles O27: an exactly zero sum has the sign R127 gives it, and a product is rounded with the
product's sign. -/
theorem signedZerosFollowIEEE : Obligations.SignedZerosFollowIEEE := by
  intro p d
  simp only [numerics]
  refine ⟨?_, fun x hx => ?_, ?_, fun a b => ieeeAdd_eq_zero d, fun a b => ieeeSub_eq_zero d,
    fun a b ha hb h0 => ?_, fun a b ha hb => ?_⟩
  · rw [ieeeAdd_eq_zero d (isFinite_pack_zero p _) (isFinite_pack_zero p _) (by simp)]
    simp
  · rw [ieeeSub_eq_zero d hx hx (sub_self _), Bool.and_not_self]
  · rw [ieeeSub_eq_zero d (isFinite_pack_zero p _) (isFinite_pack_zero p _) (by simp)]
    simp
  · have hprod : unitsOf p (magBits p a) * unitsOf p (magBits p b) = 0 := by
      rwa [Nat.mul_eq_zero, unitsOf_eq_zero, unitsOf_eq_zero]
    rw [ieeeMul_finite d ha hb, hprod, roundUnits_zero]
  · rw [ieeeMul_finite d ha hb, isNeg_roundUnits]

end Sys2Proof.Machine
end

section
/-! SUPPORT. Sums, differences and products of finite reals are the exact ones rounded to nearest, ties to
even, and overflow to an infinity (spec 41_cascade R124, R125). -/

namespace Sys2Proof.Machine

/-! ### Overflow -/

/-- The exponent of the last place of the largest finite reals, in units. -/
def topExp (p : Prec) : Nat := 2 ^ expBits p - 3

/-- Twice the midpoint, in units, between the largest finite real and the next one there would be. -/
def twiceOverflow (p : Prec) : Nat := (2 ^ (fracBits p + 2) - 1) * 2 ^ topExp p

theorem infBits_eq (p : Prec) : infBits p = topExp p * 2 ^ fracBits p + 2 ^ (fracBits p + 1) := by
  cases p <;> decide

theorem twiceOverflow_pos (p : Prec) : 0 < twiceOverflow p :=
  Nat.mul_pos (by cases p <;> decide) (Nat.two_pow_pos _)

/-- An even number is reached from halfway below it on: a tie goes up to it. -/
theorem even_le_roundDiv_iff {num sh k : Nat} (hk : 0 < k) (heven : k % 2 = 0) :
    k ≤ roundDiv num sh ↔ (2 * k - 1) * 2 ^ sh ≤ 2 * num := by
  have hnum := Nat.div_add_mod num (2 ^ sh)
  have hmod := Nat.mod_lt num (Nat.two_pow_pos sh)
  unfold roundDiv
  dsimp only
  generalize num / 2 ^ sh = q at *
  generalize num % 2 ^ sh = r at *
  generalize 2 ^ sh = u at *
  subst hnum
  rcases Nat.lt_trichotomy (q + 1) k with h | h | h
  · have hgap : (2 * q + 3) * u ≤ (2 * k - 1) * u := Nat.mul_le_mul_right u (by omega)
    have hexpand : (2 * q + 3) * u = 2 * (u * q) + 3 * u := by ring
    split <;> omega
  · subst h
    have hexpand : (2 * (q + 1) - 1) * u = 2 * (u * q) + u := by
      rw [show 2 * (q + 1) - 1 = 2 * q + 1 by omega]; ring
    split <;> omega
  · have hgap : (2 * k - 1) * u ≤ 2 * q * u := Nat.mul_le_mul_right u (by omega)
    have hexpand : 2 * q * u = 2 * (u * q) := by ring
    split <;> omega

/-- A number is rounded to the infinity exactly from the overflow midpoint on (R125). -/
theorem roundMag_eq_infBits_iff (p : Prec) (num sh : Nat) :
    roundMag p num sh = infBits p ↔ twiceOverflow p * 2 ^ sh ≤ 2 * num := by
  obtain ⟨hsig, hhidden, hlt, hge⟩ := roundMag_parts p num sh
  have hmin : roundMag p num sh = infBits p ↔ infBits p
      ≤ (Nat.log2 num - (sh + fracBits p)) * 2 ^ fracBits p
        + roundDiv num (sh + (Nat.log2 num - (sh + fracBits p))) := min_eq_right_iff
  have hhid := Nat.two_pow_pos (fracBits p)
  have htwice : 2 ^ (fracBits p + 1) = 2 * 2 ^ fracBits p := Nat.pow_succ'
  have hfour : 2 ^ (fracBits p + 2) = 2 * 2 ^ (fracBits p + 1) := Nat.pow_succ'
  rw [hmin, infBits_eq, twiceOverflow, mul_assoc, ← pow_add, add_comm (topExp p) sh]
  generalize Nat.log2 num - (sh + fracBits p) = e at *
  rcases Nat.lt_trichotomy e (topExp p) with he | rfl | he
  · -- below the top binade the significand does not reach, nor does the number
    have hexp : (e + 1) * 2 ^ fracBits p ≤ topExp p * 2 ^ fracBits p := Nat.mul_le_mul_right _ he
    have hnum : num < 2 ^ fracBits p * 2 ^ (sh + topExp p) := by
      rw [← pow_add]
      exact hlt.trans_le (Nat.pow_le_pow_right two_pos (by omega))
    have hthr : 2 * 2 ^ fracBits p * 2 ^ (sh + topExp p)
        ≤ (2 ^ (fracBits p + 2) - 1) * 2 ^ (sh + topExp p) := Nat.mul_le_mul_right _ (by omega)
    rw [add_mul] at hexp
    rw [mul_assoc] at hthr
    omega
  · -- in the top binade the significand decides
    rw [Nat.add_le_add_iff_left, even_le_roundDiv_iff (by omega) (by omega), hfour]
  · -- above it both do
    have hexp : (topExp p + 1) * 2 ^ fracBits p ≤ e * 2 ^ fracBits p := Nat.mul_le_mul_right _ he
    have hnum : 2 ^ (fracBits p + 1) * 2 ^ (sh + topExp p) ≤ num := by
      rw [← pow_add]
      exact (Nat.pow_le_pow_right two_pos (by omega)).trans (hge.resolve_left (by omega))
    have hthr : (2 ^ (fracBits p + 2) - 1) * 2 ^ (sh + topExp p)
        ≤ 2 * 2 ^ (fracBits p + 1) * 2 ^ (sh + topExp p) := Nat.mul_le_mul_right _ (by omega)
    rw [add_mul] at hexp
    rw [mul_assoc] at hthr
    omega

/-! ### Rounding a signed number -/

/-- `r` is the whole number `exact` divided by `2^sh`, rounded: the nearest finite real, the even one of
two, or from the overflow midpoint on an infinity of the given sign. -/
structure IsRounded (p : Prec) (sh : Nat) (exact : Int) (neg : Bool) (r : Word) : Prop where
  nearest : isFinite p r = true → ∀ c, isFinite p c = true →
    |signedUnits p r * 2 ^ sh - exact| ≤ |signedUnits p c * 2 ^ sh - exact|
      ∧ (|signedUnits p r * 2 ^ sh - exact| = |signedUnits p c * 2 ^ sh - exact| →
          signedUnits p r ≠ signedUnits p c → magBits p r % 2 = 0)
  infinite : isFinite p r = false → r = infWord p neg
  overflow : isFinite p r = false ↔ (twiceOverflow p : Int) * 2 ^ sh ≤ 2 * |exact|

theorem isFinite_roundUnits_eq_false_iff (p : Prec) (neg : Bool) (num sh : Nat) :
    isFinite p (roundUnits p neg num sh) = false ↔ roundMag p num sh = infBits p := by
  have hle := roundMag_le p num sh
  rw [isFinite, magBits_roundUnits, decide_eq_false_iff_not]
  omega

/-- The distance of a real from a negative number is that of its opposite from the number's magnitude. -/
theorem abs_mul_sub_withSign (neg : Bool) (x : Int) (d : Int) (num : Nat) :
    |x * d - withSign neg num| = |(if neg then -x else x) * d - num| := by
  cases neg
  · rfl
  · rw [← abs_neg]
    simp only [withSign, if_true]
    ring_nf

/-- The signed form of `roundMag_nearest`. -/
theorem isRounded_roundUnits (p : Prec) (neg : Bool) (num sh : Nat) :
    IsRounded p sh (withSign neg num) neg (roundUnits p neg num sh) where
  nearest hfin c _ := by
    rw [isFinite, decide_eq_true_eq, magBits_roundUnits] at hfin
    have habs : (if neg then -signedUnits p c else signedUnits p c).natAbs = unitsOf p (magBits p c) := by
      have hc : (signedUnits p c).natAbs = unitsOf p (magBits p c) := by
        exact_mod_cast (Int.natCast_natAbs _).trans (abs_signedUnits p c)
      split
      · rw [Int.natAbs_neg, hc]
      · exact hc
    have hsigned : signedUnits p (roundUnits p neg num sh)
        = if neg then -(unitsOf p (roundMag p num sh) : Int) else unitsOf p (roundMag p num sh) := by
      rw [signedUnits, isNeg_roundUnits, magBits_roundUnits]
    obtain ⟨hle, htie⟩ := roundMag_nearest hfin habs
    rw [abs_mul_sub_withSign, abs_mul_sub_withSign, hsigned, magBits_roundUnits]
    cases neg
    · exact ⟨hle, fun heq hne => htie heq hne.symm⟩
    · simp only [if_true, neg_neg] at hle htie ⊢
      exact ⟨hle, fun heq hne => htie heq fun h => hne (by rw [← h, neg_neg])⟩
  infinite hinf := by
    rw [roundUnits, (isFinite_roundUnits_eq_false_iff p neg num sh).mp hinf, infWord]
  overflow := by
    rw [isFinite_roundUnits_eq_false_iff, roundMag_eq_infBits_iff, abs_withSign]
    norm_cast

/-- The threshold as the statements write it. -/
theorem twiceOverflow_cast (p : Prec) :
    (twiceOverflow p : Int) = (2 ^ (fracBits p + 2) - 1) * 2 ^ (2 ^ expBits p - 3) := by
  rw [twiceOverflow, topExp]
  push_cast [Nat.one_le_two_pow]
  rfl

/-- Settles O24: the exact product is that of the magnitudes with the exclusive-or of the signs. -/
theorem productIsRoundedToNearestEven : Obligations.ProductIsRoundedToNearestEven := by
  intro p d a b ha hb
  have hround := isRounded_roundUnits p (isNeg p a != isNeg p b)
    (unitsOf p (magBits p a) * unitsOf p (magBits p b)) (unitBits p)
  rw [← withSign_mul, ← signedUnits_eq_withSign, ← signedUnits_eq_withSign, ← ieeeMul_finite d ha hb]
    at hround
  refine ⟨hround.nearest, hround.infinite, ?_⟩
  rw [← twiceOverflow_cast]
  exact hround.overflow

/-- A sum is the exact sum rounded, its infinity of the sum's sign. -/
theorem isRounded_ieeeAdd {p : Prec} {a b : Word} (d : Nat) (ha : isFinite p a = true)
    (hb : isFinite p b = true) :
    IsRounded p 0 (signedUnits p a + signedUnits p b) (decide (signedUnits p a + signedUnits p b < 0))
      (ieeeAdd p d a b) := by
  obtain ⟨neg, num, hadd, hexact, -⟩ := ieeeAdd_finite_cases d ha hb
  rw [hadd, ← hexact]
  have hround := isRounded_roundUnits p neg num 0
  refine ⟨hround.nearest, fun hinf => ?_, hround.overflow⟩
  have hnum : num ≠ 0 := by
    rintro rfl
    have hpos := twiceOverflow_pos p
    have hover := hround.overflow.mp hinf
    rw [pow_zero, mul_one, withSign_zero, abs_zero] at hover
    omega
  rw [hround.infinite hinf, decide_withSign_neg hnum]

/-- Settles O25: a difference is the sum with the second sign turned over. -/
theorem sumIsRoundedToNearestEven : Obligations.SumIsRoundedToNearestEven := by
  intro p d a b ha hb exact r hop
  have hround : IsRounded p 0 exact (decide (exact < 0)) r := by
    rcases hop with ⟨rfl, rfl⟩ | ⟨rfl, rfl⟩
    · exact isRounded_ieeeAdd d ha hb
    · rw [sub_eq_add_neg, ← signedUnits_negate]
      exact isRounded_ieeeAdd d ha (by rwa [isFinite_negate])
  obtain ⟨hnearest, hinfinite, hoverflow⟩ := hround
  simp only [pow_zero, mul_one, twiceOverflow_cast] at hnearest hoverflow
  exact ⟨hnearest, hinfinite, hoverflow⟩

end Sys2Proof.Machine
end

section
/-! SUPPORT. The controller at one edge, and the outcomes of an `FFILT` by its length (spec 42_filtfilt R146,
R153, R154, R156). -/

namespace Sys2Proof.Machine

/-! ### One sample of the forward pass -/

/-- Read a word of XBUF and put it through the cascade (R149). -/
def forwardStep (a : Nat) (s : State) : Word × State :=
  cascadeStep (readWord .x a s).1 (readWord .x a s).2

theorem forwardPass_cons (a : Nat) (as : List Nat) (s : State) :
    forwardPass (a :: as) s = ((forwardStep a s).1 :: (forwardPass as (forwardStep a s).2).1,
      (forwardPass as (forwardStep a s).2).2) := rfl

@[simp] theorem forwardStep_padLen (a : Nat) (s : State) : padLen (forwardStep a s).2 = padLen s :=
  padLen_congr (by simp [forwardStep]) (by simp [forwardStep])

@[simp] theorem forwardStep_extLen (a n : Nat) (s : State) :
    extLen (forwardStep a s).2 n = extLen s n := by
  simp only [extLen, forwardStep_padLen]

theorem forwardStep_written {a : Nat} {s : State} {v : Word} (h : memRead s.xbuf a = some v) :
    forwardStep a s = cascadeStep v s := by
  rw [forwardStep, readWord_written (b := .x) h]

/-! ### The rows of R156 the laws above do not give -/

section
variable {s : State}

theorem tick_check_tooLong (h : s.phase = .check) (hmax : s.par.nmax < s.len) :
    tick s = raise .lengthExceedsCapacity s := by
  simp only [tick, h, if_pos hmax]

theorem tick_check_tooShort (h : s.phase = .check) (hmax : s.len ≤ s.par.nmax) (hn : s.len ≤ padLen s) :
    tick s = raise .insufficientSamples s := by
  simp only [tick, h, if_neg (Nat.not_lt.mpr hmax), if_pos hn]

theorem tick_check_passed (h : s.phase = .check) (hmax : s.len ≤ s.par.nmax) (hn : padLen s < s.len) :
    tick s = { s with phase := .clear1 } := by
  simp only [tick, h, if_neg (Nat.not_lt.mpr hmax), if_neg (Nat.not_le.mpr hn)]

theorem tick_clear1 (h : s.phase = .clear1) :
    tick s = { clearState s with idx := 0, tbuf := [], phase := .fwd } := by
  simp only [tick, h]

theorem tick_fwd_more (h : s.phase = .fwd) (hi : s.idx + 1 < extLen s s.len) :
    tick s = { (forwardStep (xaddr s.len (padLen s) s.idx) s).2 with
      tbuf := s.tbuf ++ [(forwardStep (xaddr s.len (padLen s) s.idx) s).1], idx := s.idx + 1 } := by
  simp only [tick, h, if_pos hi, forwardStep]

theorem tick_fwd_last (h : s.phase = .fwd) (hi : extLen s s.len ≤ s.idx + 1) :
    tick s = { (forwardStep (xaddr s.len (padLen s) s.idx) s).2 with
      tbuf := s.tbuf ++ [(forwardStep (xaddr s.len (padLen s) s.idx) s).1], phase := .clear2 } := by
  simp only [tick, h, if_neg (Nat.not_lt.mpr hi), forwardStep]

theorem tick_bwd_more (h : s.phase = .bwd) (hi : 0 < s.idx) :
    tick s = { (cascadeStep (s.tbuf.getD s.idx 0#64) s).2 with
      tbuf := s.tbuf.set s.idx (cascadeStep (s.tbuf.getD s.idx 0#64) s).1, idx := s.idx - 1 } := by
  simp only [tick, h, if_pos hi]

theorem tick_bwd_last (h : s.phase = .bwd) (hi : s.idx = 0) :
    tick s = { (cascadeStep (s.tbuf.getD s.idx 0#64) s).2 with
      tbuf := s.tbuf.set 0 (cascadeStep (s.tbuf.getD s.idx 0#64) s).1, phase := .done } := by
  simp only [tick, h, hi, Nat.lt_irrefl, if_false]

end

/-- The middle of a work buffer, written to a sample buffer from index 0 on (R150). -/
theorem memRead_memWriteAll_middle (m : Memory) {l : List Word} {p n : Nat} (h : n + p ≤ l.length)
    (j : Nat) :
    memRead (memWriteAll m 0 ((l.drop p).take n)) j = if j < n then l[j + p]? else memRead m j := by
  have hlen : ((l.drop p).take n).length = n := by rw [List.length_take, List.length_drop]; omega
  simp only [memRead_memWriteAll, hlen, Nat.zero_le, true_and, Nat.zero_add, Nat.sub_zero]
  split
  · rw [List.getElem?_take_of_lt ‹_›, List.getElem?_drop, Nat.add_comm]
  · rfl

/-- With no reset, a working controller does one row (R156). -/
theorem step_working {s : State} (hrst : (nextInput s).rst = false) (hp : s.phase ≠ .idle) :
    step s = .next (tick (consumeInput s)) := by
  have hp' : (consumeInput s).phase ≠ .idle := hp
  simp only [step, hrst, Bool.false_eq_true, if_false, if_pos hp']

theorem onlyAnswers_raise (e : Status) (s : State) : onlyAnswers s (raise e s) e 0#64 :=
  ⟨⟨rfl, rfl⟩, ⟨rfl, rfl⟩, rfl, fun _ => rfl, fun _ => rfl, ⟨rfl, rfl, rfl⟩, rfl, rfl, rfl⟩

/-- Settles O10, row by row. -/
theorem controllerFollowsItsTable : Obligations.ControllerFollowsItsTable := by
  intro s hrst c e y g clr
  have hstep : ∀ {ph : Phase} {t : State}, s.phase = ph → ph ≠ .idle → tick c = t → step s = .next t := by
    rintro ph t rfl hp rfl
    exact step_working hrst hp
  refine ⟨fun h hmax => ⟨_, hstep h nofun (tick_check_tooLong h hmax), onlyAnswers_raise _ c⟩,
    fun h hmax hn => ⟨_, hstep h nofun (tick_check_tooShort h hmax hn), onlyAnswers_raise _ c⟩,
    fun h hmax hn => hstep h nofun (tick_check_passed h hmax hn),
    fun h => hstep h nofun (tick_clear1 h),
    fun h hi => hstep h nofun (tick_fwd_more h hi),
    fun h hi => hstep h nofun (tick_fwd_last h hi.ge),
    fun h => hstep h nofun (tick_clear2 h),
    fun h hi => hstep h nofun (tick_bwd_more h hi),
    fun h hi => hstep h nofun (tick_bwd_last h hi),
    fun h hlen => ?_⟩
  have hread := memRead_memWriteAll_middle s.ybuf (l := s.tbuf) (p := padLen s) (n := s.len) (by omega)
  exact ⟨_, hstep h nofun (tick_done h), ⟨rfl, rfl⟩, fun j hj => (hread j).trans (if_pos hj),
    fun j hj => (hread j).trans (if_neg (Nat.not_lt.mpr hj)), ⟨rfl, rfl⟩, rfl, fun _ => rfl⟩

/-- Settles O11: the rows left bound the walk, and the row that ends it answers. -/
theorem walkAlwaysTerminates : Obligations.WalkAlwaysTerminates := by
  intro s hp
  have hidle : (walk (rowsLeft s) s).phase = .idle := walk_phase (Nat.le_refl _)
  obtain ⟨r, hr⟩ := Option.ne_none_iff_exists'.mp (walk_answers hp _ hidle)
  exact ⟨rowsLeft s, r, hidle, hr⟩

/-- Settles O29: the check fails before anything but `LEN` is written. -/
theorem ffiltRejectsBadLengths : Obligations.FfiltRejectsBadLengths :=
  ⟨rfl, rfl, fun _ _ =>
    ⟨fun hmax => ⟨_, exec_ffilt_tooLong hmax, ⟨rfl, rfl⟩, ⟨rfl, rfl⟩, rfl, fun _ => rfl, fun _ => rfl,
      rfl, rfl, rfl⟩,
    fun hmax hn => ⟨_, exec_ffilt_tooShort hmax hn, ⟨rfl, rfl⟩, ⟨rfl, rfl⟩, rfl, fun _ => rfl,
      fun _ => rfl, rfl, rfl, rfl⟩⟩⟩

/-- Settles O32, from what no row of a walk changes. -/
theorem ffiltLeavesInputAndRestOfOutput : Obligations.FfiltLeavesInputAndRestOfOutput := by
  intro s n
  obtain ⟨hpar, hrom, hx, hword, hdata, hinputs, -⟩ := walk_frame (walkLength s n) (startFfilt n s)
  exact ⟨_, exec_ffilt n s, ⟨hpar, hrom⟩, fun i => congrArg (memRead · i) hx,
    fun j hj => walk_ybuf (walkLength s n) (startFfilt n s) hj, hword, hdata, hinputs⟩

end Sys2Proof.Machine
end

section
/-! SUPPORT. The walk of the controller computes the pseudocode of R145 (spec 42_filtfilt R148 to R156). -/

namespace Sys2Proof.Machine

/-! ### Equal states but for the controller's registers -/

/-- The state with `PHASE`, `LEN`, `IDX` and TBUF at the values given, during an `FFILT n`. -/
def withControl (ph : Phase) (n i : Nat) (tb : List Word) (s : State) : State :=
  { s with phase := ph, len := n, idx := i, tbuf := tb, exposed := .ywords n }

theorem startPass_eq_withControl (n : Nat) (s : State) :
    startPass n s = withControl .fwd n 0 [] (clearState s) := rfl

theorem readWord_withControl (ph : Phase) (n i : Nat) (tb : List Word) (b : Bank) (k : Nat) (s : State) :
    readWord b k (withControl ph n i tb s)
      = ((readWord b k s).1, withControl ph n i tb (readWord b k s).2) := by
  have hbuf : (withControl ph n i tb s).buffer b = s.buffer b := by cases b <;> rfl
  unfold readWord
  rw [hbuf]
  split <;> rfl

/-- The registers of the controller take no part in a sample of the forward pass. -/
theorem forwardStep_withControl (ph : Phase) (n i : Nat) (tb : List Word) (a : Nat) (s : State) :
    forwardStep a (withControl ph n i tb s)
      = ((forwardStep a s).1, withControl ph n i tb (forwardStep a s).2) := by
  unfold forwardStep
  rw [readWord_withControl]
  rfl

/-! ### The rows and the passes -/

theorem walk_withControl_succ {ph : Phase} (hp : ph ≠ .idle) (fuel n i : Nat) (tb : List Word)
    (s : State) :
    walk (fuel + 1) (withControl ph n i tb s) = walk fuel (tick (withControl ph n i tb s)) :=
  walk_succ fuel _ hp

theorem tick_withControl_fwd (n i : Nat) (tb : List Word) (s : State) :
    tick (withControl .fwd n i tb s)
      = withControl (if i + 1 < extLen s n then .fwd else .clear2) n
          (if i + 1 < extLen s n then i + 1 else i)
          (tb ++ [(forwardStep (xaddr n (padLen s) i) s).1])
          (forwardStep (xaddr n (padLen s) i) s).2 := by
  by_cases hi : i + 1 < extLen s n
  · rw [if_pos hi, if_pos hi, tick_fwd_more rfl hi, forwardStep_withControl]
    rfl
  · rw [if_neg hi, if_neg hi, tick_fwd_last rfl (Nat.not_lt.mp hi), forwardStep_withControl]
    rfl

theorem tick_withControl_bwd (n i : Nat) (tb : List Word) (s : State) :
    tick (withControl .bwd n i tb s)
      = withControl (if 0 < i then .bwd else .done) n (i - 1)
          (tb.set i (cascadeStep (tb.getD i 0#64) s).1) (cascadeStep (tb.getD i 0#64) s).2 :=
  tick_bwd rfl

theorem tick_withControl_done (n i : Nat) (tb : List Word) (s : State) :
    tick (withControl .done n i tb s) = respond 0#64 { withControl .done n i tb s with
      ybuf := memWriteAll s.ybuf 0 ((tb.drop (padLen s)).take n) } :=
  tick_done rfl

/-- The rows `FWD` from index `i` on append to TBUF what the forward pass gives (R149). -/
theorem walk_fwd (n k i : Nat) (tb : List Word) (s : State) (h : i + (k + 1) = extLen s n) :
    let f := forwardPass ((List.range' i (k + 1)).map (xaddr n (padLen s))) s
    walk (k + 1) (withControl .fwd n i tb s) = withControl .clear2 n (i + k) (tb ++ f.1) f.2 := by
  induction k generalizing i tb s with
  | zero =>
    rw [walk_withControl_succ (by decide), tick_withControl_fwd, if_neg (by omega),
      if_neg (by omega)]
    rfl
  | succ k ih =>
    rw [walk_withControl_succ (by decide), tick_withControl_fwd, if_pos (by omega), if_pos (by omega),
      ih _ _ _ (by rw [forwardStep_extLen]; omega), List.range'_succ, List.map_cons, forwardPass_cons,
      forwardStep_padLen, List.append_assoc, List.singleton_append, Nat.add_right_comm i 1 k,
      Nat.add_assoc i k 1]

/-- The rows `BWD` from index `i` down put what the backward pass gives, un-reversed, in the place of its
input in TBUF (R150). -/
theorem walk_bwd (n i : Nat) (tb : List Word) (s : State) (h : i < tb.length) :
    let g := cascadeAll (tb.take (i + 1)).reverse s
    walk (i + 1) (withControl .bwd n i tb s)
      = withControl .done n 0 (g.1.reverse ++ tb.drop (i + 1)) g.2 := by
  induction i generalizing tb s with
  | zero =>
    rw [walk_withControl_succ (by decide), tick_withControl_bwd, if_neg (Nat.lt_irrefl 0)]
    obtain ⟨v, tb, rfl⟩ := List.exists_cons_of_length_pos h
    rfl
  | succ i ih =>
    have htake : (tb.take (i + 1 + 1)).reverse = tb.getD (i + 1) 0#64 :: (tb.take (i + 1)).reverse := by
      rw [List.take_succ_eq_append_getElem h, List.reverse_append, List.getD_eq_getElem _ _ h]
      rfl
    have hdrop (y : Word) : (tb.set (i + 1) y).drop (i + 1) = y :: tb.drop (i + 1 + 1) := by
      rw [List.drop_set, if_neg (Nat.lt_irrefl _), Nat.sub_self, List.drop_eq_getElem_cons h,
        List.set_cons_zero]
    rw [walk_withControl_succ (by decide), tick_withControl_bwd, if_pos i.succ_pos, Nat.add_sub_cancel,
      ih _ _ (by rw [List.length_set]; omega), htake, List.take_set_of_le (Nat.le_refl _), hdrop]
    simp only [cascadeAll, List.reverse_cons, List.append_assoc, List.singleton_append]

/-! ### The walk -/

/-- The forward rows of an `FFILT`, over the whole extended sequence (R149). -/
theorem walk_startPass_fwd {n : Nat} {s : State} (h : 0 < extLen s n) :
    let f := forwardPass (extension s n) (clearState s)
    walk (extLen s n) (startPass n s) = withControl .clear2 n (extLen s n - 1) f.1 f.2 := by
  obtain ⟨k, hk⟩ := Nat.exists_eq_add_one.mpr h
  have hf := walk_fwd n k 0 [] (clearState s) (by rw [clearState_extLen, hk, Nat.zero_add])
  rw [startPass_eq_withControl, extension, List.range_eq_range', hk]
  rwa [Nat.zero_add] at hf

/-- The backward rows, over the whole of TBUF (R150). -/
theorem walk_bwd_whole (n : Nat) {tb : List Word} (s : State) (h : 0 < tb.length) :
    let g := cascadeAll tb.reverse s
    walk tb.length (withControl .bwd n (tb.length - 1) tb s) = withControl .done n 0 g.1.reverse g.2 := by
  have hg := walk_bwd n (tb.length - 1) tb s (Nat.sub_lt h Nat.one_pos)
  rw [Nat.sub_add_cancel h] at hg
  simpa only [List.take_length, List.drop_length, List.append_nil] using hg

/-- From the forward pass on, the walk of an `FFILT` gives what the function of R145 gives. -/
theorem walk_startPass {n : Nat} {s : State} (h : 0 < extLen s n) :
    walk (2 * extLen s n + 2) (startPass n s) = filtfilt n s := by
  have hf := forwardPass_state (extension s n) (clearState s)
  have hlen := forwardPass_length (extension s n) (clearState s)
  have hfwd := walk_startPass_fwd h
  dsimp only [filtfilt]
  generalize forwardPass (extension s n) (clearState s) = f at hf hlen hfwd ⊢
  rw [extension, List.length_map, List.length_range] at hlen
  have hg := cascadeAll_state f.1.reverse (clearState f.2)
  have hbwd := walk_bwd_whole n (clearState f.2) (hlen.symm ▸ h)
  generalize cascadeAll f.1.reverse (clearState f.2) = g at hg hbwd ⊢
  have hext : extLen f.2 n = f.1.length := by rw [hf, hlen]; rfl
  have hclear : tick (withControl .clear2 n (extLen s n - 1) f.1 f.2)
      = withControl .bwd n (f.1.length - 1) f.1 (clearState f.2) := by
    rw [tick_clear2 rfl, ← hext]
    rfl
  have hpad : padLen g.2 = padLen s := by rw [hg, hf]; rfl
  have hybuf : g.2.ybuf = s.ybuf := by rw [hg, hf]; rfl
  rw [show 2 * extLen s n + 2 = extLen s n + ((f.1.length + 1) + 1) by omega, walk_add, hfwd,
    walk_withControl_succ (by decide), hclear, walk_add, hbwd, walk_withControl_succ (by decide) 0,
    tick_withControl_done, walk, hpad, hybuf]
  rfl

/-- Settles O30: past its checks, the walk gives row by row what the passes of R145 give. -/
theorem ffiltWalkComputesForwardThenBackward : Obligations.FfiltWalkComputesForwardThenBackward :=
  fun _ _ hn hmax => (exec_ffilt_passed hmax hn).trans
    (congrArg Host.Outcome.next (walk_startPass (Nat.add_pos_left (Nat.zero_lt_of_lt hn) _)))

end Sys2Proof.Machine
end

section
/-! SUPPORT. What an `FFILT` that passes its checks writes (spec 42_filtfilt R148 to R152, R157, R158). -/

namespace Sys2Proof.Machine

/-! ### The result in YBUF -/

/-- The backward pass of `FFILT n`, un-reversed, and the state after it (R150). -/
def backwardPass (n : Nat) (s : State) : List Word × State :=
  let f := forwardPass (extension s n) (clearState s)
  let g := cascadeAll f.1.reverse (clearState f.2)
  (g.1.reverse, g.2)

theorem backwardPass_length (n : Nat) (s : State) : (backwardPass n s).1.length = extLen s n := by
  simp only [backwardPass, extension, List.length_reverse, cascadeAll_length, forwardPass_length,
    List.length_map, List.length_range]

/-- `g[j + P]` is there for every `j` below `N`. -/
theorem lt_backwardPass_length {n j : Nat} (s : State) (hj : j < n) :
    j + padLen s < (backwardPass n s).1.length := by
  rw [backwardPass_length, extLen]
  omega

/-- `YBUF[j]` is `g[j + P]` below `N` (R150, R151). -/
theorem memRead_filtfilt {n j : Nat} (s : State) (hj : j < n) :
    memRead (filtfilt n s).ybuf j = (backwardPass n s).1[j + padLen s]? := by
  have hlen : n + padLen s ≤ (backwardPass n s).1.length := by
    rw [backwardPass_length, extLen]
    omega
  exact (memRead_memWriteAll_middle s.ybuf hlen j).trans (if_pos hj)

/-- Settles O31: by O30 the state after the command is the function of R145, whose words are read off. -/
theorem ffiltWritesTheMiddleOfTheBackwardPass : Obligations.FfiltWritesTheMiddleOfTheBackwardPass := by
  intro s n hn hmax
  refine ⟨_, ffiltWalkComputesForwardThenBackward s n hn hmax, ⟨rfl, rfl⟩, fun j hj => ?_, rfl⟩
  have hread := memRead_filtfilt s hj
  refine ⟨hread, ?_⟩
  rw [hread, List.getElem?_eq_getElem (lt_backwardPass_length s hj), Option.isSome_some]

/-! ### The extended sequence -/

/-- Settles O33, position by position: in the mirrored head, in the input, in the mirrored tail. -/
theorem extensionReflectsWithoutRepeatingTheEdge :
    Obligations.ExtensionReflectsWithoutRepeatingTheEdge := by
  intro n p hp
  refine ⟨List.ext_getElem ?_ fun i hi _ => ?_, fun i hi => xaddr_lt hp hi⟩
  · simp only [List.length_map, List.length_append, List.length_reverse, List.length_range',
      List.length_range]
    omega
  · rw [List.length_map, List.length_range] at hi
    simp only [List.getElem_map, List.getElem_range, List.getElem_append, List.getElem_reverse,
      List.getElem_range', List.length_append, List.length_reverse, List.length_range', List.length_range,
      xaddr]
    split_ifs <;> omega

/-! ### The forward pass over written words -/

/-- Over words that have been written, the forward pass is the cascade run over them (R149). -/
theorem forwardPass_eq_cascadeAll (as : List Nat) (xs : List Word) (s : State)
    (h : as.map (memRead s.xbuf) = xs.map some) : forwardPass as s = cascadeAll xs s := by
  induction as generalizing xs s with
  | nil =>
    obtain rfl : xs = [] := List.map_eq_nil_iff.mp h.symm
    rfl
  | cons a as ih =>
    cases xs with
    | nil => cases h
    | cons v xs =>
      rw [List.map_cons, List.map_cons, List.cons.injEq] at h
      obtain ⟨hv, hrest⟩ := h
      rw [forwardPass_cons, forwardStep_written hv, ih xs (cascadeStep v s).2 hrest]
      rfl

/-- What `PROC` commands answer depends on neither the latched data word nor the response channel. -/
theorem procWords_eq_cascadeAll (xs : List Word) (s : State) (d : Word) (ph : Phase)
    (r : Option Response) :
    procWords xs { s with cmdData := d, phase := ph, rsp := r } = (cascadeAll xs s).1 := by
  induction xs generalizing s d ph r with
  | nil => rfl
  | cons v xs ih => exact congrArg ((cascadeStep v s).1 :: ·) (ih (cascadeStep v s).2 v .idle _)

/-- Settles O34: both are the cascade run over the words from a cleared state. -/
theorem forwardPassIsRstThenProcs : Obligations.ForwardPassIsRstThenProcs := by
  intro s t as xs hrst h
  obtain rfl := Host.Outcome.next.inj hrst
  rw [forwardPass_eq_cascadeAll as xs (clearState s) h]
  exact (procWords_eq_cascadeAll xs (clearState s) s.cmdData _ _).symm

/-! ### Two states of one configuration -/

theorem sameConfig_cascadeAll {s s' : State} (vs vs' : List Word) (hc : sameConfig s s') :
    sameConfig (cascadeAll vs s).2 (cascadeAll vs' s').2 := by
  rw [cascadeAll_state vs s, cascadeAll_state vs' s']
  exact hc

/-- The cascade run over the same reals from the same reals gives the same reals. -/
theorem cascadeAll_keepsReals {par : Params} {s s' : State} {vs vs' : List Word} (hc : sameConfig s s')
    (hpar : s.par = par) (hf : simFile par s.file s'.file) (hvs : List.Forall₂ (sameReal par) vs vs') :
    List.Forall₂ (sameReal par) (cascadeAll vs s).1 (cascadeAll vs' s').1
      ∧ simFile par (cascadeAll vs s).2.file (cascadeAll vs' s').2.file := by
  induction hvs generalizing s s' with
  | nil => exact ⟨.nil, hf⟩
  | @cons v v' vs vs' hv _ ih =>
    subst hpar
    obtain ⟨hy, hf⟩ := cascadeStep_keepsReals hc hf hv
    have hc' : sameConfig (cascadeStep v s).2 (cascadeStep v' s').2 := hc
    obtain ⟨hys, hf⟩ := ih hc' rfl hf
    exact ⟨.cons hy hys, hf⟩

/-- Words that both buffers hold at some indices. -/
theorem exists_words {m m' : Memory} (as : List Nat)
    (h : ∀ a ∈ as, ∃ v, memRead m a = some v ∧ memRead m' a = some v) :
    ∃ xs : List Word, as.map (memRead m) = xs.map some ∧ as.map (memRead m') = xs.map some := by
  induction as with
  | nil => exact ⟨[], rfl, rfl⟩
  | cons a as ih =>
    obtain ⟨v, hv, hv'⟩ := h a List.mem_cons_self
    obtain ⟨xs, hxs, hxs'⟩ := ih fun b hb => h b (List.mem_cons_of_mem a hb)
    exact ⟨v :: xs, by rw [List.map_cons, hv, hxs, List.map_cons],
      by rw [List.map_cons, hv', hxs', List.map_cons]⟩

/-- From the same written input both passes give the same reals, whatever the states held (R158). -/
theorem backwardPass_keepsReals {s s' : State} {n : Nat} (hc : sameConfig s s') (hn : padLen s < n)
    (hx : ∀ i, i < n → ∃ v, memRead s.xbuf i = some v ∧ memRead s'.xbuf i = some v) :
    List.Forall₂ (sameReal s.par) (backwardPass n s).1 (backwardPass n s').1
      ∧ simFile s.par (backwardPass n s).2.file (backwardPass n s').2.file := by
  have hext : extension s' n = extension s n := by
    rw [extension, extension, extLen_congr n hc.1 hc.2, padLen_congr hc.1 hc.2]
  obtain ⟨xs, hxs, hxs'⟩ := exists_words (extension s n) fun a ha => by
    obtain ⟨i, hi, rfl⟩ := List.mem_map.mp ha
    exact hx _ (xaddr_lt hn (List.mem_range.mp hi))
  have hf : forwardPass (extension s n) (clearState s) = cascadeAll xs (clearState s) :=
    forwardPass_eq_cascadeAll _ _ _ hxs
  have hf' : forwardPass (extension s n) (clearState s') = cascadeAll xs (clearState s') :=
    forwardPass_eq_cascadeAll _ _ _ hxs'
  have hc0 : sameConfig (clearState s) (clearState s') := hc
  obtain ⟨hy, -⟩ := cascadeAll_keepsReals hc0 rfl (simFile_clearState hc)
    (List.forall₂_same.mpr fun v (_ : v ∈ xs) => sameReal_refl s.par v)
  have hc1 := sameConfig_cascadeAll xs xs hc0
  have hpar : (cascadeAll xs (clearState s)).2.par = s.par := by rw [cascadeAll_state]; rfl
  unfold backwardPass
  rw [hext, hf, hf']
  generalize cascadeAll xs (clearState s) = f, cascadeAll xs (clearState s') = f' at hy hc1 hpar ⊢
  have hc2 : sameConfig (clearState f.2) (clearState f'.2) := hc1
  obtain ⟨hz, hfile⟩ := cascadeAll_keepsReals hc2 hpar (hpar ▸ simFile_clearState hc1)
    (List.rel_reverse hy)
  exact ⟨List.rel_reverse hz, hfile⟩

/-- Settles O35: by O30 both states after the command are given by the passes, which keep the reals. -/
theorem ffiltDoesNotDependOnPriorState : Obligations.FfiltDoesNotDependOnPriorState := by
  intro s s' t t' n hc hn hmax hx ht ht'
  have hpad : padLen s' = padLen s := padLen_congr hc.1 hc.2
  have hn' : padLen s' < n := hpad ▸ hn
  obtain rfl := Host.Outcome.next.inj ((ffiltWalkComputesForwardThenBackward s n hn hmax).symm.trans ht)
  obtain rfl := Host.Outcome.next.inj ((ffiltWalkComputesForwardThenBackward s' n hn'
    (hc.1 ▸ hmax)).symm.trans ht')
  obtain ⟨hg, hfile⟩ := backwardPass_keepsReals hc hn hx
  refine ⟨hfile, fun j hj => ?_⟩
  rw [memRead_filtfilt s hj, memRead_filtfilt s' hj, hpad]
  have hlt := lt_backwardPass_length s hj
  exact ⟨_, _, List.getElem?_eq_getElem hlt, List.getElem?_eq_getElem (hg.length_eq ▸ hlt),
    hg.get hlt _⟩

end Sys2Proof.Machine
end

section
/-! SUPPORT. What the access commands leave unchanged, and the addresses of the FLT space that are not valid
(spec 20_memory R46, 43_access R175, R176, R179, R180, R183). -/

namespace Sys2Proof.Machine

/-! ### The sample buffers -/

/-- Settles O36: the write puts its word at index `i` and leaves the other words of XBUF. -/
theorem wrbufStoresTheDataWord : Obligations.WrbufStoresTheDataWord := fun s i hi =>
  ⟨_, exec_wrbuf_inside hi, ⟨rfl, rfl⟩, memRead_memWrite_same s.xbuf i s.cmdData,
    fun _ hj => memRead_memWrite_other s.xbuf s.cmdData hj, ⟨rfl, rfl⟩, rfl, fun _ => rfl,
    ⟨rfl, rfl, rfl⟩, rfl, rfl, rfl⟩

/-- Settles O37: both commands only raise. -/
theorem bufferIndexOutOfRangeIsBadAddress : Obligations.BufferIndexOutOfRangeIsBadAddress :=
  fun s _ b hi => ⟨⟨_, exec_wrbuf_outside hi, onlyAnswers_raise _ s⟩,
    ⟨_, exec_rdbuf_outside b hi, onlyAnswers_raise _ s⟩, rfl⟩

/-- Settles O39: the read of a written word takes no free value, so it leaves the state as it is. -/
theorem rdbufReadsTheBank : Obligations.RdbufReadsTheBank := by
  intro s b i v hi hv
  refine ⟨respond v s, ?_, onlyAnswers_respond v s, rfl⟩
  rw [exec_rdbuf_inside b hi, readWord_written hv]

/-! ### The invalid addresses of the Filter value -/

/-- Of the eight words of a section only the last is reserved (R46). -/
theorem sectionWord_eq_none_iff (s : State) (k : Nat) (c : Coeffs Word) {f : Nat} (hf : f < 8) :
    sectionWord s k c f = none ↔ f = 7 := by
  interval_cases f <;> simp [sectionWord]

/-- The addresses that are not valid (R183). -/
theorem fltWord_eq_none_iff (s : State) (a : Nat) :
    fltWord s a = none ↔ (2 ≤ a ∧ a ≤ 7) ∨ (8 ≤ a ∧ s.nsec ≤ a / 8 - 1) ∨ a % 8 = 7 := by
  rcases Nat.lt_or_ge a 8 with ha | ha
  · interval_cases a <;> simp [fltWord]
  · obtain ⟨k, f, hf, rfl⟩ : ∃ k f, f < 8 ∧ a = 8 * (k + 1) + f :=
      ⟨a / 8 - 1, a % 8, by omega, by omega⟩
    have hk : (8 * (k + 1) + f) / 8 - 1 = k := by omega
    rcases Nat.lt_or_ge k s.nsec with hsec | hsec
    · rw [fltWord_section (List.getElem?_eq_getElem hsec) hf, sectionWord_eq_none_iff s k _ hf]
      omega
    · have hnone : s.rom.sections[k]? = none := List.getElem?_eq_none hsec
      rw [fltWord, if_neg (by omega), if_neg (by omega), if_neg (by omega), hk, hnone]
      exact iff_of_true rfl (.inr (.inl ⟨ha, hsec⟩))

theorem exec_rdflt_invalid {s : State} {a : Nat} (h : fltWord s a = none) :
    exec (.rdflt a) s = .next (raise .badAddress s) := by
  simp only [exec, execRdflt, h]

/-- `RDFLT` is refused exactly where the FLT space holds no word. -/
theorem rdflt_badAddress_iff (s : State) (a : Nat) :
    (∃ t, exec (.rdflt a) s = .next t ∧ onlyAnswers s t .badAddress 0#64) ↔ fltWord s a = none := by
  constructor
  · rintro ⟨t, ht, ⟨hbad, -⟩, -⟩
    by_contra hvalid
    obtain ⟨v, hv⟩ := Option.ne_none_iff_exists'.mp hvalid
    obtain ⟨u, hu, ⟨hok, -⟩, -⟩ := exec_rdflt_valid hv
    obtain rfl := Host.Outcome.next.inj (ht.symm.trans hu)
    simp [hbad] at hok
  · exact fun h => ⟨_, exec_rdflt_invalid h, onlyAnswers_raise _ s⟩

/-- Settles O43, from the addresses at which the FLT space holds no word. -/
theorem rdfltRejectsInvalidAddresses : Obligations.RdfltRejectsInvalidAddresses := fun s a =>
  ⟨(rdflt_badAddress_iff s a).trans (fltWord_eq_none_iff s a), rfl⟩

end Sys2Proof.Machine
end

section
/-! SUPPORT. Every edge has a next state, and which statuses each command can answer (spec 60_exceptions
R190, R197, R202). -/

namespace Sys2Proof.Machine

/-- Settles O9: each branch of the step has a next state, and the one that runs a command by
`exec_executes`. -/
theorem everyStepGoesOn : Obligations.EveryStepGoesOn := exists_step_eq_next

theorem status_of_raise {e : Status} {s : State} {r : Response} (hr : (raise e s).rsp = some r) :
    r.status = e := by
  obtain rfl := Option.some.inj hr
  rfl

/-- The status of an `FFILT` is decided by its length: too long, accepted, too short (R146). -/
theorem exec_ffilt_status {n : Nat} {s t : State} {r : Response} (h : exec (.ffilt n) s = .next t)
    (hr : t.rsp = some r) :
    r.status = .ok ∨ r.status = .insufficientSamples ∨ r.status = .lengthExceedsCapacity := by
  rcases Nat.lt_or_ge s.par.nmax n with hmax | hmax
  · obtain rfl := Host.Outcome.next.inj ((exec_ffilt_tooLong hmax).symm.trans h)
    exact .inr (.inr (status_of_raise hr))
  rcases Nat.lt_or_ge (padLen s) n with hn | hn
  · obtain ⟨v, hv⟩ := exec_ffilt_passed_answers_ok hmax hn h
    obtain rfl := Option.some.inj (hv.symm.trans hr)
    exact .inl rfl
  · obtain rfl := Host.Outcome.next.inj ((exec_ffilt_tooShort hmax hn).symm.trans h)
    exact .inr (.inl (status_of_raise hr))

/-- Settles O45, outcome by outcome of `Executes`: a command that does not walk ends in `respond`, which
answers `OK`, or in `raise .badAddress`. -/
theorem statusesBelongToTheirCommands : Obligations.StatusesBelongToTheirCommands := by
  refine ⟨⟨rfl, rfl, rfl, rfl, rfl, rfl, rfl, rfl, rfl⟩, fun i s t r h hr => ?_⟩
  cases executes_of_exec h with
  | rst => exact status_of_respond hr
  | proc => exact status_of_respond hr
  | ffilt n => exact exec_ffilt_status h hr
  | wrbuf hi => exact .inl (status_of_respond hr)
  | wrbufOutside hi => exact .inr (status_of_raise hr)
  | rdbuf b hi => exact .inl (status_of_respond hr)
  | rdbufOutside b hi => exact .inr (status_of_raise hr)
  | rdflt hv => exact .inl (status_of_respond hr)
  | rdfltInvalid hv => exact .inr (status_of_raise hr)

end Sys2Proof.Machine
end

section
/-! SUPPORT. A hardware reset in any phase, and what it leaves of a command whose response was not taken
(spec 10_state R38, 70_reset_and_hazards R215 to R217). -/

namespace Sys2Proof.Machine

/-! ### The edge of a reset -/

/-- The state file of a hardware reset is the one of `RST` (R38). -/
theorem cleared_hardwareReset (s : State) : cleared (hardwareReset s) := by
  refine ⟨?_, fun k _ => ⟨clearState_w1 s k, clearState_w2 s k⟩⟩
  rw [hardwareReset_file, zeroFile_length, hardwareReset_nsec]

/-- `rst` wins over everything else at its edge (R215). -/
theorem step_reset {s : State} {pin : PortIn} {rest : List PortIn} (hi : s.inputs = pin :: rest)
    (hrst : pin.rst = true) : step s = .next (hardwareReset { s with inputs := rest }) := by
  simp [step, nextInput_cons hi, consumeInput_cons hi, hrst]

/-! ### The buffers after a reset, by what it leaves open -/

section
variable {s : State}

theorem sameBuffer_hardwareReset (h : openNow s = .nothing) (b : Bank) :
    sameBuffer b s (hardwareReset s) := by
  have e : abandon s = s := by simp only [abandon, h]
  cases b <;> intro j
  · exact congrArg (memRead ·.xbuf j) e
  · exact congrArg (memRead ·.ybuf j) e

theorem hardwareReset_openXword {i : Nat} {old : Option Word} (h : openNow s = .xword i old) :
    ((hardwareReset s).xbuf = s.xbuf ∨ (hardwareReset s).xbuf = memRestore s.xbuf i old)
      ∧ (hardwareReset s).ybuf = s.ybuf := by
  rcases abandon_cases s with ⟨hopen, -⟩ | ⟨_, _, hopen, e⟩ | ⟨_, hopen, -⟩
  all_goals cases h.symm.trans hopen
  rcases e with e | e <;> simp [e]

theorem hardwareReset_openYwords {n : Nat} (h : openNow s = .ywords n) :
    (hardwareReset s).xbuf = s.xbuf ∧ (hardwareReset s).ybuf = memEraseBelow s.ybuf n := by
  simp only [hardwareReset_xbuf, hardwareReset_ybuf, abandon, h, and_self]

/-- An `FFILT` of `n` samples left open loses its output and nothing else (R217). -/
theorem memRead_hardwareReset_openYwords {n : Nat} (h : openNow s = .ywords n) :
    (∀ j, j < n → memRead (hardwareReset s).ybuf j = none)
      ∧ (∀ j, n ≤ j → memRead (hardwareReset s).ybuf j = memRead s.ybuf j)
      ∧ sameBuffer .x s (hardwareReset s) := by
  obtain ⟨hx, hy⟩ := hardwareReset_openYwords h
  refine ⟨fun j hj => ?_, fun j hj => ?_, fun j => congrArg (memRead · j) hx⟩
  · rw [hy, memRead_memEraseBelow, if_pos hj]
  · rw [hy, memRead_memEraseBelow, if_neg (Nat.not_lt.mpr hj)]

end

/-- Settles O13: an idle block with no command outstanding leaves nothing open, and a working controller
its `YBUF[0 .. LEN-1]`. -/
theorem hardwareResetClearsTheStateFile : Obligations.HardwareResetClearsTheStateFile := by
  intro s pin rest hi hrst
  refine ⟨_, step_reset hi hrst, cleared_hardwareReset _, rfl, rfl, (cmdReady_iff _).mpr ⟨rfl, rfl⟩,
    ⟨hardwareReset_par _, hardwareReset_rom _⟩, hardwareReset_inputs _, fun hp he => ?_, fun hp => ?_⟩
  · have hopen : openNow { s with inputs := rest } = .nothing := (openNow_idle hp).trans he
    exact ⟨sameBuffer_hardwareReset hopen .x, sameBuffer_hardwareReset hopen .y⟩
  · exact memRead_hardwareReset_openYwords (s := { s with inputs := rest }) (openNow_working hp)

/-! ### A command abandoned before its response is taken -/

/-- No command takes an input (R35). -/
theorem executes_inputs {i : Instr} {s t : State} (h : Executes s i t) : t.inputs = s.inputs := by
  cases h with
  | ffilt n =>
    obtain ⟨-, -, -, -, -, hinputs, -⟩ := walk_frame (walkLength s n) (startFfilt n s)
    exact hinputs
  | rdbuf b => exact readWord_inputs b _ s
  | _ => rfl

/-- Only an `FFILT` and a `WRBUF` inside the buffer write a buffer word or leave one open to a reset. -/
theorem executes_buffers {i : Instr} {s t : State} (h : Executes s i t) :
    (∃ n, i = .ffilt n) ∨ (∃ k, i = .wrbuf k ∧ k < s.par.nmax)
      ∨ (t.exposed = s.exposed ∧ t.xbuf = s.xbuf ∧ t.ybuf = s.ybuf) := by
  cases h with
  | ffilt n => exact .inl ⟨n, rfl⟩
  | wrbuf hk => exact .inr (.inl ⟨_, rfl, hk⟩)
  | rdbuf b => exact .inr (.inr ⟨readWord_exposed b _ s, readWord_xbuf b _ s, readWord_ybuf b _ s⟩)
  | _ => exact .inr (.inr ⟨rfl, rfl, rfl⟩)

/-- A command whose response is held until a reset: the reset meets the command's own outcome, and opens
what the command has left. -/
theorem stepsTo_reset_of_executes {held : List PortIn} {i : Instr} {s t : State} (he : Executes s i t)
    (h : resetAfter held s) : ∃ rest,
      stepsTo (held.length + 1) t (hardwareReset { t with inputs := rest })
        ∧ openNow { t with inputs := rest } = t.exposed := by
  obtain ⟨hp, hr⟩ := executes_answers he
  have ht : resetAfter held t := by rwa [resetAfter, executes_inputs he]
  obtain ⟨rest, hsteps⟩ := stepsTo_reset hp hr ht
  exact ⟨rest, hsteps, openNow_idle hp⟩

/-- Settles O14: the reset keeps the written XBUF or puts back what index `i` held. -/
theorem abandonedWrbufLeavesOldOrNewWord : Obligations.AbandonedWrbufLeavesOldOrNewWord := by
  intro s i held hi h
  obtain ⟨rest, hsteps, hopen⟩ := stepsTo_reset_of_executes (.wrbuf hi) h
  obtain ⟨hx, hy⟩ := hardwareReset_openXword hopen
  refine ⟨_, _, exec_wrbuf_inside hi, hsteps, cleared_hardwareReset _, rfl, ?_⟩
  rcases hx with hx | hx <;> rw [hx]
  · exact ⟨.inr (memRead_memWrite_same s.xbuf i s.cmdData),
      fun _ hj => memRead_memWrite_other s.xbuf s.cmdData hj, fun j => congrArg (memRead · j) hy⟩
  · have hold := fun j => memRead_memRestore_memWrite s.xbuf i j s.cmdData
    exact ⟨.inl (hold i), fun j _ => hold j, fun j => congrArg (memRead · j) hy⟩

/-- Settles O15: the walk wrote YBUF below `n` only, and the reset erases it there. -/
theorem abandonedFfiltLeavesItsOutputUnspecified :
    Obligations.AbandonedFfiltLeavesItsOutputUnspecified := by
  intro s n held h
  obtain ⟨rest, hsteps, hopen⟩ := stepsTo_reset_of_executes (.ffilt n) h
  obtain ⟨-, -, hx, -, -, -, -, hexposed⟩ := walk_frame (walkLength s n) (startFfilt n s)
  obtain ⟨hlost, hkept, hxbuf⟩ := memRead_hardwareReset_openYwords (hopen.trans hexposed)
  exact ⟨_, _, exec_ffilt n s, hsteps, cleared_hardwareReset _, rfl, hlost,
    fun j hj => (hkept j hj).trans (walk_ybuf (walkLength s n) (startFfilt n s) hj),
    fun j => (hxbuf j).trans (congrArg (memRead · j) hx)⟩

/-- Settles O16: these commands write no buffer word, and the reset has nothing to open. -/
theorem otherAbandonedCommandsLeaveNothing : Obligations.OtherAbandonedCommandsLeaveNothing := by
  intro s i held hi hs h
  obtain ⟨t, ht, he⟩ := exec_executes i s
  obtain ⟨rest, hsteps, hopen⟩ := stepsTo_reset_of_executes he h
  rcases executes_buffers he with ⟨n, rfl⟩ | ⟨k, rfl, hk⟩ | ⟨hexposed, hx, hy⟩
  · simp at hi
  · have hout : s.par.nmax ≤ k := by simpa using hi
    omega
  · have hreset := sameBuffer_hardwareReset (hopen.trans (hexposed.trans hs))
    exact ⟨t, _, ht, hsteps, cleared_hardwareReset _, rfl,
      fun j => (hreset .x j).trans (congrArg (memRead · j) hx),
      fun j => (hreset .y j).trans (congrArg (memRead · j) hy)⟩

end Sys2Proof.Machine
end
